-- ==== Sys2Proof/Word.lean ====
section
/-! DEFINITION. The words of the n64js FPU core: the 32-bit command word, the two view widths of the
register file (spec R11, R25) and the parameters of the two IEEE 754 formats those widths carry. -/

namespace Sys2Proof

/-- A 32-bit command word or control register (R29, R62). -/
abbrev Word := BitVec 32

/-- A 64-bit register-file slot (R20). -/
abbrev DWord := BitVec 64

/-- A logical FP register index, 0 to 31 (R67). -/
abbrev RegIx := Fin 32

/-- The two widths of a register view (R25): `w32` carries binary32 or a word, `w64` binary64 or a
longword. -/
inductive Width where
  | w32
  | w64
  deriving DecidableEq, Repr

/-- Bits of a view. -/
abbrev Width.bits : Width → Nat
  | .w32 => 32
  | .w64 => 64

/-- Fraction (mantissa field) bits of the float format of a width (R80, R81). -/
abbrev Width.fracBits : Width → Nat
  | .w32 => 23
  | .w64 => 52

/-- Exponent field bits of the float format of a width (R80, R81). -/
abbrev Width.expBits : Width → Nat
  | .w32 => 8
  | .w64 => 11

/-- The exponent of two of the least subnormal of the format: its unit in the last place at the
bottom of the range (R15, IEEE 754). -/
abbrev Width.minExp : Width → Int
  | .w32 => -149
  | .w64 => -1074

/-- The bit pattern a view of width `w` holds. -/
abbrev Pattern (w : Width) := BitVec w.bits

end Sys2Proof
end

