-- ==== Sys2Proof/Syntax.lean ====
section
/-! DEFINITION. The syntax of the command words: one constructor for every row of spec/opcode_table.json, in the
table's order. Register operands are logical register indices 0 to 31 (R67); `offset` is the 16-bit immediate of
R74; `rt` and `base` are CPU general-register numbers, which the block only passes on. -/

namespace Sys2Proof

/-- The instructions: the 74 operations of R64 and the 14 CPU-side COP1 words of R74. -/
inductive Instr where
  -- Arithmetic (41_arithmetic.md)
  /-- ADD.S (R110). -/
  | addS (fd : RegIx) (fs : RegIx) (ft : RegIx)
  /-- ADD.D (R111). -/
  | addD (fd : RegIx) (fs : RegIx) (ft : RegIx)
  /-- SUB.S (R112). -/
  | subS (fd : RegIx) (fs : RegIx) (ft : RegIx)
  /-- SUB.D (R113). -/
  | subD (fd : RegIx) (fs : RegIx) (ft : RegIx)
  /-- MUL.S (R114). -/
  | mulS (fd : RegIx) (fs : RegIx) (ft : RegIx)
  /-- MUL.D (R115). -/
  | mulD (fd : RegIx) (fs : RegIx) (ft : RegIx)
  /-- DIV.S (R116). -/
  | divS (fd : RegIx) (fs : RegIx) (ft : RegIx)
  /-- DIV.D (R117). -/
  | divD (fd : RegIx) (fs : RegIx) (ft : RegIx)
  /-- SQRT.S (R118). -/
  | sqrtS (fd : RegIx) (fs : RegIx)
  /-- SQRT.D (R119). -/
  | sqrtD (fd : RegIx) (fs : RegIx)
  /-- ABS.S (R120). -/
  | absS (fd : RegIx) (fs : RegIx)
  /-- ABS.D (R121). -/
  | absD (fd : RegIx) (fs : RegIx)
  /-- NEG.S (R122). -/
  | negS (fd : RegIx) (fs : RegIx)
  /-- NEG.D (R123). -/
  | negD (fd : RegIx) (fs : RegIx)
  /-- MOV.S (R124). -/
  | movS (fd : RegIx) (fs : RegIx)
  /-- MOV.D (R125). -/
  | movD (fd : RegIx) (fs : RegIx)
  -- Conversions (42_conversion.md)
  /-- CVT.S.D (R150). -/
  | cvtSD (fd : RegIx) (fs : RegIx)
  /-- CVT.D.S (R151). -/
  | cvtDS (fd : RegIx) (fs : RegIx)
  /-- CVT.S.W (R152). -/
  | cvtSW (fd : RegIx) (fs : RegIx)
  /-- CVT.S.L (R153). -/
  | cvtSL (fd : RegIx) (fs : RegIx)
  /-- CVT.D.W (R154). -/
  | cvtDW (fd : RegIx) (fs : RegIx)
  /-- CVT.D.L (R155). -/
  | cvtDL (fd : RegIx) (fs : RegIx)
  /-- ROUND.W.S (R156). -/
  | roundWS (fd : RegIx) (fs : RegIx)
  /-- TRUNC.W.S (R157). -/
  | truncWS (fd : RegIx) (fs : RegIx)
  /-- CEIL.W.S (R158). -/
  | ceilWS (fd : RegIx) (fs : RegIx)
  /-- FLOOR.W.S (R159). -/
  | floorWS (fd : RegIx) (fs : RegIx)
  /-- CVT.W.S (R160). -/
  | cvtWS (fd : RegIx) (fs : RegIx)
  /-- ROUND.L.S (R161). -/
  | roundLS (fd : RegIx) (fs : RegIx)
  /-- TRUNC.L.S (R162). -/
  | truncLS (fd : RegIx) (fs : RegIx)
  /-- CEIL.L.S (R163). -/
  | ceilLS (fd : RegIx) (fs : RegIx)
  /-- FLOOR.L.S (R164). -/
  | floorLS (fd : RegIx) (fs : RegIx)
  /-- CVT.L.S (R165). -/
  | cvtLS (fd : RegIx) (fs : RegIx)
  /-- ROUND.W.D (R166). -/
  | roundWD (fd : RegIx) (fs : RegIx)
  /-- TRUNC.W.D (R167). -/
  | truncWD (fd : RegIx) (fs : RegIx)
  /-- CEIL.W.D (R168). -/
  | ceilWD (fd : RegIx) (fs : RegIx)
  /-- FLOOR.W.D (R169). -/
  | floorWD (fd : RegIx) (fs : RegIx)
  /-- CVT.W.D (R170). -/
  | cvtWD (fd : RegIx) (fs : RegIx)
  /-- ROUND.L.D (R171). -/
  | roundLD (fd : RegIx) (fs : RegIx)
  /-- TRUNC.L.D (R172). -/
  | truncLD (fd : RegIx) (fs : RegIx)
  /-- CEIL.L.D (R173). -/
  | ceilLD (fd : RegIx) (fs : RegIx)
  /-- FLOOR.L.D (R174). -/
  | floorLD (fd : RegIx) (fs : RegIx)
  /-- CVT.L.D (R175). -/
  | cvtLD (fd : RegIx) (fs : RegIx)
  -- Comparisons (43_compare.md)
  /-- C.F.S (R182). -/
  | cFS (fs : RegIx) (ft : RegIx)
  /-- C.UN.S (R183). -/
  | cUnS (fs : RegIx) (ft : RegIx)
  /-- C.EQ.S (R184). -/
  | cEqS (fs : RegIx) (ft : RegIx)
  /-- C.UEQ.S (R185). -/
  | cUeqS (fs : RegIx) (ft : RegIx)
  /-- C.OLT.S (R186). -/
  | cOltS (fs : RegIx) (ft : RegIx)
  /-- C.ULT.S (R187). -/
  | cUltS (fs : RegIx) (ft : RegIx)
  /-- C.OLE.S (R188). -/
  | cOleS (fs : RegIx) (ft : RegIx)
  /-- C.ULE.S (R189). -/
  | cUleS (fs : RegIx) (ft : RegIx)
  /-- C.SF.S (R190). -/
  | cSfS (fs : RegIx) (ft : RegIx)
  /-- C.NGLE.S (R191). -/
  | cNgleS (fs : RegIx) (ft : RegIx)
  /-- C.SEQ.S (R192). -/
  | cSeqS (fs : RegIx) (ft : RegIx)
  /-- C.NGL.S (R193). -/
  | cNglS (fs : RegIx) (ft : RegIx)
  /-- C.LT.S (R194). -/
  | cLtS (fs : RegIx) (ft : RegIx)
  /-- C.NGE.S (R195). -/
  | cNgeS (fs : RegIx) (ft : RegIx)
  /-- C.LE.S (R196). -/
  | cLeS (fs : RegIx) (ft : RegIx)
  /-- C.NGT.S (R197). -/
  | cNgtS (fs : RegIx) (ft : RegIx)
  /-- C.F.D (R198). -/
  | cFD (fs : RegIx) (ft : RegIx)
  /-- C.UN.D (R199). -/
  | cUnD (fs : RegIx) (ft : RegIx)
  /-- C.EQ.D (R200). -/
  | cEqD (fs : RegIx) (ft : RegIx)
  /-- C.UEQ.D (R201). -/
  | cUeqD (fs : RegIx) (ft : RegIx)
  /-- C.OLT.D (R202). -/
  | cOltD (fs : RegIx) (ft : RegIx)
  /-- C.ULT.D (R203). -/
  | cUltD (fs : RegIx) (ft : RegIx)
  /-- C.OLE.D (R204). -/
  | cOleD (fs : RegIx) (ft : RegIx)
  /-- C.ULE.D (R205). -/
  | cUleD (fs : RegIx) (ft : RegIx)
  /-- C.SF.D (R206). -/
  | cSfD (fs : RegIx) (ft : RegIx)
  /-- C.NGLE.D (R207). -/
  | cNgleD (fs : RegIx) (ft : RegIx)
  /-- C.SEQ.D (R208). -/
  | cSeqD (fs : RegIx) (ft : RegIx)
  /-- C.NGL.D (R209). -/
  | cNglD (fs : RegIx) (ft : RegIx)
  /-- C.LT.D (R210). -/
  | cLtD (fs : RegIx) (ft : RegIx)
  /-- C.NGE.D (R211). -/
  | cNgeD (fs : RegIx) (ft : RegIx)
  /-- C.LE.D (R212). -/
  | cLeD (fs : RegIx) (ft : RegIx)
  /-- C.NGT.D (R213). -/
  | cNgtD (fs : RegIx) (ft : RegIx)
  -- CPU-side COP1 words (44_transfers.md)
  /-- MFC1 (R228). -/
  | mfc1 (rt : RegIx) (fs : RegIx)
  /-- DMFC1 (R229). -/
  | dmfc1 (rt : RegIx) (fs : RegIx)
  /-- CFC1 (R230). -/
  | cfc1 (rt : RegIx) (fs : RegIx)
  /-- MTC1 (R231). -/
  | mtc1 (rt : RegIx) (fs : RegIx)
  /-- DMTC1 (R232). -/
  | dmtc1 (rt : RegIx) (fs : RegIx)
  /-- CTC1 (R233). -/
  | ctc1 (rt : RegIx) (fs : RegIx)
  /-- LWC1 (R234). -/
  | lwc1 (ft : RegIx) (offset : BitVec 16) (base : RegIx)
  /-- LDC1 (R235). -/
  | ldc1 (ft : RegIx) (offset : BitVec 16) (base : RegIx)
  /-- SWC1 (R236). -/
  | swc1 (ft : RegIx) (offset : BitVec 16) (base : RegIx)
  /-- SDC1 (R237). -/
  | sdc1 (ft : RegIx) (offset : BitVec 16) (base : RegIx)
  /-- BC1F (R238). -/
  | bc1f (offset : BitVec 16)
  /-- BC1T (R239). -/
  | bc1t (offset : BitVec 16)
  /-- BC1FL (R240). -/
  | bc1fl (offset : BitVec 16)
  /-- BC1TL (R241). -/
  | bc1tl (offset : BitVec 16)
  deriving DecidableEq, Repr

end Sys2Proof
end

