-- ==== Sys2Proof/WellFormed.lean ====
section
/-! DEFINITION. Which instructions are well formed. Register indices and immediates are bounded by their types (R67);
what remains is the control-register number of CFC1 and CTC1, which must name a control register the block has
(R224, R225, R230, D30): the block refuses every other number. -/

namespace Sys2Proof

/-- The control-register numbers the block has: 0 (FCR0) and 31 (FCR31) (R224). -/
def isControlReg (n : RegIx) : Bool := n == 0 || n == 31

/-- A control transfer names FCR0 or FCR31; every other instruction is well formed as it stands. -/
def Instr.wf : Instr → Bool
  | .cfc1 _ fs => isControlReg fs
  | .ctc1 _ fs => isControlReg fs
  | .addS _ _ _ | .addD _ _ _ | .subS _ _ _ | .subD _ _ _ | .mulS _ _ _ | .mulD _ _ _
  | .divS _ _ _ | .divD _ _ _ | .sqrtS _ _ | .sqrtD _ _ | .absS _ _ | .absD _ _
  | .negS _ _ | .negD _ _ | .movS _ _ | .movD _ _ | .cvtSD _ _ | .cvtDS _ _
  | .cvtSW _ _ | .cvtSL _ _ | .cvtDW _ _ | .cvtDL _ _ | .roundWS _ _ | .truncWS _ _
  | .ceilWS _ _ | .floorWS _ _ | .cvtWS _ _ | .roundLS _ _ | .truncLS _ _ | .ceilLS _ _
  | .floorLS _ _ | .cvtLS _ _ | .roundWD _ _ | .truncWD _ _ | .ceilWD _ _ | .floorWD _ _
  | .cvtWD _ _ | .roundLD _ _ | .truncLD _ _ | .ceilLD _ _ | .floorLD _ _ | .cvtLD _ _
  | .cFS _ _ | .cUnS _ _ | .cEqS _ _ | .cUeqS _ _ | .cOltS _ _ | .cUltS _ _
  | .cOleS _ _ | .cUleS _ _ | .cSfS _ _ | .cNgleS _ _ | .cSeqS _ _ | .cNglS _ _
  | .cLtS _ _ | .cNgeS _ _ | .cLeS _ _ | .cNgtS _ _ | .cFD _ _ | .cUnD _ _
  | .cEqD _ _ | .cUeqD _ _ | .cOltD _ _ | .cUltD _ _ | .cOleD _ _ | .cUleD _ _
  | .cSfD _ _ | .cNgleD _ _ | .cSeqD _ _ | .cNglD _ _ | .cLtD _ _ | .cNgeD _ _
  | .cLeD _ _ | .cNgtD _ _ | .mfc1 _ _ | .dmfc1 _ _ | .mtc1 _ _ | .dmtc1 _ _
  | .lwc1 _ _ _ | .ldc1 _ _ _ | .swc1 _ _ _ | .sdc1 _ _ _ | .bc1f _ | .bc1t _
  | .bc1fl _ | .bc1tl _ => true

/-- The check as a proposition; decidable because it is an equation of Bools. -/
abbrev WellFormed (i : Instr) : Prop := i.wf = true

end Sys2Proof
end

