-- ==== Sys2Proof/Decode.lean ====
section
/-! DEFINITION. The command-word decoder (R62 to R72, R74), total on every 32-bit word and rejecting by name, and the
encoder written from the same tables. A word is a 32-bit number: the block has no byte order (R52). -/

namespace Sys2Proof

/-- Why a word names no instruction (R72). -/
inductive Reject where
  /-- The op field is none of the COP1 space's (R72 `NotCop1`, R74). -/
  | notCop1
  /-- A COP1 word with a reserved rs or fmt value, a reserved fmt and funct pair, or a nonzero must-be-zero field (R68, R69). -/
  | reserved
  deriving DecidableEq, Repr

/-- The field of `len` bits at bit `lo` of a command word, as an unsigned number (R13). -/
def field (w : Word) (lo len : Nat) : Nat := w.toNat / 2 ^ lo % 2 ^ len

/-- The five-bit register field at bit `lo` (R62, R67). -/
def regField (w : Word) (lo : Nat) : RegIx := ⟨w.toNat / 2 ^ lo % 32, Nat.mod_lt _ (by decide)⟩

/-- The 16-bit immediate in bits 15:0 (R74). -/
def offsetField (w : Word) : BitVec 16 := BitVec.ofNat 16 w.toNat

/-- A one-source operation has ft = 0; any other word of it is reserved (R68). -/
def oneSource (ft : RegIx) (i : Instr) : Except Reject Instr :=
  if ft = 0 then .ok i else .error .reserved

/-- A comparison has fd = 0; any other word of it is reserved (R68). -/
def comparison (fd : RegIx) (i : Instr) : Except Reject Instr :=
  if fd = 0 then .ok i else .error .reserved

/-- A register-transfer word has bits 10:0 zero (R74); any other word of it has a reserved fmt (R69, R72). -/
def transfer (low : Nat) (i : Instr) : Except Reject Instr :=
  if low = 0 then .ok i else .error .reserved

/-- The fmt S (16) column of R64. -/
def decodeFmtS (ft fs fd : RegIx) (funct : Nat) : Except Reject Instr :=
  match funct with
  | 0 => .ok (.addS fd fs ft)
  | 1 => .ok (.subS fd fs ft)
  | 2 => .ok (.mulS fd fs ft)
  | 3 => .ok (.divS fd fs ft)
  | 4 => oneSource ft (.sqrtS fd fs)
  | 5 => oneSource ft (.absS fd fs)
  | 6 => oneSource ft (.movS fd fs)
  | 7 => oneSource ft (.negS fd fs)
  | 8 => oneSource ft (.roundLS fd fs)
  | 9 => oneSource ft (.truncLS fd fs)
  | 10 => oneSource ft (.ceilLS fd fs)
  | 11 => oneSource ft (.floorLS fd fs)
  | 12 => oneSource ft (.roundWS fd fs)
  | 13 => oneSource ft (.truncWS fd fs)
  | 14 => oneSource ft (.ceilWS fd fs)
  | 15 => oneSource ft (.floorWS fd fs)
  | 33 => oneSource ft (.cvtDS fd fs)
  | 36 => oneSource ft (.cvtWS fd fs)
  | 37 => oneSource ft (.cvtLS fd fs)
  | 48 => comparison fd (.cFS fs ft)
  | 49 => comparison fd (.cUnS fs ft)
  | 50 => comparison fd (.cEqS fs ft)
  | 51 => comparison fd (.cUeqS fs ft)
  | 52 => comparison fd (.cOltS fs ft)
  | 53 => comparison fd (.cUltS fs ft)
  | 54 => comparison fd (.cOleS fs ft)
  | 55 => comparison fd (.cUleS fs ft)
  | 56 => comparison fd (.cSfS fs ft)
  | 57 => comparison fd (.cNgleS fs ft)
  | 58 => comparison fd (.cSeqS fs ft)
  | 59 => comparison fd (.cNglS fs ft)
  | 60 => comparison fd (.cLtS fs ft)
  | 61 => comparison fd (.cNgeS fs ft)
  | 62 => comparison fd (.cLeS fs ft)
  | 63 => comparison fd (.cNgtS fs ft)
  | _ => .error .reserved

/-- The fmt D (17) column of R64. -/
def decodeFmtD (ft fs fd : RegIx) (funct : Nat) : Except Reject Instr :=
  match funct with
  | 0 => .ok (.addD fd fs ft)
  | 1 => .ok (.subD fd fs ft)
  | 2 => .ok (.mulD fd fs ft)
  | 3 => .ok (.divD fd fs ft)
  | 4 => oneSource ft (.sqrtD fd fs)
  | 5 => oneSource ft (.absD fd fs)
  | 6 => oneSource ft (.movD fd fs)
  | 7 => oneSource ft (.negD fd fs)
  | 8 => oneSource ft (.roundLD fd fs)
  | 9 => oneSource ft (.truncLD fd fs)
  | 10 => oneSource ft (.ceilLD fd fs)
  | 11 => oneSource ft (.floorLD fd fs)
  | 12 => oneSource ft (.roundWD fd fs)
  | 13 => oneSource ft (.truncWD fd fs)
  | 14 => oneSource ft (.ceilWD fd fs)
  | 15 => oneSource ft (.floorWD fd fs)
  | 32 => oneSource ft (.cvtSD fd fs)
  | 36 => oneSource ft (.cvtWD fd fs)
  | 37 => oneSource ft (.cvtLD fd fs)
  | 48 => comparison fd (.cFD fs ft)
  | 49 => comparison fd (.cUnD fs ft)
  | 50 => comparison fd (.cEqD fs ft)
  | 51 => comparison fd (.cUeqD fs ft)
  | 52 => comparison fd (.cOltD fs ft)
  | 53 => comparison fd (.cUltD fs ft)
  | 54 => comparison fd (.cOleD fs ft)
  | 55 => comparison fd (.cUleD fs ft)
  | 56 => comparison fd (.cSfD fs ft)
  | 57 => comparison fd (.cNgleD fs ft)
  | 58 => comparison fd (.cSeqD fs ft)
  | 59 => comparison fd (.cNglD fs ft)
  | 60 => comparison fd (.cLtD fs ft)
  | 61 => comparison fd (.cNgeD fs ft)
  | 62 => comparison fd (.cLeD fs ft)
  | 63 => comparison fd (.cNgtD fs ft)
  | _ => .error .reserved

/-- The fmt W (20) column of R64. -/
def decodeFmtW (ft fs fd : RegIx) (funct : Nat) : Except Reject Instr :=
  match funct with
  | 32 => oneSource ft (.cvtSW fd fs)
  | 33 => oneSource ft (.cvtDW fd fs)
  | _ => .error .reserved

/-- The fmt L (21) column of R64. -/
def decodeFmtL (ft fs fd : RegIx) (funct : Nat) : Except Reject Instr :=
  match funct with
  | 32 => oneSource ft (.cvtSL fd fs)
  | 33 => oneSource ft (.cvtDL fd fs)
  | _ => .error .reserved

/-- The branch words of R74: bits 20:16 select the condition and the likely form. -/
def decodeBranch (sel : Nat) (offset : BitVec 16) : Except Reject Instr :=
  match sel with
  | 0 => .ok (.bc1f offset)
  | 1 => .ok (.bc1t offset)
  | 2 => .ok (.bc1fl offset)
  | 3 => .ok (.bc1tl offset)
  | _ => .error .reserved

/-- The words of op 0x11 by bits 25:21: first the CPU-side words of R74, then the FR formats of R63 (R72). -/
def decodeCop1 (w : Word) : Except Reject Instr :=
  match field w 21 5 with
  | 0 => transfer (field w 0 11) (.mfc1 (regField w 16) (regField w 11))
  | 1 => transfer (field w 0 11) (.dmfc1 (regField w 16) (regField w 11))
  | 2 => transfer (field w 0 11) (.cfc1 (regField w 16) (regField w 11))
  | 4 => transfer (field w 0 11) (.mtc1 (regField w 16) (regField w 11))
  | 5 => transfer (field w 0 11) (.dmtc1 (regField w 16) (regField w 11))
  | 6 => transfer (field w 0 11) (.ctc1 (regField w 16) (regField w 11))
  | 8 => decodeBranch (field w 16 5) (offsetField w)
  | 16 => decodeFmtS (regField w 16) (regField w 11) (regField w 6) (field w 0 6)
  | 17 => decodeFmtD (regField w 16) (regField w 11) (regField w 6) (field w 0 6)
  | 20 => decodeFmtW (regField w 16) (regField w 11) (regField w 6) (field w 0 6)
  | 21 => decodeFmtL (regField w 16) (regField w 11) (regField w 6) (field w 0 6)
  | _ => .error .reserved

/-- Decoding: a total function from a 32-bit word to an instruction or a refusal (R72, R74). -/
def decode (w : Word) : Except Reject Instr :=
  match field w 26 6 with
  | 0x11 => decodeCop1 w
  | 0x31 => .ok (.lwc1 (regField w 16) (offsetField w) (regField w 21))
  | 0x35 => .ok (.ldc1 (regField w 16) (offsetField w) (regField w 21))
  | 0x39 => .ok (.swc1 (regField w 16) (offsetField w) (regField w 21))
  | 0x3D => .ok (.sdc1 (regField w 16) (offsetField w) (regField w 21))
  | _ => .error .notCop1

/-- The FR word `0x44000000 | fmt<<21 | ft<<16 | fs<<11 | fd<<6 | funct` (R62), as a sum of disjoint fields. -/
def encodeFR (fmt : Nat) (ft fs fd : RegIx) (funct : Nat) : Word :=
  BitVec.ofNat 32 (0x44000000 + fmt * 2 ^ 21 + ft.val * 2 ^ 16 + fs.val * 2 ^ 11 + fd.val * 2 ^ 6 + funct)

/-- The register-transfer word `0x44000000 | rs<<21 | rt<<16 | fs<<11` (R74). -/
def encodeMV (rs : Nat) (rt fs : RegIx) : Word :=
  BitVec.ofNat 32 (0x44000000 + rs * 2 ^ 21 + rt.val * 2 ^ 16 + fs.val * 2 ^ 11)

/-- The load and store word `op<<26 | base<<21 | ft<<16 | offset16` (R74). -/
def encodeMem (op : Nat) (base ft : RegIx) (offset : BitVec 16) : Word :=
  BitVec.ofNat 32 (op * 2 ^ 26 + base.val * 2 ^ 21 + ft.val * 2 ^ 16 + offset.toNat)

/-- The branch word `0x45000000 | sel<<16 | offset16` (R74). -/
def encodeBC (sel : Nat) (offset : BitVec 16) : Word :=
  BitVec.ofNat 32 (0x45000000 + sel * 2 ^ 16 + offset.toNat)

/-- The command word of an instruction (R62 to R66, R68, R74). -/
def encode : Instr → Word
  | .addS fd fs ft => encodeFR 16 ft fs fd 0
  | .addD fd fs ft => encodeFR 17 ft fs fd 0
  | .subS fd fs ft => encodeFR 16 ft fs fd 1
  | .subD fd fs ft => encodeFR 17 ft fs fd 1
  | .mulS fd fs ft => encodeFR 16 ft fs fd 2
  | .mulD fd fs ft => encodeFR 17 ft fs fd 2
  | .divS fd fs ft => encodeFR 16 ft fs fd 3
  | .divD fd fs ft => encodeFR 17 ft fs fd 3
  | .sqrtS fd fs => encodeFR 16 0 fs fd 4
  | .sqrtD fd fs => encodeFR 17 0 fs fd 4
  | .absS fd fs => encodeFR 16 0 fs fd 5
  | .absD fd fs => encodeFR 17 0 fs fd 5
  | .negS fd fs => encodeFR 16 0 fs fd 7
  | .negD fd fs => encodeFR 17 0 fs fd 7
  | .movS fd fs => encodeFR 16 0 fs fd 6
  | .movD fd fs => encodeFR 17 0 fs fd 6
  | .cvtSD fd fs => encodeFR 17 0 fs fd 32
  | .cvtDS fd fs => encodeFR 16 0 fs fd 33
  | .cvtSW fd fs => encodeFR 20 0 fs fd 32
  | .cvtSL fd fs => encodeFR 21 0 fs fd 32
  | .cvtDW fd fs => encodeFR 20 0 fs fd 33
  | .cvtDL fd fs => encodeFR 21 0 fs fd 33
  | .roundWS fd fs => encodeFR 16 0 fs fd 12
  | .truncWS fd fs => encodeFR 16 0 fs fd 13
  | .ceilWS fd fs => encodeFR 16 0 fs fd 14
  | .floorWS fd fs => encodeFR 16 0 fs fd 15
  | .cvtWS fd fs => encodeFR 16 0 fs fd 36
  | .roundLS fd fs => encodeFR 16 0 fs fd 8
  | .truncLS fd fs => encodeFR 16 0 fs fd 9
  | .ceilLS fd fs => encodeFR 16 0 fs fd 10
  | .floorLS fd fs => encodeFR 16 0 fs fd 11
  | .cvtLS fd fs => encodeFR 16 0 fs fd 37
  | .roundWD fd fs => encodeFR 17 0 fs fd 12
  | .truncWD fd fs => encodeFR 17 0 fs fd 13
  | .ceilWD fd fs => encodeFR 17 0 fs fd 14
  | .floorWD fd fs => encodeFR 17 0 fs fd 15
  | .cvtWD fd fs => encodeFR 17 0 fs fd 36
  | .roundLD fd fs => encodeFR 17 0 fs fd 8
  | .truncLD fd fs => encodeFR 17 0 fs fd 9
  | .ceilLD fd fs => encodeFR 17 0 fs fd 10
  | .floorLD fd fs => encodeFR 17 0 fs fd 11
  | .cvtLD fd fs => encodeFR 17 0 fs fd 37
  | .cFS fs ft => encodeFR 16 ft fs 0 48
  | .cUnS fs ft => encodeFR 16 ft fs 0 49
  | .cEqS fs ft => encodeFR 16 ft fs 0 50
  | .cUeqS fs ft => encodeFR 16 ft fs 0 51
  | .cOltS fs ft => encodeFR 16 ft fs 0 52
  | .cUltS fs ft => encodeFR 16 ft fs 0 53
  | .cOleS fs ft => encodeFR 16 ft fs 0 54
  | .cUleS fs ft => encodeFR 16 ft fs 0 55
  | .cSfS fs ft => encodeFR 16 ft fs 0 56
  | .cNgleS fs ft => encodeFR 16 ft fs 0 57
  | .cSeqS fs ft => encodeFR 16 ft fs 0 58
  | .cNglS fs ft => encodeFR 16 ft fs 0 59
  | .cLtS fs ft => encodeFR 16 ft fs 0 60
  | .cNgeS fs ft => encodeFR 16 ft fs 0 61
  | .cLeS fs ft => encodeFR 16 ft fs 0 62
  | .cNgtS fs ft => encodeFR 16 ft fs 0 63
  | .cFD fs ft => encodeFR 17 ft fs 0 48
  | .cUnD fs ft => encodeFR 17 ft fs 0 49
  | .cEqD fs ft => encodeFR 17 ft fs 0 50
  | .cUeqD fs ft => encodeFR 17 ft fs 0 51
  | .cOltD fs ft => encodeFR 17 ft fs 0 52
  | .cUltD fs ft => encodeFR 17 ft fs 0 53
  | .cOleD fs ft => encodeFR 17 ft fs 0 54
  | .cUleD fs ft => encodeFR 17 ft fs 0 55
  | .cSfD fs ft => encodeFR 17 ft fs 0 56
  | .cNgleD fs ft => encodeFR 17 ft fs 0 57
  | .cSeqD fs ft => encodeFR 17 ft fs 0 58
  | .cNglD fs ft => encodeFR 17 ft fs 0 59
  | .cLtD fs ft => encodeFR 17 ft fs 0 60
  | .cNgeD fs ft => encodeFR 17 ft fs 0 61
  | .cLeD fs ft => encodeFR 17 ft fs 0 62
  | .cNgtD fs ft => encodeFR 17 ft fs 0 63
  | .mfc1 rt fs => encodeMV 0 rt fs
  | .dmfc1 rt fs => encodeMV 1 rt fs
  | .cfc1 rt fs => encodeMV 2 rt fs
  | .mtc1 rt fs => encodeMV 4 rt fs
  | .dmtc1 rt fs => encodeMV 5 rt fs
  | .ctc1 rt fs => encodeMV 6 rt fs
  | .lwc1 ft offset base => encodeMem 0x31 base ft offset
  | .ldc1 ft offset base => encodeMem 0x35 base ft offset
  | .swc1 ft offset base => encodeMem 0x39 base ft offset
  | .sdc1 ft offset base => encodeMem 0x3D base ft offset
  | .bc1f offset => encodeBC 0 offset
  | .bc1t offset => encodeBC 1 offset
  | .bc1fl offset => encodeBC 2 offset
  | .bc1tl offset => encodeBC 3 offset

/-- The instruction the decoder reads from a word of the opcode table: the low `nbits` bits of `w`, every higher bit
zero. The block receives the word as one 32-bit number (R52, R72; log entry 17). -/
def decodeTableWord (nbits w : Nat) : Option Instr :=
  match decode (BitVec.ofNat 32 (w % 2 ^ nbits)) with
  | .ok i => some i
  | .error _ => none

end Sys2Proof
end

