-- ==== Sys2Proof/Machine/Numeric.lean ====
section
/-! DEFINITION. The numbers of the block: the value a pattern denotes (`val32`, `val64`), the roundings `rne32` and
`rne64`, the exact operations the host arithmetic rounds, and the integer roundings of the four ConversionModes
(R15, R30, R102, R145). A finite value is kept exactly, as sign, significand and power of two; nothing here is
approximate before it is rounded. -/

namespace Sys2Proof.Machine

/-- The value of a pattern (R15): a signed dyadic rational `± m · 2^e` with the sign of zero kept, or a signed
infinity. NaN patterns have no value; `nan` stands for that. -/
inductive Value where
  | fin (neg : Bool) (m : Nat) (e : Int)
  | inf (neg : Bool)
  | nan
  deriving DecidableEq, Repr

/-! ### Rounding to a binary format (R15) -/

/-- The infinity magnitude pattern of a format: exponent all ones, mantissa zero (R80, R81). -/
def infMag (w : Width) : Nat := (2 ^ w.expBits - 1) * 2 ^ w.fracBits

/-- The pattern of a sign and a magnitude pattern. -/
def signed (w : Width) (neg : Bool) (mag : Nat) : Pattern w :=
  BitVec.ofNat w.bits ((if neg then 2 ^ (w.expBits + w.fracBits) else 0) + mag)

/-- The integer nearest `num / den`, ties to the even one (R15, R145). -/
def rneQuot (num den : Nat) : Nat :=
  let q := num / den
  let r := num % den
  if 2 * r < den then q
  else if den < 2 * r then q + 1
  else q + q % 2

/-- `num / den · 2^k` rounded to the nearest integer, ties to even. -/
def rneScaled (num den : Nat) (k : Int) : Nat :=
  if 0 ≤ k then rneQuot (num * 2 ^ k.toNat) den else rneQuot num (den * 2 ^ (-k).toNat)

/-- Whether `2^l ≤ num / den`. -/
def powLe (l : Int) (num den : Nat) : Bool :=
  if 0 ≤ l then decide (den * 2 ^ l.toNat ≤ num) else decide (den ≤ num * 2 ^ (-l).toNat)

/-- The exponent of the leading bit of `num / den`: the `l` with `2^l ≤ num / den < 2^(l+1)`, for positive
arguments. -/
def floorLog (num den : Nat) : Int :=
  let l : Int := (num.log2 : Int) - (den.log2 : Int)
  if powLe l num den then l else l - 1

/-- The exponent of the unit in the last place with which `num / den · 2^e` is rounded: the format's significand
width below the leading bit, but never below the least subnormal (gradual underflow, R15). -/
def ulpExp (w : Width) (num den : Nat) (e : Int) : Int :=
  if floorLog num den + e - w.fracBits < w.minExp then w.minExp else floorLog num den + e - w.fracBits

/-- The magnitude pattern of `num / den · 2^e` by roundTiesToEven (R15): the significand rounded at the unit
`2^E`, laid on the exponent field so that a carry out of the significand moves to the next exponent, and every
magnitude that reaches the infinity pattern becomes infinite. -/
def roundMag (w : Width) (num den : Nat) (e : Int) : Nat :=
  if num = 0 then 0
  else
    let E := ulpExp w num den e
    let mag := (E - w.minExp).toNat * 2 ^ w.fracBits + rneScaled num den (e - E)
    if infMag w ≤ mag then infMag w else mag

/-- `rne_w` of the real `± num / den · 2^e`, as a pattern. -/
def roundReal (w : Width) (neg : Bool) (num den : Nat) (e : Int) : Pattern w :=
  signed w neg (roundMag w num den e)

/-- The quiet NaN the host arithmetic would leave. No operation of the block stores it: "No case of the tables
reaches `Native` with a NaN result" (R102). DESIGN CHOICE, log entry 10. -/
def hostNaN (w : Width) : Pattern w := signed w false (infMag w + 2 ^ (w.fracBits - 1))

/-- `bits_w(rne_w(v))` of a value (R15). -/
def round (w : Width) : Value → Pattern w
  | .fin neg m e => roundReal w neg m 1 e
  | .inf neg => signed w neg (infMag w)
  | .nan => hostNaN w

/-! ### The value of a pattern (R15, R80, R81) -/

/-- The sign bit. -/
def signBit {w : Width} (b : Pattern w) : Bool := b.toNat / 2 ^ (w.expBits + w.fracBits) % 2 == 1

/-- The exponent field. -/
def expField {w : Width} (b : Pattern w) : Nat := b.toNat / 2 ^ w.fracBits % 2 ^ w.expBits

/-- The mantissa field. -/
def fracField {w : Width} (b : Pattern w) : Nat := b.toNat % 2 ^ w.fracBits

/-- `val_w(b)` (R15). -/
def val {w : Width} (b : Pattern w) : Value :=
  if expField b = 2 ^ w.expBits - 1 then
    if fracField b = 0 then .inf (signBit b) else .nan
  else if expField b = 0 then .fin (signBit b) (fracField b) w.minExp
  else .fin (signBit b) (2 ^ w.fracBits + fracField b) ((expField b : Int) - 1 + w.minExp)

/-! ### Exact arithmetic and its host rounding (R102) -/

/-- `± m` as an integer. -/
def signedInt (neg : Bool) (m : Nat) : Int := if neg then -(m : Int) else (m : Int)

/-- The significand of `± m · 2^e` at the lower exponent `k`. -/
def atExp (neg : Bool) (m : Nat) (e k : Int) : Int := signedInt neg (m * 2 ^ (e - k).toNat)

/-- The numeric relation `x = y`; zeros of both signs are equal, and NaN equals nothing (R180). -/
def Value.numEq : Value → Value → Bool
  | .fin n1 m1 e1, .fin n2 m2 e2 => atExp n1 m1 e1 (min e1 e2) == atExp n2 m2 e2 (min e1 e2)
  | .inf n1, .inf n2 => n1 == n2
  | .fin _ _ _, .inf _ => false
  | .inf _, .fin _ _ _ => false
  | .nan, _ => false
  | _, .nan => false

/-- The numeric relation `x < y`, with −∞ below and +∞ above every finite value (R180). -/
def Value.numLt : Value → Value → Bool
  | .fin n1 m1 e1, .fin n2 m2 e2 => decide (atExp n1 m1 e1 (min e1 e2) < atExp n2 m2 e2 (min e1 e2))
  | .inf n1, .inf n2 => n1 && !n2
  | .fin _ _ _, .inf n2 => !n2
  | .inf n1, .fin _ _ _ => n1
  | .nan, _ => false
  | _, .nan => false

/-- `-x`. -/
def Value.neg : Value → Value
  | .fin n m e => .fin (!n) m e
  | .inf n => .inf (!n)
  | .nan => .nan

/-- `|x|`. -/
def Value.abs : Value → Value
  | .fin _ m e => .fin false m e
  | .inf _ => .inf false
  | .nan => .nan

/-- The exact sum, with the IEEE zero signs: an exact zero sum is +0 unless both operands are negative (R102). -/
def Value.add : Value → Value → Value
  | .fin n1 m1 e1, .fin n2 m2 e2 =>
    let k := min e1 e2
    let z := atExp n1 m1 e1 k + atExp n2 m2 e2 k
    if z = 0 then .fin (n1 && n2) 0 k else .fin (decide (z < 0)) z.natAbs k
  | .inf n1, .inf n2 => if n1 = n2 then .inf n1 else .nan
  | .fin _ _ _, .inf n2 => .inf n2
  | .inf n1, .fin _ _ _ => .inf n1
  | .nan, _ => .nan
  | _, .nan => .nan

/-- The exact difference. -/
def Value.sub (x y : Value) : Value := x.add y.neg

/-- The exact product; its sign is the XOR of the operand signs (R102). -/
def Value.mul : Value → Value → Value
  | .fin n1 m1 e1, .fin n2 m2 e2 => .fin (n1 ^^ n2) (m1 * m2) (e1 + e2)
  | .inf n1, .inf n2 => .inf (n1 ^^ n2)
  | .fin n1 m1 _, .inf n2 => if m1 = 0 then .nan else .inf (n1 ^^ n2)
  | .inf n1, .fin n2 m2 _ => if m2 = 0 then .nan else .inf (n1 ^^ n2)
  | .nan, _ => .nan
  | _, .nan => .nan

/-- `rne64(x / y)` (R102); the quotient is rounded once, from the exact rational. -/
def divNative : Value → Value → Pattern .w64
  | .fin n1 m1 e1, .fin n2 m2 e2 =>
    if m2 = 0 then (if m1 = 0 then hostNaN .w64 else signed .w64 (n1 ^^ n2) (infMag .w64))
    else roundReal .w64 (n1 ^^ n2) m1 m2 (e1 - e2)
  | .inf _, .inf _ => hostNaN .w64
  | .fin n1 _ _, .inf n2 => signed .w64 (n1 ^^ n2) 0
  | .inf n1, .fin n2 _ _ => signed .w64 (n1 ^^ n2) (infMag .w64)
  | .nan, _ => hostNaN .w64
  | _, .nan => hostNaN .w64

/-- One bit of the integer square root at a time, from bit `k - 1` down: the greatest extension of `r` by the
lower bits whose square does not exceed `n`. -/
def isqrtLoop (n : Nat) : Nat → Nat → Nat
  | 0, r => r
  | k + 1, r => if (r + 2 ^ k) * (r + 2 ^ k) ≤ n then isqrtLoop n k (r + 2 ^ k) else isqrtLoop n k r

/-- The integer square root: the greatest `r` with `r · r ≤ n`. -/
def isqrt (n : Nat) : Nat := isqrtLoop n (n.log2 / 2 + 1) 0

/-- `rne64(sqrt(x))` (R102), sqrt(−0) = −0. The root of `m · 2^e` is taken of `m · 2^t` with `e - t` even and at
least 60 bits of root; its low bit is made odd when the root is irrational, so that it lies strictly between two
neighbours and rounds as the exact root does (log entry 11). -/
def sqrtNative : Value → Pattern .w64
  | .fin neg m e =>
    if m = 0 then signed .w64 neg 0
    else if neg then hostNaN .w64
    else
      let t : Nat := 120 + (e % 2).toNat
      let n := m * 2 ^ t
      let r := isqrt n
      roundReal .w64 false (2 * r + (if r * r = n then 0 else 1)) 1 ((e - t) / 2 - 1)
  | .inf neg => if neg then hostNaN .w64 else signed .w64 false (infMag .w64)
  | .nan => hostNaN .w64

/-! ### Integers -/

/-- The value of an integer; 0 gives +0. -/
def ofInt (n : Int) : Value := .fin (decide (n < 0)) n.natAbs 0

/-- The four ConversionModes, also the rounding modes (R30). -/
inductive RoundingMode where
  | nearestEven
  | truncate
  | ceiling
  | floor
  deriving DecidableEq, Repr

/-- `Round_mode(± num / den)` (R145). -/
def roundQuot (mode : RoundingMode) (neg : Bool) (num den : Nat) : Int :=
  match mode with
  | .nearestEven => signedInt neg (rneQuot num den)
  | .truncate => signedInt neg (num / den)
  | .ceiling => if neg then -((num / den : Nat) : Int) else (((num + (den - 1)) / den : Nat) : Int)
  | .floor => if neg then -(((num + (den - 1)) / den : Nat) : Int) else ((num / den : Nat) : Int)

/-- `Round_mode(x)` of a finite value (R145). No rule takes it of an infinity or a NaN, which trap first (R144). -/
def roundInt (mode : RoundingMode) : Value → Int
  | .fin neg m e => roundQuot mode neg (m * 2 ^ e.toNat) (2 ^ (-e).toNat)
  | .inf _ => 0
  | .nan => 0

/-- `|x| >= 2^k` (R146). -/
def Value.magGe (k : Nat) : Value → Bool
  | .fin _ m e => decide (2 ^ k * 2 ^ (-e).toNat ≤ m * 2 ^ e.toNat)
  | .inf _ => true
  | .nan => false

end Sys2Proof.Machine
end

