-- ==== Sys2Proof/Machine/Classify.lean ====
section
/-! DEFINITION. The value classifier and the operation-case tables (spec 40_classify_cases.md). The tables are written
row by row as the spec prints them, with no wildcard (R93). -/

namespace Sys2Proof.Machine

/-- FloatClass: the eight classes (R17). -/
inductive FloatClass where
  | normal
  | posZero
  | negZero
  | posInfinity
  | negInfinity
  | quietNaN
  | signalingNaN
  | denormal
  deriving DecidableEq, Repr

/-- "any Zero" (R17). -/
def FloatClass.isZero (c : FloatClass) : Bool := c == .posZero || c == .negZero

/-- Infinity of either sign (R17). -/
def FloatClass.isInfinity (c : FloatClass) : Bool := c == .posInfinity || c == .negInfinity

/-- "NaN (either kind)" (R17). -/
def FloatClass.isNaN (c : FloatClass) : Bool := c == .quietNaN || c == .signalingNaN

/-- `classify32` and `classify64` (R80, R81): the same function of the sign, exponent and mantissa fields at the two
widths. The quiet bit is the top mantissa bit. -/
def classify {w : Width} (b : Pattern w) : FloatClass :=
  if expField b = 2 ^ w.expBits - 1 then
    if fracField b = 0 then (if signBit b then .negInfinity else .posInfinity)
    else if fracField b / 2 ^ (w.fracBits - 1) = 1 then .quietNaN
    else .signalingNaN
  else if expField b = 0 then
    if fracField b = 0 then (if signBit b then .negZero else .posZero)
    else .denormal
  else .normal

/-- OperationCase (R84). -/
inductive OperationCase where
  | invalid
  | unimplemented
  | divideByZero
  | add
  | sub
  | mul
  | div
  | sqrt
  | abs
  | neg
  deriving DecidableEq, Repr

/-- The Sqrt table (R86). -/
def sqrtTable : FloatClass → OperationCase
  | .normal => .sqrt
  | .posZero => .sqrt
  | .negZero => .sqrt
  | .posInfinity => .sqrt
  | .negInfinity => .invalid
  | .quietNaN => .invalid
  | .signalingNaN => .unimplemented
  | .denormal => .unimplemented

/-- The Abs table (R87). -/
def absTable : FloatClass → OperationCase
  | .normal => .abs
  | .posZero => .abs
  | .negZero => .abs
  | .posInfinity => .abs
  | .negInfinity => .abs
  | .quietNaN => .invalid
  | .signalingNaN => .unimplemented
  | .denormal => .unimplemented

/-- The Neg table (R88). -/
def negTable : FloatClass → OperationCase
  | .normal => .neg
  | .posZero => .neg
  | .negZero => .neg
  | .posInfinity => .neg
  | .negInfinity => .neg
  | .quietNaN => .invalid
  | .signalingNaN => .unimplemented
  | .denormal => .unimplemented

/-- The Add table (R89): rows are the class of S, columns the class of T. -/
def addTable : FloatClass → FloatClass → OperationCase
  -- normal
  | .normal, .normal => .add
  | .normal, .posZero => .add
  | .normal, .negZero => .add
  | .normal, .posInfinity => .add
  | .normal, .negInfinity => .add
  | .normal, .quietNaN => .invalid
  | .normal, .signalingNaN => .unimplemented
  | .normal, .denormal => .unimplemented
  -- posZero
  | .posZero, .normal => .add
  | .posZero, .posZero => .add
  | .posZero, .negZero => .add
  | .posZero, .posInfinity => .add
  | .posZero, .negInfinity => .add
  | .posZero, .quietNaN => .invalid
  | .posZero, .signalingNaN => .unimplemented
  | .posZero, .denormal => .unimplemented
  -- negZero
  | .negZero, .normal => .add
  | .negZero, .posZero => .add
  | .negZero, .negZero => .add
  | .negZero, .posInfinity => .add
  | .negZero, .negInfinity => .add
  | .negZero, .quietNaN => .invalid
  | .negZero, .signalingNaN => .unimplemented
  | .negZero, .denormal => .unimplemented
  -- posInfinity
  | .posInfinity, .normal => .add
  | .posInfinity, .posZero => .add
  | .posInfinity, .negZero => .add
  | .posInfinity, .posInfinity => .add
  | .posInfinity, .negInfinity => .invalid
  | .posInfinity, .quietNaN => .invalid
  | .posInfinity, .signalingNaN => .unimplemented
  | .posInfinity, .denormal => .unimplemented
  -- negInfinity
  | .negInfinity, .normal => .add
  | .negInfinity, .posZero => .add
  | .negInfinity, .negZero => .add
  | .negInfinity, .posInfinity => .invalid
  | .negInfinity, .negInfinity => .add
  | .negInfinity, .quietNaN => .invalid
  | .negInfinity, .signalingNaN => .unimplemented
  | .negInfinity, .denormal => .unimplemented
  -- quietNaN
  | .quietNaN, .normal => .invalid
  | .quietNaN, .posZero => .invalid
  | .quietNaN, .negZero => .invalid
  | .quietNaN, .posInfinity => .invalid
  | .quietNaN, .negInfinity => .invalid
  | .quietNaN, .quietNaN => .invalid
  | .quietNaN, .signalingNaN => .unimplemented
  | .quietNaN, .denormal => .unimplemented
  -- signalingNaN
  | .signalingNaN, .normal => .unimplemented
  | .signalingNaN, .posZero => .unimplemented
  | .signalingNaN, .negZero => .unimplemented
  | .signalingNaN, .posInfinity => .unimplemented
  | .signalingNaN, .negInfinity => .unimplemented
  | .signalingNaN, .quietNaN => .unimplemented
  | .signalingNaN, .signalingNaN => .unimplemented
  | .signalingNaN, .denormal => .unimplemented
  -- denormal
  | .denormal, .normal => .unimplemented
  | .denormal, .posZero => .unimplemented
  | .denormal, .negZero => .unimplemented
  | .denormal, .posInfinity => .unimplemented
  | .denormal, .negInfinity => .unimplemented
  | .denormal, .quietNaN => .unimplemented
  | .denormal, .signalingNaN => .unimplemented
  | .denormal, .denormal => .unimplemented

/-- The Sub table (R90): rows are the class of S, columns the class of T. -/
def subTable : FloatClass → FloatClass → OperationCase
  -- normal
  | .normal, .normal => .sub
  | .normal, .posZero => .sub
  | .normal, .negZero => .sub
  | .normal, .posInfinity => .sub
  | .normal, .negInfinity => .sub
  | .normal, .quietNaN => .invalid
  | .normal, .signalingNaN => .unimplemented
  | .normal, .denormal => .unimplemented
  -- posZero
  | .posZero, .normal => .sub
  | .posZero, .posZero => .sub
  | .posZero, .negZero => .sub
  | .posZero, .posInfinity => .sub
  | .posZero, .negInfinity => .sub
  | .posZero, .quietNaN => .invalid
  | .posZero, .signalingNaN => .unimplemented
  | .posZero, .denormal => .unimplemented
  -- negZero
  | .negZero, .normal => .sub
  | .negZero, .posZero => .sub
  | .negZero, .negZero => .sub
  | .negZero, .posInfinity => .sub
  | .negZero, .negInfinity => .sub
  | .negZero, .quietNaN => .invalid
  | .negZero, .signalingNaN => .unimplemented
  | .negZero, .denormal => .unimplemented
  -- posInfinity
  | .posInfinity, .normal => .sub
  | .posInfinity, .posZero => .sub
  | .posInfinity, .negZero => .sub
  | .posInfinity, .posInfinity => .invalid
  | .posInfinity, .negInfinity => .sub
  | .posInfinity, .quietNaN => .invalid
  | .posInfinity, .signalingNaN => .unimplemented
  | .posInfinity, .denormal => .unimplemented
  -- negInfinity
  | .negInfinity, .normal => .sub
  | .negInfinity, .posZero => .sub
  | .negInfinity, .negZero => .sub
  | .negInfinity, .posInfinity => .sub
  | .negInfinity, .negInfinity => .invalid
  | .negInfinity, .quietNaN => .invalid
  | .negInfinity, .signalingNaN => .unimplemented
  | .negInfinity, .denormal => .unimplemented
  -- quietNaN
  | .quietNaN, .normal => .invalid
  | .quietNaN, .posZero => .invalid
  | .quietNaN, .negZero => .invalid
  | .quietNaN, .posInfinity => .invalid
  | .quietNaN, .negInfinity => .invalid
  | .quietNaN, .quietNaN => .invalid
  | .quietNaN, .signalingNaN => .unimplemented
  | .quietNaN, .denormal => .unimplemented
  -- signalingNaN
  | .signalingNaN, .normal => .unimplemented
  | .signalingNaN, .posZero => .unimplemented
  | .signalingNaN, .negZero => .unimplemented
  | .signalingNaN, .posInfinity => .unimplemented
  | .signalingNaN, .negInfinity => .unimplemented
  | .signalingNaN, .quietNaN => .unimplemented
  | .signalingNaN, .signalingNaN => .unimplemented
  | .signalingNaN, .denormal => .unimplemented
  -- denormal
  | .denormal, .normal => .unimplemented
  | .denormal, .posZero => .unimplemented
  | .denormal, .negZero => .unimplemented
  | .denormal, .posInfinity => .unimplemented
  | .denormal, .negInfinity => .unimplemented
  | .denormal, .quietNaN => .unimplemented
  | .denormal, .signalingNaN => .unimplemented
  | .denormal, .denormal => .unimplemented

/-- The Mul table (R91): rows are the class of S, columns the class of T. -/
def mulTable : FloatClass → FloatClass → OperationCase
  -- normal
  | .normal, .normal => .mul
  | .normal, .posZero => .mul
  | .normal, .negZero => .mul
  | .normal, .posInfinity => .mul
  | .normal, .negInfinity => .mul
  | .normal, .quietNaN => .invalid
  | .normal, .signalingNaN => .unimplemented
  | .normal, .denormal => .unimplemented
  -- posZero
  | .posZero, .normal => .mul
  | .posZero, .posZero => .mul
  | .posZero, .negZero => .mul
  | .posZero, .posInfinity => .invalid
  | .posZero, .negInfinity => .invalid
  | .posZero, .quietNaN => .invalid
  | .posZero, .signalingNaN => .unimplemented
  | .posZero, .denormal => .unimplemented
  -- negZero
  | .negZero, .normal => .mul
  | .negZero, .posZero => .mul
  | .negZero, .negZero => .mul
  | .negZero, .posInfinity => .invalid
  | .negZero, .negInfinity => .invalid
  | .negZero, .quietNaN => .invalid
  | .negZero, .signalingNaN => .unimplemented
  | .negZero, .denormal => .unimplemented
  -- posInfinity
  | .posInfinity, .normal => .mul
  | .posInfinity, .posZero => .invalid
  | .posInfinity, .negZero => .invalid
  | .posInfinity, .posInfinity => .mul
  | .posInfinity, .negInfinity => .mul
  | .posInfinity, .quietNaN => .invalid
  | .posInfinity, .signalingNaN => .unimplemented
  | .posInfinity, .denormal => .unimplemented
  -- negInfinity
  | .negInfinity, .normal => .mul
  | .negInfinity, .posZero => .invalid
  | .negInfinity, .negZero => .invalid
  | .negInfinity, .posInfinity => .mul
  | .negInfinity, .negInfinity => .mul
  | .negInfinity, .quietNaN => .invalid
  | .negInfinity, .signalingNaN => .unimplemented
  | .negInfinity, .denormal => .unimplemented
  -- quietNaN
  | .quietNaN, .normal => .invalid
  | .quietNaN, .posZero => .invalid
  | .quietNaN, .negZero => .invalid
  | .quietNaN, .posInfinity => .invalid
  | .quietNaN, .negInfinity => .invalid
  | .quietNaN, .quietNaN => .invalid
  | .quietNaN, .signalingNaN => .unimplemented
  | .quietNaN, .denormal => .unimplemented
  -- signalingNaN
  | .signalingNaN, .normal => .unimplemented
  | .signalingNaN, .posZero => .unimplemented
  | .signalingNaN, .negZero => .unimplemented
  | .signalingNaN, .posInfinity => .unimplemented
  | .signalingNaN, .negInfinity => .unimplemented
  | .signalingNaN, .quietNaN => .unimplemented
  | .signalingNaN, .signalingNaN => .unimplemented
  | .signalingNaN, .denormal => .unimplemented
  -- denormal
  | .denormal, .normal => .unimplemented
  | .denormal, .posZero => .unimplemented
  | .denormal, .negZero => .unimplemented
  | .denormal, .posInfinity => .unimplemented
  | .denormal, .negInfinity => .unimplemented
  | .denormal, .quietNaN => .unimplemented
  | .denormal, .signalingNaN => .unimplemented
  | .denormal, .denormal => .unimplemented

/-- The Div table (R92): rows are the class of S, columns the class of T. -/
def divTable : FloatClass → FloatClass → OperationCase
  -- normal
  | .normal, .normal => .div
  | .normal, .posZero => .divideByZero
  | .normal, .negZero => .divideByZero
  | .normal, .posInfinity => .div
  | .normal, .negInfinity => .div
  | .normal, .quietNaN => .invalid
  | .normal, .signalingNaN => .unimplemented
  | .normal, .denormal => .unimplemented
  -- posZero
  | .posZero, .normal => .div
  | .posZero, .posZero => .invalid
  | .posZero, .negZero => .invalid
  | .posZero, .posInfinity => .div
  | .posZero, .negInfinity => .div
  | .posZero, .quietNaN => .invalid
  | .posZero, .signalingNaN => .unimplemented
  | .posZero, .denormal => .unimplemented
  -- negZero
  | .negZero, .normal => .div
  | .negZero, .posZero => .invalid
  | .negZero, .negZero => .invalid
  | .negZero, .posInfinity => .div
  | .negZero, .negInfinity => .div
  | .negZero, .quietNaN => .invalid
  | .negZero, .signalingNaN => .unimplemented
  | .negZero, .denormal => .unimplemented
  -- posInfinity
  | .posInfinity, .normal => .div
  | .posInfinity, .posZero => .divideByZero
  | .posInfinity, .negZero => .divideByZero
  | .posInfinity, .posInfinity => .invalid
  | .posInfinity, .negInfinity => .invalid
  | .posInfinity, .quietNaN => .invalid
  | .posInfinity, .signalingNaN => .unimplemented
  | .posInfinity, .denormal => .unimplemented
  -- negInfinity
  | .negInfinity, .normal => .div
  | .negInfinity, .posZero => .divideByZero
  | .negInfinity, .negZero => .divideByZero
  | .negInfinity, .posInfinity => .invalid
  | .negInfinity, .negInfinity => .invalid
  | .negInfinity, .quietNaN => .invalid
  | .negInfinity, .signalingNaN => .unimplemented
  | .negInfinity, .denormal => .unimplemented
  -- quietNaN
  | .quietNaN, .normal => .invalid
  | .quietNaN, .posZero => .invalid
  | .quietNaN, .negZero => .invalid
  | .quietNaN, .posInfinity => .invalid
  | .quietNaN, .negInfinity => .invalid
  | .quietNaN, .quietNaN => .invalid
  | .quietNaN, .signalingNaN => .unimplemented
  | .quietNaN, .denormal => .unimplemented
  -- signalingNaN
  | .signalingNaN, .normal => .unimplemented
  | .signalingNaN, .posZero => .unimplemented
  | .signalingNaN, .negZero => .unimplemented
  | .signalingNaN, .posInfinity => .unimplemented
  | .signalingNaN, .negInfinity => .unimplemented
  | .signalingNaN, .quietNaN => .unimplemented
  | .signalingNaN, .signalingNaN => .unimplemented
  | .signalingNaN, .denormal => .unimplemented
  -- denormal
  | .denormal, .normal => .unimplemented
  | .denormal, .posZero => .unimplemented
  | .denormal, .negZero => .unimplemented
  | .denormal, .posInfinity => .unimplemented
  | .denormal, .negInfinity => .unimplemented
  | .denormal, .quietNaN => .unimplemented
  | .denormal, .signalingNaN => .unimplemented
  | .denormal, .denormal => .unimplemented

/-- The binary operations and their tables (R84). -/
inductive BinaryOp where
  | add
  | sub
  | mul
  | div
  deriving DecidableEq, Repr

/-- `Table_op` of a binary operation (R95). -/
def BinaryOp.table : BinaryOp → FloatClass → FloatClass → OperationCase
  | .add => addTable
  | .sub => subTable
  | .mul => mulTable
  | .div => divTable

/-- The unary operations that have a table (R84). -/
inductive UnaryOp where
  | sqrt
  | abs
  | neg
  deriving DecidableEq, Repr

/-- `Table_op` of a unary operation (R95). -/
def UnaryOp.table : UnaryOp → FloatClass → OperationCase
  | .sqrt => sqrtTable
  | .abs => absTable
  | .neg => negTable

end Sys2Proof.Machine
end

