-- ==== Sys2Proof/Config.lean ====
section
/-! DEFINITION. What an implementation of the block fixes: the four named parameters of spec R12, each with the
default the spec assumes. The spec has no free value ("no operation draws a free value", R10), so this file
declares no opaque constant. -/

namespace Sys2Proof.Config

/-- `F2I_OUT_OF_RANGE` (R12, R147, D13): what a float-to-integer conversion does when the rounded integer does
not fit the target width. -/
inductive OutOfRange where
  | wrap
  | trap
  deriving DecidableEq, Repr

/-- `RESERVED_ENCODING` (R12, R69, D33): what a reserved command word does. -/
inductive ReservedEncoding where
  | refuse
  | unimplemented
  deriving DecidableEq, Repr

/-- The named parameters the model takes as arguments (R12). -/
structure Params where
  /-- `ADDSUB64_EQ_OPERAND_INEXACT` (R107, D7). -/
  addSub64EqOperandInexact : Bool
  /-- `F2I_OUT_OF_RANGE` (R147, D13). -/
  f2iOutOfRange : OutOfRange
  /-- `FCR31_WRITE_MASK` (R225, D10). -/
  fcr31WriteMask : Word
  /-- `RESERVED_ENCODING` (R69, D33). -/
  reservedEncoding : ReservedEncoding
  deriving DecidableEq, Repr

/-- The defaults of R12: false, wrap, 0xFFFFFFFF, refuse. Log entries 6 to 9. -/
def Params.specDefault : Params where
  addSub64EqOperandInexact := false
  f2iOutOfRange := .wrap
  fcr31WriteMask := 0xFFFFFFFF#32
  reservedEncoding := .refuse

/-- The hardware-revision constant 0x511 that `reset()` puts into FCR0 (R37, R270; unaudited literal, R3). -/
def revision : Word := 0x00000511#32

end Sys2Proof.Config
end

