-- ==== Sys2Proof/Machine/State.lean ====
section
/-! DEFINITION. The state of the block (R41) as plain data, with the model's own input and output fields, its reset
value (R270), and the two ways a step can stop. -/

namespace Sys2Proof.Machine

/-- The register addressing mode (R21). -/
inductive Mode where
  | full
  | half
  deriving DecidableEq, Repr

/-- A request of the owning CPU (R8). -/
inductive Request where
  /-- A command word (R61, R74), with the 64-bit operand the CPU supplies with it: `GPR[rt]` for MTC1, DMTC1 and
  CTC1, the loaded word (low half) or doubleword for LWC1 and LDC1 (R231 to R235). Other words ignore it. -/
  | command (word : Word) (data : DWord)
  /-- `reset()` (R270). -/
  | reset
  /-- `set_addressing_mode(full)` (R227). -/
  | setAddressingMode (full : Bool)
  /-- The register-file ports (R220 to R223). -/
  | read32 (i : RegIx)
  | write32 (i : RegIx) (v : BitVec 32)
  | read64 (i : RegIx)
  | write64 (i : RegIx) (v : BitVec 64)
  /-- The control ports (R224, R225). -/
  | ctrlRead (n : RegIx)
  | ctrlWrite (n : RegIx) (v : BitVec 32)
  deriving DecidableEq, Repr

/-- What a step hands to the owning CPU besides the trap signal (44_transfers.md; log entry 4). -/
inductive Reply where
  /-- Nothing. -/
  | silent
  /-- The value of a 32-bit port read: `read32` or `ctrl_read` (R220, R224). -/
  | value32 (v : BitVec 32)
  /-- The value of a 64-bit port read: `read64` (R222). -/
  | value64 (v : BitVec 64)
  /-- The CPU performs `GPR[rt] <- v` (R228, R229, R230). -/
  | gprWrite (rt : RegIx) (v : BitVec 64)
  /-- The CPU stores the word at `GPR[base] + displacement` (R236). -/
  | storeWord (base : RegIx) (displacement : BitVec 64) (v : BitVec 32)
  /-- The CPU stores the doubleword at `GPR[base] + displacement` (R237). -/
  | storeDouble (base : RegIx) (displacement : BitVec 64) (v : BitVec 64)
  /-- The CPU branches by `displacement` when `taken`, and annuls its delay slot when `annul` (R238 to R241). -/
  | branch (taken annul : Bool) (displacement : BitVec 64)
  deriving DecidableEq, Repr

/-- The state: the four pieces of R41, then the model's own fields. -/
structure State where
  /-- The physical slots `P[0]` to `P[31]` (R20). -/
  p : Vector (BitVec 64) 32
  /-- The addressing mode (R21). -/
  mode : Mode
  /-- The control/status register (R29). -/
  fcr31 : BitVec 32
  /-- The identification register (R37). -/
  fcr0 : BitVec 32
  /-- Requests issued and not yet performed, oldest first (R8, R57; log entry 1). -/
  requests : List Request
  /-- The CPU's operand of the command word being performed (log entry 3). -/
  operand : BitVec 64
  /-- The output FPE of the step just made (R9, R256; log entry 5). -/
  trap : Bool
  /-- What the step just made hands to the CPU (log entry 4). -/
  reply : Reply
  deriving DecidableEq, Repr

/-- The block has no machine fault: "The core never raises host-level errors for any valid instruction encoding"
(R251), and it has no address that could be absent (R50). FPU exceptions are next states (R253, R254). -/
inductive Fault where
  deriving DecidableEq, Repr

/-- The requests that have no transition (D32). All are safe: the model stops where the spec gives no meaning. -/
inductive Refusal where
  /-- Raised by an arm of `exec` that has no meaning yet; none has. Safe. -/
  | notModelled (mnemonic : String)
  /-- Raised by a command word outside the COP1 space (R72 `NotCop1`). Safe. -/
  | notCop1
  /-- Raised by a reserved COP1 word when `RESERVED_ENCODING` is `refuse` (R69, D33). Safe. -/
  | reservedWord
  /-- Raised by `ctrl_read`, `ctrl_write`, CFC1 and CTC1 for a number other than 0 and 31 (R224, R225, D30). Safe. -/
  | noControlRegister (n : RegIx)
  deriving DecidableEq, Repr

/-- The state right after `reset()` (R270), with no request issued and no output. -/
def State.reset : State where
  p := Vector.replicate 32 0#64
  mode := .full
  fcr31 := 0#32
  fcr0 := Config.revision
  requests := []
  operand := 0#64
  trap := false
  reply := .silent

/-- The state before the first `reset()` (R271, D18): as after reset, but FCR0 is 0. -/
def State.creation : State := { State.reset with fcr0 := 0#32 }

end Sys2Proof.Machine
end

