-- ==== Sys2Proof/Machine/Flags.lean ====
section
/-! DEFINITION. The control/status register FCR31 as one word with named fields (R29 to R36), and the sets of exception
bits the dispatcher takes (R16). Every read and write of a field of FCR31 goes through here. -/

namespace Sys2Proof.Machine

/-- A subset of {I, U, O, Z, V} (R16). E is no member: it has no Flag and no Enable bit and is never dispatched. -/
structure ExcSet where
  i : Bool
  u : Bool
  o : Bool
  z : Bool
  v : Bool
  deriving DecidableEq, Repr

/-- `{}`. -/
def ExcSet.empty : ExcSet := ⟨false, false, false, false, false⟩

/-- `{V}`, `{Z}`, `{I}`. -/
def ExcSet.invalid : ExcSet := ⟨false, false, false, false, true⟩
def ExcSet.divZero : ExcSet := ⟨false, false, false, true, false⟩
def ExcSet.inexact : ExcSet := ⟨true, false, false, false, false⟩

/-- Set union. -/
def ExcSet.union (a b : ExcSet) : ExcSet := ⟨a.i || b.i, a.u || b.u, a.o || b.o, a.z || b.z, a.v || b.v⟩

/-- Set intersection. -/
def ExcSet.inter (a b : ExcSet) : ExcSet := ⟨a.i && b.i, a.u && b.u, a.o && b.o, a.z && b.z, a.v && b.v⟩

/-- The five-bit group of a set, I the lowest bit (R29). -/
def ExcSet.toBits (a : ExcSet) : BitVec 32 :=
  (if a.i then 1#32 else 0#32) ||| (if a.u then 2#32 else 0#32) ||| (if a.o then 4#32 else 0#32) |||
    (if a.z then 8#32 else 0#32) ||| (if a.v then 16#32 else 0#32)

/-- The five-bit group at bit `lo` of FCR31, I the lowest bit (R29). -/
def groupAt (f : BitVec 32) (lo : Nat) : ExcSet :=
  ⟨f.getLsbD lo, f.getLsbD (lo + 1), f.getLsbD (lo + 2), f.getLsbD (lo + 3), f.getLsbD (lo + 4)⟩

/-- RM, bits 1:0 (R30). -/
def roundingMode (f : BitVec 32) : RoundingMode :=
  match f.getLsbD 1, f.getLsbD 0 with
  | false, false => .nearestEven
  | false, true => .truncate
  | true, false => .ceiling
  | true, true => .floor

/-- Flag, bits 6:2 (R31). -/
def flags (f : BitVec 32) : ExcSet := groupAt f 2

/-- Enable, bits 11:7 (R32). -/
def enables (f : BitVec 32) : ExcSet := groupAt f 7

/-- Cause without E, bits 16:12 (R33). -/
def causes (f : BitVec 32) : ExcSet := groupAt f 12

/-- Cause.E, bit 17 (R33). -/
def causeE (f : BitVec 32) : Bool := f.getLsbD 17

/-- C, bit 23 (R34). -/
def condition (f : BitVec 32) : Bool := f.getLsbD 23

/-- FS, bit 24 (R35). -/
def flushSubnormals (f : BitVec 32) : Bool := f.getLsbD 24

/-- The Cause field, bits 17:12. -/
def causeMask : BitVec 32 := 0x0003F000#32

/-- FCR31[17:12] <- 0 (R252). -/
def clearCauseBits (f : BitVec 32) : BitVec 32 := f &&& ~~~causeMask

/-- FCR31.Flag[X] <- 1 for every X of the set (R253 step 4). -/
def setFlagBits (x : ExcSet) (f : BitVec 32) : BitVec 32 := f ||| (x.toBits <<< 2)

/-- FCR31.Cause[X] <- 1 for every X of the set (R253). -/
def setCauseBits (x : ExcSet) (f : BitVec 32) : BitVec 32 := f ||| (x.toBits <<< 12)

/-- FCR31.Cause.E <- 1 (R254). -/
def setCauseE (f : BitVec 32) : BitVec 32 := f ||| 0x00020000#32

/-- FCR31.C <- b (R180). -/
def setCondition (b : Bool) (f : BitVec 32) : BitVec 32 :=
  if b then f ||| 0x00800000#32 else f &&& ~~~0x00800000#32

/-- A control write through the write mask (R225). -/
def maskedWrite (mask v f : BitVec 32) : BitVec 32 := (v &&& mask) ||| (f &&& ~~~mask)

end Sys2Proof.Machine
end

