-- ==== Sys2Proof/Machine/Operands.lean ====
section
/-! DEFINITION. The register-file views (R20 to R28): every read and write of a floating-point register goes through
here. The addressing tables are functions of the mode (R27). -/

namespace Sys2Proof.Machine

/-- The even partner `i & ~1` of a register index (R23). -/
def evenPartner (i : RegIx) : RegIx := ⟨i.val / 2 * 2, by omega⟩

/-- The physical slot a view of register `i` lies in: `i` in full mode (R22), the even partner in half mode (R23). -/
def slotOf : Mode → RegIx → RegIx
  | .full, i => i
  | .half, i => evenPartner i

/-- Whether the 32-bit view of register `i` is the upper half of its slot: an odd register in half mode (R23). -/
def upperHalf : Mode → RegIx → Bool
  | .full, _ => false
  | .half, i => decide (i.val % 2 = 1)

/-- The physical slot `P[k]`. -/
def State.slot (s : State) (k : RegIx) : BitVec 64 := s.p[k.val]'k.isLt

/-- Replace the physical slot `P[k]`. -/
def State.setSlot (s : State) (k : RegIx) (v : BitVec 64) : State := { s with p := s.p.set k.val v k.isLt }

/-- The lower 32-bit word of a slot (R20). -/
def lowWord (d : BitVec 64) : BitVec 32 := d.setWidth 32

/-- The upper 32-bit word of a slot (R20). -/
def highWord (d : BitVec 64) : BitVec 32 := (d >>> 32).setWidth 32

/-- `x32[i]` (R22, R23). -/
def State.x32 (s : State) (i : RegIx) : BitVec 32 :=
  if upperHalf s.mode i then highWord (s.slot (slotOf s.mode i)) else lowWord (s.slot (slotOf s.mode i))

/-- `x64[i]` (R22, R23). -/
def State.x64 (s : State) (i : RegIx) : BitVec 64 := s.slot (slotOf s.mode i)

/-- `x32[i] <- v`: the mapped word is replaced, the other half of the slot is kept (R24). -/
def State.setX32 (s : State) (i : RegIx) (v : BitVec 32) : State :=
  let k := slotOf s.mode i
  if upperHalf s.mode i then s.setSlot k (v ++ lowWord (s.slot k)) else s.setSlot k (highWord (s.slot k) ++ v)

/-- `x64[i] <- v`: the whole mapped slot is replaced (R24). -/
def State.setX64 (s : State) (i : RegIx) (v : BitVec 64) : State := s.setSlot (slotOf s.mode i) v

/-- `xw[i]` for a width (R95). -/
def State.view (s : State) : (w : Width) → RegIx → Pattern w
  | .w32, i => s.x32 i
  | .w64, i => s.x64 i

/-- `xw[i] <- v` for a width (R95). -/
def State.setView (s : State) : (w : Width) → RegIx → Pattern w → State
  | .w32, i, v => s.setX32 i v
  | .w64, i, v => s.setX64 i v

end Sys2Proof.Machine
end

