-- ==== Sys2Proof/Machine/Ops.lean ====
section
/-! DEFINITION. The shared operations: the parameters in force, the exception dispatcher (taking an exception,
R252 to R254; the block has no return from one, R258), the arithmetic engine (R95 to R109), the conversion engine
(R140 to R149), the comparison engine (R180), and the access ports (R220 to R227). The instructions of the family
files are these operations at fixed widths and modes. -/

namespace Sys2Proof.Machine

/-- The parameters this machine runs with: the defaults of R12 (log entries 6 to 9). -/
def params : Config.Params := Config.Params.specDefault

/-! ### Outputs -/

/-- The start of a transition: no trap signalled, nothing handed to the CPU (R9). -/
def State.quiet (s : State) : State := { s with trap := false, reply := .silent }

/-- FCR31 <- f. -/
def State.setFcr31 (s : State) (f : BitVec 32) : State := { s with fcr31 := f }

/-- Signal FPE (R256). -/
def State.signalFpe (s : State) : State := { s with trap := true }

/-- Hand a reply to the CPU. -/
def State.answer (s : State) (r : Reply) : State := { s with reply := r }

/-- The start of an operation of 41 to 43: the outputs quiet and `ClearCause()` (R95, R140, R180, R252). -/
def State.begin (s : State) : State := s.quiet.setFcr31 (clearCauseBits s.fcr31)

/-! ### Taking an exception (60_exceptions.md) -/

/-- `raiseUnimplemented()`: Cause.E and FPE, nothing else (R254). -/
def raiseUnimplemented (s : State) : State := (s.setFcr31 (setCauseE s.fcr31)).signalFpe

/-- The path the dispatcher takes for a set of exception bits (R253). -/
inductive DispatchPath where
  /-- Step 1: no bit. -/
  | nothing
  /-- Step 2: an underflow that fails the flag-path rule. -/
  | unimplemented
  /-- Step 3: some signalled exception is enabled. -/
  | trap
  /-- Step 4. -/
  | flag
  deriving DecidableEq, Repr

/-- The choice of R253 from FCR31 and the bits. -/
def dispatchPath (f : BitVec 32) (bits : ExcSet) : DispatchPath :=
  if bits = .empty then .nothing
  else if bits.u && !(!(enables f).u && !(enables f).i && flushSubnormals f) then .unimplemented
  else if bits.inter (enables f) ≠ .empty then .trap
  else .flag

/-- `Dispatch(bits)` followed by the commit on the not-trapped path (R253, R108): the one place an exception is
taken. A trap leaves everything but Cause as it is and signals FPE (R255, R257). -/
def dispatchThen (bits : ExcSet) (commit : State → State) (s : State) : State :=
  match dispatchPath s.fcr31 bits with
  | .nothing => commit s
  | .unimplemented => raiseUnimplemented s
  | .trap => (s.setFcr31 (setCauseBits bits s.fcr31)).signalFpe
  | .flag => commit (s.setFcr31 (setCauseBits bits (setFlagBits bits s.fcr31)))

/-! ### The arithmetic engine (41_arithmetic.md) -/

/-- The canonical signaling NaN: 0x7FBFFFFF, 0x7FF7FFFFFFFFFFFF (R99). -/
def canonicalNaN : (w : Width) → Pattern w
  | .w32 => 0x7FBFFFFF#32
  | .w64 => 0x7FF7FFFFFFFFFFFF#64

/-- The infinity of a sign: 0x7F800000 or 0xFF800000, 0x7FF0000000000000 or 0xFFF0000000000000 (R100). -/
def infinity : (w : Width) → Bool → Pattern w
  | .w32, neg => if neg then 0xFF800000#32 else 0x7F800000#32
  | .w64, neg => if neg then 0xFFF0000000000000#64 else 0x7FF0000000000000#64

/-- The underflow substitution table `UF_w[RM][sign]` (R106). -/
def underflowTable : (w : Width) → RoundingMode → (neg : Bool) → Pattern w
  | .w32, .nearestEven, true => 0x80000000#32
  | .w32, .nearestEven, false => 0x00000000#32
  | .w32, .truncate, true => 0x80000000#32
  | .w32, .truncate, false => 0x00000000#32
  | .w32, .ceiling, true => 0x80000000#32
  | .w32, .ceiling, false => 0x00800000#32
  | .w32, .floor, true => 0x80800000#32
  | .w32, .floor, false => 0x00000000#32
  | .w64, .nearestEven, true => 0x8000000000000000#64
  | .w64, .nearestEven, false => 0x0000000000000000#64
  | .w64, .truncate, true => 0x8000000000000000#64
  | .w64, .truncate, false => 0x0000000000000000#64
  | .w64, .ceiling, true => 0x8000000000000000#64
  | .w64, .ceiling, false => 0x0010000000000000#64
  | .w64, .floor, true => 0x8010000000000000#64
  | .w64, .floor, false => 0x0000000000000000#64

/-- `Native(op, x, y)`: the binary64 result of the host arithmetic (R102). -/
def BinaryOp.native : BinaryOp → Value → Value → Pattern .w64
  | .add, x, y => round .w64 (x.add y)
  | .sub, x, y => round .w64 (x.sub y)
  | .mul, x, y => round .w64 (x.mul y)
  | .div, x, y => divNative x y

/-- `Native(op, x)` (R102). -/
def UnaryOp.native : UnaryOp → Value → Pattern .w64
  | .sqrt, x => sqrtNative x
  | .abs, x => round .w64 x.abs
  | .neg, x => round .w64 x.neg

/-- `Store_w(nat)`: the scratch pattern at the destination's width (R102). -/
def store : (w : Width) → Pattern .w64 → Pattern w
  | .w32, nat => round .w32 (val nat)
  | .w64, nat => nat

/-- The Inexact round-trip test `w == 32 and val32(sb) != nat` (R103); at 64 bits it never fires. -/
def roundTripInexact : (w : Width) → Pattern w → Pattern .w64 → Bool
  | .w32, sb, nat => !(val sb).numEq (val nat)
  | .w64, _, _ => false

/-- `nat != 0`, a numeric test (R105). -/
def nonzero (nat : Pattern .w64) : Bool := !(classify nat).isZero

/-- Whether the result underflows: the stored class is Denormal or a Zero while `nat` is nonzero (R105). -/
def underflows {w : Width} (pre : Pattern w) (nat : Pattern .w64) : Bool :=
  (classify pre == .denormal || (classify pre).isZero) && nonzero nat

/-- Whether the Add and Sub rule of equal operand patterns applies: at 32 bits, and at 64 bits when the parameter
says so (R107, D7). -/
def eqOperandRule (q : Config.Params) (op : BinaryOp) (w : Width) : Bool :=
  (op == .add || op == .sub) && (w == .w32 || q.addSub64EqOperandInexact)

/-- The exception bits of a binary result, from the operand patterns, the native result and the stored pattern
before substitution (R103, R104, R105, R107). -/
def binaryBits (q : Config.Params) (op : BinaryOp) {w : Width} (a b pre : Pattern w) (nat : Pattern .w64) : ExcSet :=
  let overflow := (classify pre).isInfinity && !(classify a).isInfinity && !(classify b).isInfinity
  let underflow := underflows pre nat
  let equalOperand := eqOperandRule q op w &&
    ((pre == a && !(classify b).isZero) || (pre == b && !(classify a).isZero))
  { i := roundTripInexact w pre nat || overflow || underflow || equalOperand
    u := underflow
    o := overflow
    z := false
    v := false }

/-- The stored result: the table entry after an underflow, the rounded pattern otherwise (R105, R106). -/
def binaryResult (rm : RoundingMode) {w : Width} (pre : Pattern w) (nat : Pattern .w64) : Pattern w :=
  if underflows pre nat then underflowTable w rm (signBit nat) else pre

/-- InvalidPath (R99). -/
def invalidPath (w : Width) (fd : RegIx) (s : State) : State :=
  dispatchThen .invalid (fun t => t.setView w fd (canonicalNaN w)) s

/-- DivZeroPath (R100). -/
def divZeroPath (w : Width) (fd : RegIx) (a b : Pattern w) (s : State) : State :=
  dispatchThen .divZero (fun t => t.setView w fd (infinity w (signBit a ^^ signBit b))) s

/-- The arithmetic path of a binary operation (R96). -/
def binaryEvaluate (q : Config.Params) (op : BinaryOp) (w : Width) (fd : RegIx) (a b : Pattern w) (s : State) : State :=
  let nat := op.native (val a) (val b)
  let pre := store w nat
  dispatchThen (binaryBits q op a b pre nat)
    (fun t => t.setView w fd (binaryResult (roundingMode s.fcr31) pre nat)) s

/-- BinaryArith (R96). The tables of R89 to R92 answer a unary case for no input; such a case has no rule and is
evaluated like the operation's own. -/
def binaryArith (q : Config.Params) (op : BinaryOp) (w : Width) (fd fs ft : RegIx) (s : State) : State :=
  let a := s.view w fs
  let b := s.view w ft
  match op.table (classify a) (classify b) with
  | .unimplemented => raiseUnimplemented s.begin
  | .invalid => invalidPath w fd s.begin
  | .divideByZero => divZeroPath w fd a b s.begin
  | .add | .sub | .mul | .div | .sqrt | .abs | .neg => binaryEvaluate q op w fd a b s.begin

/-- The case of a unary operation: the table's, except that a negative Normal square root is Invalid (R97, R101). -/
def unaryCase (op : UnaryOp) {w : Width} (a : Pattern w) : OperationCase :=
  if op = .sqrt ∧ classify a = .normal ∧ signBit a = true then .invalid else op.table (classify a)

/-- The exception bits of a unary result: no underflow and no equal-operand step (R97). -/
def unaryBits {w : Width} (a sb : Pattern w) (nat : Pattern .w64) : ExcSet :=
  let overflow := (classify sb).isInfinity && !(classify a).isInfinity
  { i := roundTripInexact w sb nat || overflow
    u := false
    o := overflow
    z := false
    v := false }

/-- The arithmetic path of a unary operation (R97). -/
def unaryEvaluate (op : UnaryOp) (w : Width) (fd : RegIx) (a : Pattern w) (s : State) : State :=
  let nat := op.native (val a)
  let sb := store w nat
  dispatchThen (unaryBits a sb nat) (fun t => t.setView w fd sb) s

/-- UnaryArith (R97). The unary tables answer only Invalid, Unimplemented and the operation's own case. -/
def unaryArith (op : UnaryOp) (w : Width) (fd fs : RegIx) (s : State) : State :=
  let a := s.view w fs
  match unaryCase op a with
  | .unimplemented => raiseUnimplemented s.begin
  | .invalid => invalidPath w fd s.begin
  | .sqrt | .abs | .neg | .add | .sub | .mul | .div | .divideByZero => unaryEvaluate op w fd a s.begin

/-- Move (R109): the bits through the views, Cause cleared, no exception. -/
def move (w : Width) (fd fs : RegIx) (s : State) : State := s.begin.setView w fd (s.view w fs)

/-! ### The conversion engine (42_conversion.md) -/

/-- The exception bits of a narrowing (R141): I when the value changed, O when it became infinite. -/
def narrowBits (a : Pattern .w64) : ExcSet :=
  let y : Pattern .w32 := round .w32 (val a)
  { ExcSet.empty with
    i := !(val y).numEq (val a)
    o := (classify y).isInfinity }

/-- Narrow: CVT.S.D (R141). -/
def narrow (fd fs : RegIx) (s : State) : State :=
  let a : Pattern .w64 := s.view .w64 fs
  match classify a with
  | .signalingNaN | .denormal => raiseUnimplemented s.begin
  | .quietNaN => invalidPath .w32 fd s.begin
  | .posInfinity | .negInfinity => s.begin.setView .w32 fd (infinity .w32 (signBit a))
  | .normal | .posZero | .negZero =>
    dispatchThen (narrowBits a) (fun t => t.setView .w32 fd (round .w32 (val a))) s.begin

/-- Widen: CVT.D.S (R142). -/
def widen (fd fs : RegIx) (s : State) : State :=
  let a : Pattern .w32 := s.view .w32 fs
  match classify a with
  | .signalingNaN | .denormal => raiseUnimplemented s.begin
  | .quietNaN => invalidPath .w64 fd s.begin
  | .posInfinity | .negInfinity => s.begin.setView .w64 fd (infinity .w64 (signBit a))
  | .normal | .posZero | .negZero => s.begin.setView .w64 fd (round .w64 (val a))

/-- IntToFloat (R143): the host cast `rne64(n)`, stored at the destination's width, so a longword to binary32 rounds
twice (D15); Cause cleared, no exception. -/
def intToFloat (src dst : Width) (fd fs : RegIx) (s : State) : State :=
  s.begin.setView dst fd (store dst (round .w64 (ofInt (s.view src fs).toInt)))

/-- Whether the rounded integer fits the target width: `-2^(N-1) <= r < 2^(N-1)` (R147). -/
def fits (n : Width) (r : Int) : Bool := decide (-(2 ^ (n.bits - 1) : Int) ≤ r) && decide (r < (2 ^ (n.bits - 1) : Int))

/-- Whether a float-to-integer conversion raises UnimplementedOperation, in the order of R144 and R261: the class,
the 56-bit limit of a binary32 source with a longword result (R146), the range when the parameter says trap (R147). -/
def f2iUnimplemented (q : Config.Params) {w : Width} (n : Width) (mode : RoundingMode) (a : Pattern w) : Bool :=
  (classify a).isNaN || (classify a).isInfinity || classify a == .denormal ||
    (w == .w32 && n == .w64 && (val a).magGe 56) ||
    (q.f2iOutOfRange == .trap && !fits n (roundInt mode (val a)))

/-- The exception bits of a float-to-integer conversion: I when the rounded integer differs from the value, compared
before the cast (R148). -/
def f2iBits {w : Width} (mode : RoundingMode) (a : Pattern w) : ExcSet :=
  { ExcSet.empty with i := !(ofInt (roundInt mode (val a))).numEq (val a) }

/-- FloatToInt (R144): `w` the source width, `n` the result width; `Cast_N` is the two's-complement pattern modulo
`2^N` (R147). -/
def floatToInt (q : Config.Params) (w n : Width) (mode : RoundingMode) (fd fs : RegIx) (s : State) : State :=
  let a := s.view w fs
  if f2iUnimplemented q n mode a then raiseUnimplemented s.begin
  else dispatchThen (f2iBits mode a)
    (fun t => t.setView n fd (BitVec.ofInt n.bits (roundInt mode (val a)))) s.begin

/-! ### The comparison engine (43_compare.md) -/

/-- A 4-bit comparison predicate (R65, R180). -/
structure Predicate where
  /-- bit 3: signal Invalid on any NaN -/
  signal : Bool
  /-- bit 2: contribute less-than -/
  less : Bool
  /-- bit 1: contribute equal -/
  equal : Bool
  /-- bit 0: the result when unordered -/
  unordered : Bool
  deriving DecidableEq, Repr

/-- The predicate of `pred = funct[3:0]` (R65). -/
def Predicate.ofNat (n : Nat) : Predicate := ⟨n.testBit 3, n.testBit 2, n.testBit 1, n.testBit 0⟩

/-- FCR31.C <- b. -/
def State.setC (s : State) (b : Bool) : State := s.setFcr31 (setCondition b s.fcr31)

/-- Compare (R180). -/
def compare (w : Width) (pred : Predicate) (fs ft : RegIx) (s : State) : State :=
  let a := s.view w fs
  let b := s.view w ft
  if (classify a).isNaN || (classify b).isNaN then
    if pred.signal || classify a == .signalingNaN || classify b == .signalingNaN then
      dispatchThen .invalid (fun t => t.setC pred.unordered) s.begin
    else s.begin.setC pred.unordered
  else s.begin.setC ((pred.less && (val a).numLt (val b)) || (pred.equal && (val a).numEq (val b)))

/-! ### The ports (44_transfers.md) -/

/-- `ctrl_read(n)`: FCR0 at 0, FCR31 at 31, nothing else (R224). -/
def ctrlRead (s : State) (n : RegIx) : Option (BitVec 32) :=
  if n = 31 then some s.fcr31 else if n = 0 then some s.fcr0 else none

/-- `ctrl_write(n, v)` (R225): FCR31 through the write mask, FCR0 ignored, any other number no transition. No trap is
evaluated (D12). -/
def ctrlWrite (q : Config.Params) (n : RegIx) (v : BitVec 32) (s : State) : Option State :=
  if n = 31 then some (s.setFcr31 (maskedWrite q.fcr31WriteMask v s.fcr31))
  else if n = 0 then some s
  else none

/-- The condition output (R226). -/
def State.cond (s : State) : Bool := condition s.fcr31

/-- `set_addressing_mode(full)` (R227). -/
def State.setAddressingMode (s : State) (full : Bool) : State := { s with mode := if full then .full else .half }

/-- The byte displacement of a load or store: offset16 sign-extended (R74). -/
def memDisplacement (offset : BitVec 16) : BitVec 64 := offset.signExtend 64

/-- The byte displacement of a branch: offset16 sign-extended and shifted left by 2 (R74). -/
def branchDisplacement (offset : BitVec 16) : BitVec 64 := offset.signExtend 64 <<< 2

/-- A reserved command word (R69): refused, or UnimplementedOperation after ClearCause, as the parameter says. -/
def reservedWord (q : Config.Params) (s : State) : Host.Outcome State Fault Refusal :=
  match q.reservedEncoding with
  | .refuse => .refused .reservedWord
  | .unimplemented => .next (raiseUnimplemented s.begin)

end Sys2Proof.Machine
end

