-- ==== Sys2Proof/Machine/Arith.lean ====
section
/-! DEFINITION. The meanings of the arithmetic instructions (41_arithmetic.md section 2). -/

namespace Sys2Proof.Machine

/-- ADD.S (R110). -/
def execAddS (fd : RegIx) (fs : RegIx) (ft : RegIx) (s : State) : Host.Outcome State Fault Refusal :=
  .next (binaryArith params .add .w32 fd fs ft s)

/-- ADD.D (R111). -/
def execAddD (fd : RegIx) (fs : RegIx) (ft : RegIx) (s : State) : Host.Outcome State Fault Refusal :=
  .next (binaryArith params .add .w64 fd fs ft s)

/-- SUB.S (R112). -/
def execSubS (fd : RegIx) (fs : RegIx) (ft : RegIx) (s : State) : Host.Outcome State Fault Refusal :=
  .next (binaryArith params .sub .w32 fd fs ft s)

/-- SUB.D (R113). -/
def execSubD (fd : RegIx) (fs : RegIx) (ft : RegIx) (s : State) : Host.Outcome State Fault Refusal :=
  .next (binaryArith params .sub .w64 fd fs ft s)

/-- MUL.S (R114). -/
def execMulS (fd : RegIx) (fs : RegIx) (ft : RegIx) (s : State) : Host.Outcome State Fault Refusal :=
  .next (binaryArith params .mul .w32 fd fs ft s)

/-- MUL.D (R115). -/
def execMulD (fd : RegIx) (fs : RegIx) (ft : RegIx) (s : State) : Host.Outcome State Fault Refusal :=
  .next (binaryArith params .mul .w64 fd fs ft s)

/-- DIV.S (R116). -/
def execDivS (fd : RegIx) (fs : RegIx) (ft : RegIx) (s : State) : Host.Outcome State Fault Refusal :=
  .next (binaryArith params .div .w32 fd fs ft s)

/-- DIV.D (R117). -/
def execDivD (fd : RegIx) (fs : RegIx) (ft : RegIx) (s : State) : Host.Outcome State Fault Refusal :=
  .next (binaryArith params .div .w64 fd fs ft s)

/-- SQRT.S (R118). -/
def execSqrtS (fd : RegIx) (fs : RegIx) (s : State) : Host.Outcome State Fault Refusal :=
  .next (unaryArith .sqrt .w32 fd fs s)

/-- SQRT.D (R119). -/
def execSqrtD (fd : RegIx) (fs : RegIx) (s : State) : Host.Outcome State Fault Refusal :=
  .next (unaryArith .sqrt .w64 fd fs s)

/-- ABS.S (R120). -/
def execAbsS (fd : RegIx) (fs : RegIx) (s : State) : Host.Outcome State Fault Refusal :=
  .next (unaryArith .abs .w32 fd fs s)

/-- ABS.D (R121). -/
def execAbsD (fd : RegIx) (fs : RegIx) (s : State) : Host.Outcome State Fault Refusal :=
  .next (unaryArith .abs .w64 fd fs s)

/-- NEG.S (R122). -/
def execNegS (fd : RegIx) (fs : RegIx) (s : State) : Host.Outcome State Fault Refusal :=
  .next (unaryArith .neg .w32 fd fs s)

/-- NEG.D (R123). -/
def execNegD (fd : RegIx) (fs : RegIx) (s : State) : Host.Outcome State Fault Refusal :=
  .next (unaryArith .neg .w64 fd fs s)

/-- MOV.S (R124). -/
def execMovS (fd : RegIx) (fs : RegIx) (s : State) : Host.Outcome State Fault Refusal :=
  .next (move .w32 fd fs s)

/-- MOV.D (R125). -/
def execMovD (fd : RegIx) (fs : RegIx) (s : State) : Host.Outcome State Fault Refusal :=
  .next (move .w64 fd fs s)

end Sys2Proof.Machine
end

