-- ==== Sys2Proof/Machine/Compare.lean ====
section
/-! DEFINITION. The meanings of the comparison instructions (43_compare.md section 2). -/

namespace Sys2Proof.Machine

/-- C.F.S (R182). -/
def execCFS (fs : RegIx) (ft : RegIx) (s : State) : Host.Outcome State Fault Refusal :=
  .next (compare .w32 (.ofNat 0) fs ft s)

/-- C.UN.S (R183). -/
def execCUnS (fs : RegIx) (ft : RegIx) (s : State) : Host.Outcome State Fault Refusal :=
  .next (compare .w32 (.ofNat 1) fs ft s)

/-- C.EQ.S (R184). -/
def execCEqS (fs : RegIx) (ft : RegIx) (s : State) : Host.Outcome State Fault Refusal :=
  .next (compare .w32 (.ofNat 2) fs ft s)

/-- C.UEQ.S (R185). -/
def execCUeqS (fs : RegIx) (ft : RegIx) (s : State) : Host.Outcome State Fault Refusal :=
  .next (compare .w32 (.ofNat 3) fs ft s)

/-- C.OLT.S (R186). -/
def execCOltS (fs : RegIx) (ft : RegIx) (s : State) : Host.Outcome State Fault Refusal :=
  .next (compare .w32 (.ofNat 4) fs ft s)

/-- C.ULT.S (R187). -/
def execCUltS (fs : RegIx) (ft : RegIx) (s : State) : Host.Outcome State Fault Refusal :=
  .next (compare .w32 (.ofNat 5) fs ft s)

/-- C.OLE.S (R188). -/
def execCOleS (fs : RegIx) (ft : RegIx) (s : State) : Host.Outcome State Fault Refusal :=
  .next (compare .w32 (.ofNat 6) fs ft s)

/-- C.ULE.S (R189). -/
def execCUleS (fs : RegIx) (ft : RegIx) (s : State) : Host.Outcome State Fault Refusal :=
  .next (compare .w32 (.ofNat 7) fs ft s)

/-- C.SF.S (R190). -/
def execCSfS (fs : RegIx) (ft : RegIx) (s : State) : Host.Outcome State Fault Refusal :=
  .next (compare .w32 (.ofNat 8) fs ft s)

/-- C.NGLE.S (R191). -/
def execCNgleS (fs : RegIx) (ft : RegIx) (s : State) : Host.Outcome State Fault Refusal :=
  .next (compare .w32 (.ofNat 9) fs ft s)

/-- C.SEQ.S (R192). -/
def execCSeqS (fs : RegIx) (ft : RegIx) (s : State) : Host.Outcome State Fault Refusal :=
  .next (compare .w32 (.ofNat 10) fs ft s)

/-- C.NGL.S (R193). -/
def execCNglS (fs : RegIx) (ft : RegIx) (s : State) : Host.Outcome State Fault Refusal :=
  .next (compare .w32 (.ofNat 11) fs ft s)

/-- C.LT.S (R194). -/
def execCLtS (fs : RegIx) (ft : RegIx) (s : State) : Host.Outcome State Fault Refusal :=
  .next (compare .w32 (.ofNat 12) fs ft s)

/-- C.NGE.S (R195). -/
def execCNgeS (fs : RegIx) (ft : RegIx) (s : State) : Host.Outcome State Fault Refusal :=
  .next (compare .w32 (.ofNat 13) fs ft s)

/-- C.LE.S (R196). -/
def execCLeS (fs : RegIx) (ft : RegIx) (s : State) : Host.Outcome State Fault Refusal :=
  .next (compare .w32 (.ofNat 14) fs ft s)

/-- C.NGT.S (R197). -/
def execCNgtS (fs : RegIx) (ft : RegIx) (s : State) : Host.Outcome State Fault Refusal :=
  .next (compare .w32 (.ofNat 15) fs ft s)

/-- C.F.D (R198). -/
def execCFD (fs : RegIx) (ft : RegIx) (s : State) : Host.Outcome State Fault Refusal :=
  .next (compare .w64 (.ofNat 0) fs ft s)

/-- C.UN.D (R199). -/
def execCUnD (fs : RegIx) (ft : RegIx) (s : State) : Host.Outcome State Fault Refusal :=
  .next (compare .w64 (.ofNat 1) fs ft s)

/-- C.EQ.D (R200). -/
def execCEqD (fs : RegIx) (ft : RegIx) (s : State) : Host.Outcome State Fault Refusal :=
  .next (compare .w64 (.ofNat 2) fs ft s)

/-- C.UEQ.D (R201). -/
def execCUeqD (fs : RegIx) (ft : RegIx) (s : State) : Host.Outcome State Fault Refusal :=
  .next (compare .w64 (.ofNat 3) fs ft s)

/-- C.OLT.D (R202). -/
def execCOltD (fs : RegIx) (ft : RegIx) (s : State) : Host.Outcome State Fault Refusal :=
  .next (compare .w64 (.ofNat 4) fs ft s)

/-- C.ULT.D (R203). -/
def execCUltD (fs : RegIx) (ft : RegIx) (s : State) : Host.Outcome State Fault Refusal :=
  .next (compare .w64 (.ofNat 5) fs ft s)

/-- C.OLE.D (R204). -/
def execCOleD (fs : RegIx) (ft : RegIx) (s : State) : Host.Outcome State Fault Refusal :=
  .next (compare .w64 (.ofNat 6) fs ft s)

/-- C.ULE.D (R205). -/
def execCUleD (fs : RegIx) (ft : RegIx) (s : State) : Host.Outcome State Fault Refusal :=
  .next (compare .w64 (.ofNat 7) fs ft s)

/-- C.SF.D (R206). -/
def execCSfD (fs : RegIx) (ft : RegIx) (s : State) : Host.Outcome State Fault Refusal :=
  .next (compare .w64 (.ofNat 8) fs ft s)

/-- C.NGLE.D (R207). -/
def execCNgleD (fs : RegIx) (ft : RegIx) (s : State) : Host.Outcome State Fault Refusal :=
  .next (compare .w64 (.ofNat 9) fs ft s)

/-- C.SEQ.D (R208). -/
def execCSeqD (fs : RegIx) (ft : RegIx) (s : State) : Host.Outcome State Fault Refusal :=
  .next (compare .w64 (.ofNat 10) fs ft s)

/-- C.NGL.D (R209). -/
def execCNglD (fs : RegIx) (ft : RegIx) (s : State) : Host.Outcome State Fault Refusal :=
  .next (compare .w64 (.ofNat 11) fs ft s)

/-- C.LT.D (R210). -/
def execCLtD (fs : RegIx) (ft : RegIx) (s : State) : Host.Outcome State Fault Refusal :=
  .next (compare .w64 (.ofNat 12) fs ft s)

/-- C.NGE.D (R211). -/
def execCNgeD (fs : RegIx) (ft : RegIx) (s : State) : Host.Outcome State Fault Refusal :=
  .next (compare .w64 (.ofNat 13) fs ft s)

/-- C.LE.D (R212). -/
def execCLeD (fs : RegIx) (ft : RegIx) (s : State) : Host.Outcome State Fault Refusal :=
  .next (compare .w64 (.ofNat 14) fs ft s)

/-- C.NGT.D (R213). -/
def execCNgtD (fs : RegIx) (ft : RegIx) (s : State) : Host.Outcome State Fault Refusal :=
  .next (compare .w64 (.ofNat 15) fs ft s)

end Sys2Proof.Machine
end

