-- ==== Sys2Proof/Machine/Convert.lean ====
section
/-! DEFINITION. The meanings of the conversion instructions (42_conversion.md sections 2 and 3). -/

namespace Sys2Proof.Machine

/-- CVT.S.D (R150). -/
def execCvtSD (fd : RegIx) (fs : RegIx) (s : State) : Host.Outcome State Fault Refusal :=
  .next (narrow fd fs s)

/-- CVT.D.S (R151). -/
def execCvtDS (fd : RegIx) (fs : RegIx) (s : State) : Host.Outcome State Fault Refusal :=
  .next (widen fd fs s)

/-- CVT.S.W (R152). -/
def execCvtSW (fd : RegIx) (fs : RegIx) (s : State) : Host.Outcome State Fault Refusal :=
  .next (intToFloat .w32 .w32 fd fs s)

/-- CVT.S.L (R153). -/
def execCvtSL (fd : RegIx) (fs : RegIx) (s : State) : Host.Outcome State Fault Refusal :=
  .next (intToFloat .w64 .w32 fd fs s)

/-- CVT.D.W (R154). -/
def execCvtDW (fd : RegIx) (fs : RegIx) (s : State) : Host.Outcome State Fault Refusal :=
  .next (intToFloat .w32 .w64 fd fs s)

/-- CVT.D.L (R155). -/
def execCvtDL (fd : RegIx) (fs : RegIx) (s : State) : Host.Outcome State Fault Refusal :=
  .next (intToFloat .w64 .w64 fd fs s)

/-- ROUND.W.S (R156). -/
def execRoundWS (fd : RegIx) (fs : RegIx) (s : State) : Host.Outcome State Fault Refusal :=
  .next (floatToInt params .w32 .w32 .nearestEven fd fs s)

/-- TRUNC.W.S (R157). -/
def execTruncWS (fd : RegIx) (fs : RegIx) (s : State) : Host.Outcome State Fault Refusal :=
  .next (floatToInt params .w32 .w32 .truncate fd fs s)

/-- CEIL.W.S (R158). -/
def execCeilWS (fd : RegIx) (fs : RegIx) (s : State) : Host.Outcome State Fault Refusal :=
  .next (floatToInt params .w32 .w32 .ceiling fd fs s)

/-- FLOOR.W.S (R159). -/
def execFloorWS (fd : RegIx) (fs : RegIx) (s : State) : Host.Outcome State Fault Refusal :=
  .next (floatToInt params .w32 .w32 .floor fd fs s)

/-- CVT.W.S (R160). -/
def execCvtWS (fd : RegIx) (fs : RegIx) (s : State) : Host.Outcome State Fault Refusal :=
  .next (floatToInt params .w32 .w32 (roundingMode s.fcr31) fd fs s)

/-- ROUND.L.S (R161). -/
def execRoundLS (fd : RegIx) (fs : RegIx) (s : State) : Host.Outcome State Fault Refusal :=
  .next (floatToInt params .w32 .w64 .nearestEven fd fs s)

/-- TRUNC.L.S (R162). -/
def execTruncLS (fd : RegIx) (fs : RegIx) (s : State) : Host.Outcome State Fault Refusal :=
  .next (floatToInt params .w32 .w64 .truncate fd fs s)

/-- CEIL.L.S (R163). -/
def execCeilLS (fd : RegIx) (fs : RegIx) (s : State) : Host.Outcome State Fault Refusal :=
  .next (floatToInt params .w32 .w64 .ceiling fd fs s)

/-- FLOOR.L.S (R164). -/
def execFloorLS (fd : RegIx) (fs : RegIx) (s : State) : Host.Outcome State Fault Refusal :=
  .next (floatToInt params .w32 .w64 .floor fd fs s)

/-- CVT.L.S (R165). -/
def execCvtLS (fd : RegIx) (fs : RegIx) (s : State) : Host.Outcome State Fault Refusal :=
  .next (floatToInt params .w32 .w64 (roundingMode s.fcr31) fd fs s)

/-- ROUND.W.D (R166). -/
def execRoundWD (fd : RegIx) (fs : RegIx) (s : State) : Host.Outcome State Fault Refusal :=
  .next (floatToInt params .w64 .w32 .nearestEven fd fs s)

/-- TRUNC.W.D (R167). -/
def execTruncWD (fd : RegIx) (fs : RegIx) (s : State) : Host.Outcome State Fault Refusal :=
  .next (floatToInt params .w64 .w32 .truncate fd fs s)

/-- CEIL.W.D (R168). -/
def execCeilWD (fd : RegIx) (fs : RegIx) (s : State) : Host.Outcome State Fault Refusal :=
  .next (floatToInt params .w64 .w32 .ceiling fd fs s)

/-- FLOOR.W.D (R169). -/
def execFloorWD (fd : RegIx) (fs : RegIx) (s : State) : Host.Outcome State Fault Refusal :=
  .next (floatToInt params .w64 .w32 .floor fd fs s)

/-- CVT.W.D (R170). -/
def execCvtWD (fd : RegIx) (fs : RegIx) (s : State) : Host.Outcome State Fault Refusal :=
  .next (floatToInt params .w64 .w32 (roundingMode s.fcr31) fd fs s)

/-- ROUND.L.D (R171). -/
def execRoundLD (fd : RegIx) (fs : RegIx) (s : State) : Host.Outcome State Fault Refusal :=
  .next (floatToInt params .w64 .w64 .nearestEven fd fs s)

/-- TRUNC.L.D (R172). -/
def execTruncLD (fd : RegIx) (fs : RegIx) (s : State) : Host.Outcome State Fault Refusal :=
  .next (floatToInt params .w64 .w64 .truncate fd fs s)

/-- CEIL.L.D (R173). -/
def execCeilLD (fd : RegIx) (fs : RegIx) (s : State) : Host.Outcome State Fault Refusal :=
  .next (floatToInt params .w64 .w64 .ceiling fd fs s)

/-- FLOOR.L.D (R174). -/
def execFloorLD (fd : RegIx) (fs : RegIx) (s : State) : Host.Outcome State Fault Refusal :=
  .next (floatToInt params .w64 .w64 .floor fd fs s)

/-- CVT.L.D (R175). -/
def execCvtLD (fd : RegIx) (fs : RegIx) (s : State) : Host.Outcome State Fault Refusal :=
  .next (floatToInt params .w64 .w64 (roundingMode s.fcr31) fd fs s)

end Sys2Proof.Machine
end

