-- ==== Sys2Proof/Machine/Transfer.lean ====
section
/-! DEFINITION. The meanings of the CPU-side COP1 words (44_transfers.md section 4). The block does the port access; what the CPU does with its
general registers, memory and program counter is handed to it in the reply (R5, R228 to R241; log entry 4). -/

namespace Sys2Proof.Machine

/-- MFC1 (R228): `GPR[rt] <- sext(read32(fs))`; the CPU performs the write. -/
def execMfc1 (rt : RegIx) (fs : RegIx) (s : State) : Host.Outcome State Fault Refusal :=
  .next (s.quiet.answer (.gprWrite rt ((s.x32 fs).signExtend 64)))

/-- DMFC1 (R229): `GPR[rt] <- read64(fs)`; the CPU performs the write. -/
def execDmfc1 (rt : RegIx) (fs : RegIx) (s : State) : Host.Outcome State Fault Refusal :=
  .next (s.quiet.answer (.gprWrite rt (s.x64 fs)))

/-- CFC1 (R230): `GPR[rt] <- sext(ctrl_read(fs))`; fs other than 0 and 31 is refused. -/
def execCfc1 (rt : RegIx) (fs : RegIx) (s : State) : Host.Outcome State Fault Refusal :=
  match ctrlRead s fs with
  | some v => .next (s.quiet.answer (.gprWrite rt (v.signExtend 64)))
  | none => .refused (.noControlRegister fs)

/-- MTC1 (R231): `write32(fs, GPR[rt][31:0])`; the CPU supplies `GPR[rt]` as the operand. -/
def execMtc1 (_rt : RegIx) (fs : RegIx) (s : State) : Host.Outcome State Fault Refusal :=
  .next (s.quiet.setX32 fs (lowWord s.operand))

/-- DMTC1 (R232): `write64(fs, GPR[rt])`; the CPU supplies `GPR[rt]` as the operand. -/
def execDmtc1 (_rt : RegIx) (fs : RegIx) (s : State) : Host.Outcome State Fault Refusal :=
  .next (s.quiet.setX64 fs s.operand)

/-- CTC1 (R233): `ctrl_write(fs, GPR[rt][31:0])`; no trap is evaluated (D12), fs other than 0 and 31 is refused. -/
def execCtc1 (_rt : RegIx) (fs : RegIx) (s : State) : Host.Outcome State Fault Refusal :=
  match ctrlWrite params fs (lowWord s.operand) s.quiet with
  | some t => .next t
  | none => .refused (.noControlRegister fs)

/-- LWC1 (R234): `write32(ft, v)`; the CPU reads the word v from memory and supplies it as the operand. -/
def execLwc1 (ft : RegIx) (_offset : BitVec 16) (_base : RegIx) (s : State) : Host.Outcome State Fault Refusal :=
  .next (s.quiet.setX32 ft (lowWord s.operand))

/-- LDC1 (R235): `write64(ft, v)`; the CPU reads the doubleword v and supplies it as the operand. -/
def execLdc1 (ft : RegIx) (_offset : BitVec 16) (_base : RegIx) (s : State) : Host.Outcome State Fault Refusal :=
  .next (s.quiet.setX64 ft s.operand)

/-- SWC1 (R236): the CPU stores `read32(ft)`. -/
def execSwc1 (ft : RegIx) (offset : BitVec 16) (base : RegIx) (s : State) : Host.Outcome State Fault Refusal :=
  .next (s.quiet.answer (.storeWord base (memDisplacement offset) (s.x32 ft)))

/-- SDC1 (R237): the CPU stores `read64(ft)`. -/
def execSdc1 (ft : RegIx) (offset : BitVec 16) (base : RegIx) (s : State) : Host.Outcome State Fault Refusal :=
  .next (s.quiet.answer (.storeDouble base (memDisplacement offset) (s.x64 ft)))

/-- BC1F (R238): the CPU branches when cond is 0. -/
def execBc1f (offset : BitVec 16) (s : State) : Host.Outcome State Fault Refusal :=
  .next (s.quiet.answer (.branch (!s.cond) false (branchDisplacement offset)))

/-- BC1T (R239): the CPU branches when cond is 1. -/
def execBc1t (offset : BitVec 16) (s : State) : Host.Outcome State Fault Refusal :=
  .next (s.quiet.answer (.branch s.cond false (branchDisplacement offset)))

/-- BC1FL (R240): the CPU branches when cond is 0 and otherwise annuls its delay slot. -/
def execBc1fl (offset : BitVec 16) (s : State) : Host.Outcome State Fault Refusal :=
  .next (s.quiet.answer (.branch (!s.cond) s.cond (branchDisplacement offset)))

/-- BC1TL (R241): the CPU branches when cond is 1 and otherwise annuls its delay slot. -/
def execBc1tl (offset : BitVec 16) (s : State) : Host.Outcome State Fault Refusal :=
  .next (s.quiet.answer (.branch s.cond (!s.cond) (branchDisplacement offset)))

end Sys2Proof.Machine
end

