-- ==== Sys2Proof/Machine/Perform.lean ====
section
/-! DEFINITION. Performing one request of the owning CPU (R7, R8): a command word is decoded and executed, the other
requests are the block's own inputs and ports. -/

namespace Sys2Proof.Machine

/-- Perform a command word with the CPU's operand (R61, R69, R72). -/
def performCommand (w : Word) (data : DWord) (s : State) : Host.Outcome State Fault Refusal :=
  match decode w with
  | .ok i => exec i { s with operand := data }
  | .error .notCop1 => .refused .notCop1
  | .error .reserved => reservedWord params { s with operand := data }

/-- `reset()`: every piece of R41 to its reset value, the outputs quiet; requests the CPU has already issued stay
(R270; log entry 1). -/
def performReset (s : State) : State := { State.reset with requests := s.requests }

/-- One request, one transition (R7). `s` is the state with the request already taken from the list. -/
def perform (r : Request) (s : State) : Host.Outcome State Fault Refusal :=
  match r with
  | .command w data => performCommand w data s
  | .reset => .next (performReset s)
  | .setAddressingMode full => .next (s.quiet.setAddressingMode full)
  | .read32 i => .next (s.quiet.answer (.value32 (s.x32 i)))
  | .write32 i v => .next (s.quiet.setX32 i v)
  | .read64 i => .next (s.quiet.answer (.value64 (s.x64 i)))
  | .write64 i v => .next (s.quiet.setX64 i v)
  | .ctrlRead n =>
    match ctrlRead s n with
    | some v => .next (s.quiet.answer (.value32 v))
    | none => .refused (.noControlRegister n)
  | .ctrlWrite n v =>
    match ctrlWrite params n v s.quiet with
    | some t => .next t
    | none => .refused (.noControlRegister n)

/-- The step of a block that has no request: nothing happens and no output is signalled (log entry 1). -/
def idle (s : State) : State := s.quiet

/-- The request list with a command word placed at its head, with the CPU's operand as the state holds it. -/
def issueCommand (s : State) (w : Word) : State := { s with requests := .command w s.operand :: s.requests }

end Sys2Proof.Machine
end

