-- ==== Sys2Proof/Machine/Step.lean ====
section
/-! DEFINITION. One step of the block: the oldest request is taken and performed (R7, R57). -/

namespace Sys2Proof.Machine

/-- One step. -/
def step (s : State) : Host.Outcome State Fault Refusal :=
  match s.requests with
  | [] => .next (idle s)
  | r :: rest => perform r { s with requests := rest }

/-- `s` with the command word `w` (its low `nbits` bits, the rest zero) issued as the next request, so that the next
step decodes and runs it (log entry 2). -/
def State.withFetchWord (s : State) (nbits w : Nat) : State := issueCommand s (BitVec.ofNat 32 (w % 2 ^ nbits))

end Sys2Proof.Machine
end

