-- ==== Sys2Proof/Safety.lean ====
section
/-! DEFINITION. The words the statements about the block are written in: which instructions are operations of the block,
what an operation may write, the instructions of one shape as a function of operation and width, the invariant of
the machine, and states that differ only where an addressing mode cannot reach. -/

namespace Sys2Proof

/-- Whether an instruction is one of the 74 operations of R64 (as opposed to the 14 CPU-side words of R74). -/
def Instr.isOperation : Instr → Bool
  | .addS _ _ _ | .addD _ _ _ | .subS _ _ _ | .subD _ _ _ | .mulS _ _ _
  | .mulD _ _ _ | .divS _ _ _ | .divD _ _ _ | .sqrtS _ _ | .sqrtD _ _
  | .absS _ _ | .absD _ _ | .negS _ _ | .negD _ _ | .movS _ _
  | .movD _ _ | .cvtSD _ _ | .cvtDS _ _ | .cvtSW _ _ | .cvtSL _ _
  | .cvtDW _ _ | .cvtDL _ _ | .roundWS _ _ | .truncWS _ _ | .ceilWS _ _
  | .floorWS _ _ | .cvtWS _ _ | .roundLS _ _ | .truncLS _ _ | .ceilLS _ _
  | .floorLS _ _ | .cvtLS _ _ | .roundWD _ _ | .truncWD _ _ | .ceilWD _ _
  | .floorWD _ _ | .cvtWD _ _ | .roundLD _ _ | .truncLD _ _ | .ceilLD _ _
  | .floorLD _ _ | .cvtLD _ _ | .cFS _ _ | .cUnS _ _ | .cEqS _ _
  | .cUeqS _ _ | .cOltS _ _ | .cUltS _ _ | .cOleS _ _ | .cUleS _ _
  | .cSfS _ _ | .cNgleS _ _ | .cSeqS _ _ | .cNglS _ _ | .cLtS _ _
  | .cNgeS _ _ | .cLeS _ _ | .cNgtS _ _ | .cFD _ _ | .cUnD _ _
  | .cEqD _ _ | .cUeqD _ _ | .cOltD _ _ | .cUltD _ _ | .cOleD _ _
  | .cUleD _ _ | .cSfD _ _ | .cNgleD _ _ | .cSeqD _ _ | .cNglD _ _
  | .cLtD _ _ | .cNgeD _ _ | .cLeD _ _ | .cNgtD _ _ => true
  | .mfc1 _ _ | .dmfc1 _ _ | .cfc1 _ _ | .mtc1 _ _ | .dmtc1 _ _
  | .ctc1 _ _ | .lwc1 _ _ _ | .ldc1 _ _ _ | .swc1 _ _ _ | .sdc1 _ _ _
  | .bc1f _ | .bc1t _ | .bc1fl _ | .bc1tl _ => false

/-- What an instruction may write when it is not trapped. -/
inductive Dest where
  /-- The view of width `w` of register `i` (R67). -/
  | reg (w : Width) (i : RegIx)
  /-- The condition bit FCR31.C (R180). -/
  | cond
  /-- FCR31 through the control port (R225). -/
  | control
  /-- Nothing in the block. -/
  | nothing
  deriving DecidableEq, Repr

/-- The destination of an instruction: the view of its destination format (R67), the condition bit of a comparison
(R180), the port target of a CPU-side word (R228 to R241). CTC1 to FCR0 writes nothing (R225). -/
def Instr.dest : Instr → Dest
  | .addS fd _ _ => .reg .w32 fd
  | .addD fd _ _ => .reg .w64 fd
  | .subS fd _ _ => .reg .w32 fd
  | .subD fd _ _ => .reg .w64 fd
  | .mulS fd _ _ => .reg .w32 fd
  | .mulD fd _ _ => .reg .w64 fd
  | .divS fd _ _ => .reg .w32 fd
  | .divD fd _ _ => .reg .w64 fd
  | .sqrtS fd _ => .reg .w32 fd
  | .sqrtD fd _ => .reg .w64 fd
  | .absS fd _ => .reg .w32 fd
  | .absD fd _ => .reg .w64 fd
  | .negS fd _ => .reg .w32 fd
  | .negD fd _ => .reg .w64 fd
  | .movS fd _ => .reg .w32 fd
  | .movD fd _ => .reg .w64 fd
  | .cvtSD fd _ => .reg .w32 fd
  | .cvtDS fd _ => .reg .w64 fd
  | .cvtSW fd _ => .reg .w32 fd
  | .cvtSL fd _ => .reg .w32 fd
  | .cvtDW fd _ => .reg .w64 fd
  | .cvtDL fd _ => .reg .w64 fd
  | .roundWS fd _ => .reg .w32 fd
  | .truncWS fd _ => .reg .w32 fd
  | .ceilWS fd _ => .reg .w32 fd
  | .floorWS fd _ => .reg .w32 fd
  | .cvtWS fd _ => .reg .w32 fd
  | .roundLS fd _ => .reg .w64 fd
  | .truncLS fd _ => .reg .w64 fd
  | .ceilLS fd _ => .reg .w64 fd
  | .floorLS fd _ => .reg .w64 fd
  | .cvtLS fd _ => .reg .w64 fd
  | .roundWD fd _ => .reg .w32 fd
  | .truncWD fd _ => .reg .w32 fd
  | .ceilWD fd _ => .reg .w32 fd
  | .floorWD fd _ => .reg .w32 fd
  | .cvtWD fd _ => .reg .w32 fd
  | .roundLD fd _ => .reg .w64 fd
  | .truncLD fd _ => .reg .w64 fd
  | .ceilLD fd _ => .reg .w64 fd
  | .floorLD fd _ => .reg .w64 fd
  | .cvtLD fd _ => .reg .w64 fd
  | .cFS _ _ => .cond
  | .cUnS _ _ => .cond
  | .cEqS _ _ => .cond
  | .cUeqS _ _ => .cond
  | .cOltS _ _ => .cond
  | .cUltS _ _ => .cond
  | .cOleS _ _ => .cond
  | .cUleS _ _ => .cond
  | .cSfS _ _ => .cond
  | .cNgleS _ _ => .cond
  | .cSeqS _ _ => .cond
  | .cNglS _ _ => .cond
  | .cLtS _ _ => .cond
  | .cNgeS _ _ => .cond
  | .cLeS _ _ => .cond
  | .cNgtS _ _ => .cond
  | .cFD _ _ => .cond
  | .cUnD _ _ => .cond
  | .cEqD _ _ => .cond
  | .cUeqD _ _ => .cond
  | .cOltD _ _ => .cond
  | .cUltD _ _ => .cond
  | .cOleD _ _ => .cond
  | .cUleD _ _ => .cond
  | .cSfD _ _ => .cond
  | .cNgleD _ _ => .cond
  | .cSeqD _ _ => .cond
  | .cNglD _ _ => .cond
  | .cLtD _ _ => .cond
  | .cNgeD _ _ => .cond
  | .cLeD _ _ => .cond
  | .cNgtD _ _ => .cond
  | .mfc1 _ _ => .nothing
  | .dmfc1 _ _ => .nothing
  | .cfc1 _ _ => .nothing
  | .mtc1 _ fs => .reg .w32 fs
  | .dmtc1 _ fs => .reg .w64 fs
  | .ctc1 _ _ => .control
  | .lwc1 ft _ _ => .reg .w32 ft
  | .ldc1 ft _ _ => .reg .w64 ft
  | .swc1 _ _ _ => .nothing
  | .sdc1 _ _ _ => .nothing
  | .bc1f _ => .nothing
  | .bc1t _ => .nothing
  | .bc1fl _ => .nothing
  | .bc1tl _ => .nothing

/-! ### Instructions by shape -/

namespace Machine

/-- ADD, SUB, MUL, DIV .S and .D (R110 to R117). -/
def binaryInstr : BinaryOp → Width → (fd fs ft : RegIx) → Instr
  | .add, .w32, fd, fs, ft => .addS fd fs ft
  | .add, .w64, fd, fs, ft => .addD fd fs ft
  | .sub, .w32, fd, fs, ft => .subS fd fs ft
  | .sub, .w64, fd, fs, ft => .subD fd fs ft
  | .mul, .w32, fd, fs, ft => .mulS fd fs ft
  | .mul, .w64, fd, fs, ft => .mulD fd fs ft
  | .div, .w32, fd, fs, ft => .divS fd fs ft
  | .div, .w64, fd, fs, ft => .divD fd fs ft

/-- SQRT, ABS, NEG .S and .D (R118 to R123). -/
def unaryInstr : UnaryOp → Width → (fd fs : RegIx) → Instr
  | .sqrt, .w32, fd, fs => .sqrtS fd fs
  | .sqrt, .w64, fd, fs => .sqrtD fd fs
  | .abs, .w32, fd, fs => .absS fd fs
  | .abs, .w64, fd, fs => .absD fd fs
  | .neg, .w32, fd, fs => .negS fd fs
  | .neg, .w64, fd, fs => .negD fd fs

/-- MOV.S and MOV.D (R124, R125). -/
def moveInstr : Width → (fd fs : RegIx) → Instr
  | .w32, fd, fs => .movS fd fs
  | .w64, fd, fs => .movD fd fs

/-- CVT.S.W, CVT.S.L, CVT.D.W, CVT.D.L by source and destination width (R152 to R155). -/
def intToFloatInstr : (src dst : Width) → (fd fs : RegIx) → Instr
  | .w32, .w32, fd, fs => .cvtSW fd fs
  | .w64, .w32, fd, fs => .cvtSL fd fs
  | .w32, .w64, fd, fs => .cvtDW fd fs
  | .w64, .w64, fd, fs => .cvtDL fd fs

/-- The mode field of a float-to-integer instruction: fixed for ROUND, TRUNC, CEIL and FLOOR, `none` for CVT (R149). -/
abbrev FixedMode := Option RoundingMode

/-- The mode a float-to-integer instruction rounds with: the fixed one, or FCR31.RM (R149). -/
def modeOf (m : FixedMode) (f : BitVec 32) : RoundingMode := m.getD (roundingMode f)

/-- The twenty float-to-integer instructions by mode, source width and result width (R156 to R175). -/
def floatToIntInstr : FixedMode → (w n : Width) → (fd fs : RegIx) → Instr
  | some .nearestEven, .w32, .w32, fd, fs => .roundWS fd fs
  | some .nearestEven, .w32, .w64, fd, fs => .roundLS fd fs
  | some .nearestEven, .w64, .w32, fd, fs => .roundWD fd fs
  | some .nearestEven, .w64, .w64, fd, fs => .roundLD fd fs
  | some .truncate, .w32, .w32, fd, fs => .truncWS fd fs
  | some .truncate, .w32, .w64, fd, fs => .truncLS fd fs
  | some .truncate, .w64, .w32, fd, fs => .truncWD fd fs
  | some .truncate, .w64, .w64, fd, fs => .truncLD fd fs
  | some .ceiling, .w32, .w32, fd, fs => .ceilWS fd fs
  | some .ceiling, .w32, .w64, fd, fs => .ceilLS fd fs
  | some .ceiling, .w64, .w32, fd, fs => .ceilWD fd fs
  | some .ceiling, .w64, .w64, fd, fs => .ceilLD fd fs
  | some .floor, .w32, .w32, fd, fs => .floorWS fd fs
  | some .floor, .w32, .w64, fd, fs => .floorLS fd fs
  | some .floor, .w64, .w32, fd, fs => .floorWD fd fs
  | some .floor, .w64, .w64, fd, fs => .floorLD fd fs
  | none, .w32, .w32, fd, fs => .cvtWS fd fs
  | none, .w32, .w64, fd, fs => .cvtLS fd fs
  | none, .w64, .w32, fd, fs => .cvtWD fd fs
  | none, .w64, .w64, fd, fs => .cvtLD fd fs

/-- The sixteen predicates of R181, in the order of the predicate number. -/
inductive Cond where
  | f
  | un
  | eq
  | ueq
  | olt
  | ult
  | ole
  | ule
  | sf
  | ngle
  | seq
  | ngl
  | lt
  | nge
  | le
  | ngt
  deriving DecidableEq, Repr

/-- The thirty-two comparisons by width and predicate (R182 to R213). -/
def compareInstr : Width → Cond → (fs ft : RegIx) → Instr
  | .w32, .f, fs, ft => .cFS fs ft
  | .w32, .un, fs, ft => .cUnS fs ft
  | .w32, .eq, fs, ft => .cEqS fs ft
  | .w32, .ueq, fs, ft => .cUeqS fs ft
  | .w32, .olt, fs, ft => .cOltS fs ft
  | .w32, .ult, fs, ft => .cUltS fs ft
  | .w32, .ole, fs, ft => .cOleS fs ft
  | .w32, .ule, fs, ft => .cUleS fs ft
  | .w32, .sf, fs, ft => .cSfS fs ft
  | .w32, .ngle, fs, ft => .cNgleS fs ft
  | .w32, .seq, fs, ft => .cSeqS fs ft
  | .w32, .ngl, fs, ft => .cNglS fs ft
  | .w32, .lt, fs, ft => .cLtS fs ft
  | .w32, .nge, fs, ft => .cNgeS fs ft
  | .w32, .le, fs, ft => .cLeS fs ft
  | .w32, .ngt, fs, ft => .cNgtS fs ft
  | .w64, .f, fs, ft => .cFD fs ft
  | .w64, .un, fs, ft => .cUnD fs ft
  | .w64, .eq, fs, ft => .cEqD fs ft
  | .w64, .ueq, fs, ft => .cUeqD fs ft
  | .w64, .olt, fs, ft => .cOltD fs ft
  | .w64, .ult, fs, ft => .cUltD fs ft
  | .w64, .ole, fs, ft => .cOleD fs ft
  | .w64, .ule, fs, ft => .cUleD fs ft
  | .w64, .sf, fs, ft => .cSfD fs ft
  | .w64, .ngle, fs, ft => .cNgleD fs ft
  | .w64, .seq, fs, ft => .cSeqD fs ft
  | .w64, .ngl, fs, ft => .cNglD fs ft
  | .w64, .lt, fs, ft => .cLtD fs ft
  | .w64, .nge, fs, ft => .cNgeD fs ft
  | .w64, .le, fs, ft => .cLeD fs ft
  | .w64, .ngt, fs, ft => .cNgtD fs ft

/-! ### The columns of the predicate table R181 -/

/-- Column s: the predicate signals Invalid on a QuietNaN. -/
def Cond.signals : Cond → Bool
  | .sf | .ngle | .seq | .ngl | .lt | .nge | .le | .ngt => true
  | .f | .un | .eq | .ueq | .olt | .ult | .ole | .ule => false

/-- Column lt: the C value for less operands. -/
def Cond.onLess : Cond → Bool
  | .olt | .ult | .ole | .ule | .lt | .nge | .le | .ngt => true
  | .f | .un | .eq | .ueq | .sf | .ngle | .seq | .ngl => false

/-- Column eq: the C value for equal operands. -/
def Cond.onEqual : Cond → Bool
  | .eq | .ueq | .ole | .ule | .seq | .ngl | .le | .ngt => true
  | .f | .un | .olt | .ult | .sf | .ngle | .lt | .nge => false

/-- Column un: the C value for unordered operands when no trap occurs. -/
def Cond.onUnordered : Cond → Bool
  | .un | .ueq | .ult | .ule | .ngle | .ngl | .nge | .ngt => true
  | .f | .eq | .olt | .ole | .sf | .seq | .lt | .le => false

/-! ### The rounded real (R15) -/

/-- The rational number a finite value denotes; only finite values are asked for one. -/
def Value.toRat : Value → ℚ
  | .fin neg m e => (signedInt neg m : ℚ) * 2 ^ e
  | .inf _ => 0
  | .nan => 0

/-- Whether a pattern denotes a finite number. -/
def isFinitePattern {w : Width} (b : Pattern w) : Bool := !(classify b).isNaN && !(classify b).isInfinity

/-- The largest finite value plus half its unit in the last place: `(2^24 - 1/2) · 2^104` and `(2^53 - 1/2) · 2^971`
(R15). -/
def overflowBound : Width → ℚ
  | .w32 => (2 ^ 25 - 1) * 2 ^ 103
  | .w64 => (2 ^ 54 - 1) * 2 ^ 970

/-- The unit in the last place of a finite pattern. -/
def ulp {w : Width} (b : Pattern w) : ℚ := 2 ^ ((max 1 (expField b) : Nat) - 1 + w.minExp)

/-- `b` is `bits_w(rne_w(x))` of a real `x`, as R15 defines roundTiesToEven: the nearest finite value, of two nearest
ones the one with an even last significand bit; an infinity from the largest finite value plus half a unit in the last
place on; the sign is that of `x`. A zero `x` leaves the sign of the zero to the operation (R102). -/
structure IsRne (w : Width) (x : ℝ) (b : Pattern w) : Prop where
  negative : x < 0 → signBit b = true
  positive : 0 < x → signBit b = false
  overflow : (overflowBound w : ℝ) ≤ |x| → (classify b).isInfinity = true
  finite : |x| < (overflowBound w : ℝ) → isFinitePattern b = true
  halfUlp : |x| < (overflowBound w : ℝ) → 2 * |x - ((val b).toRat : ℝ)| ≤ (ulp b : ℝ)
  nearest : |x| < (overflowBound w : ℝ) → ∀ c : Pattern w, isFinitePattern c = true →
    |x - ((val b).toRat : ℝ)| ≤ |x - ((val c).toRat : ℝ)|
  even : |x| < (overflowBound w : ℝ) → ∀ c : Pattern w, isFinitePattern c = true →
    |x - ((val b).toRat : ℝ)| = |x - ((val c).toRat : ℝ)| → (val c).toRat ≠ (val b).toRat → b.toNat % 2 = 0

/-! ### Invariants -/

/-- FCR0 holds the identification value (R37), and a signalled trap is explained by the Cause field: Cause.E, or a
cause whose enable bit is set (R253, R254). -/
def State.Inv (s : State) : Prop :=
  s.fcr0 = 0x00000511#32 ∧
    (s.trap = true → causeE s.fcr31 = true ∨ (causes s.fcr31).inter (enables s.fcr31) ≠ .empty)

/-- The states agree on everything but the odd physical slots, which half mode cannot reach (R23). -/
structure SameButOddSlots (s t : State) : Prop where
  even : ∀ k : RegIx, k.val % 2 = 0 → s.slot k = t.slot k
  mode : s.mode = t.mode
  fcr31 : s.fcr31 = t.fcr31
  fcr0 : s.fcr0 = t.fcr0
  requests : s.requests = t.requests
  operand : s.operand = t.operand
  trap : s.trap = t.trap
  reply : s.reply = t.reply

end Machine

end Sys2Proof
end

