-- ==== Sys2Proof/Certificates/Slice0/Obligations.lean ====
section
/-! DEFINITION. The statements about the n64js FPU core for the provers. Each docstring names the rule of spec/ it
formalises, or says that it is derived. The request list, the operand, and the outputs `trap` and `reply`, which are
quiet at the start of a step, are the model's form of the block's inputs and outputs (log entries 1, 3 and 5). -/

open Sys2Proof Sys2Proof.Machine

/-! ### Encoding -/

/-- Tier 3, derived (R62 to R68, R74): decoding the encoding of any instruction gives the instruction back. -/
def Obligations.DecodeEncode : Prop := ∀ i : Instr, decode (encode i) = .ok i

/-- Tier 3, derived (R62 to R72, R74): a word that decodes is exactly the encoding of what it decodes to, so the
decoder drops no bit: must-be-zero fields are checked and no two words mean one instruction. -/
def Obligations.EncodeDecode : Prop := ∀ (w : Word) (i : Instr), decode w = .ok i → encode i = w

/-- Tier 1, derived (R62 to R74): words written out by the spec decode as it says: all fourteen rows of the table of
95_test_vectors.md section 10.2, and one word of the CPU-side transfers, branches and stores. -/
def Obligations.DecodeSamples : Prop :=
  decode 0x46041000#32 = .ok (.addS 0 2 4) ∧ decode 0x46241003#32 = .ok (.divD 0 2 4) ∧
  decode 0x46801021#32 = .ok (.cvtDW 0 2) ∧ decode 0x46A01020#32 = .ok (.cvtSL 0 2) ∧
  decode 0x4604103C#32 = .ok (.cLtS 2 4) ∧ decode 0x44880000#32 = .ok (.mtc1 8 0) ∧
  decode 0x45010002#32 = .ok (.bc1t 2#16) ∧ decode 0xE4820000#32 = .ok (.swc1 2 0#16 4) ∧
  decode 0x46041010#32 = .error .reserved ∧ decode 0x46801000#32 = .error .reserved ∧
  decode 0x46C41000#32 = .error .reserved ∧ decode 0x46041004#32 = .error .reserved ∧
  decode 0x460410B0#32 = .error .reserved ∧ decode 0x46001020#32 = .error .reserved ∧
  decode 0x46201021#32 = .error .reserved ∧ decode 0x00000000#32 = .error .notCop1

/-! ### Steps and requests -/

/-- Tier 1, derived (R7, R57, R72; the request list is the model's DESIGN CHOICE of log entry 1, the operand of the
request that of log entry 3): a step on a command word runs the instruction the word decodes to, on the state with the
request taken and the CPU's operand in place; the CPU's words set no program counter, so nothing else is added around
`exec`. -/
def Obligations.StepRunsDecoded : Prop :=
  ∀ (s : State) (w : Word) (d : DWord) (rest : List Request) (i : Instr),
    s.requests = .command w d :: rest → decode w = .ok i →
      step s = exec i { s with requests := rest, operand := d }

/-- Tier 1, derived (R69, R72, D32, D33; the parameter default of log entry 6): a word that does not decode is refused
by name, whatever the state. -/
def Obligations.UndecodableWordsRefused : Prop :=
  ∀ (s : State) (w : Word) (d : DWord) (rest : List Request), s.requests = .command w d :: rest →
    (decode w = .error .reserved → step s = .refused .reservedWord) ∧
    (decode w = .error .notCop1 → step s = .refused .notCop1)

/-- Tier 1, derived (R270; the zero of FCR31 is the spec's decision D9; that the requests already issued stay is the
model's DESIGN CHOICE of log entry 1): `reset()` sets the whole state of R41, from every state. -/
def Obligations.ResetSetsTheWholeState : Prop :=
  ∀ (s : State) (rest : List Request), s.requests = .reset :: rest →
    ∃ t, step s = .next t ∧ (∀ k, t.slot k = 0#64) ∧ t.mode = .full ∧ t.fcr31 = 0#32 ∧
      t.fcr0 = 0x00000511#32 ∧ t.trap = false ∧ t.requests = rest

/-- Tier 1, derived (R227; that true selects full mode is the spec's decision D19): the addressing toggle selects the
mode and changes nothing else of the block. -/
def Obligations.ToggleKeepsStoredBits : Prop :=
  ∀ (s : State) (full : Bool) (rest : List Request), s.requests = .setAddressingMode full :: rest →
    ∃ t, step s = .next t ∧ t.mode = (if full then Mode.full else Mode.half) ∧ (∀ k, t.slot k = s.slot k) ∧
      t.fcr31 = s.fcr31 ∧ t.fcr0 = s.fcr0 ∧ t.trap = false ∧ t.requests = rest

/-- Tier 2, stated (R273): only `reset()` changes FCR0, and only `reset()` and `set_addressing_mode` change Mode. -/
def Obligations.OnlyResetAndToggleWriteModeAndFcr0 : Prop :=
  ∀ s t : State, step s = .next t →
    (t.fcr0 ≠ s.fcr0 → s.requests.head? = some .reset) ∧
    (t.mode ≠ s.mode → s.requests.head? = some .reset ∨ ∃ full, s.requests.head? = some (.setAddressingMode full))

/-- Tier 3, derived (R37, R253 to R256, R273): the invariant is kept by every step from every state that has it. -/
def Obligations.StepKeepsInv : Prop := ∀ s t : State, s.Inv → step s = .next t → t.Inv

/-- Tier 1, derived (R270, R37): the reset state has the invariant. -/
def Obligations.ResetInv : Prop := State.reset.Inv

/-- Tier 2, derived (R57, R270; log entry 1): a step takes exactly the oldest request from the list; with no request
the block stays as it is, with no output. -/
def Obligations.StepTakesTheOldestRequest : Prop :=
  ∀ s t : State, step s = .next t → t.requests = s.requests.tail ∧
    (s.requests = [] → t = { s with trap := false, reply := .silent })

/-! ### The register file -/

/-- Tier 2, derived (R24, which the spec derives from R20, R22 and R23): a view write replaces exactly the mapped
bits, in both modes: the written view reads back, the other half of the slot is kept by a 32-bit write, every other
slot is kept, and nothing else changes. -/
def Obligations.ViewWritesTouchExactlyTheMappedBits : Prop :=
  ∀ (s : State) (i : RegIx),
    (∀ v : BitVec 32,
      (s.setX32 i v).x32 i = v ∧
      (upperHalf s.mode i = false → highWord ((s.setX32 i v).slot (slotOf s.mode i)) = highWord (s.slot (slotOf s.mode i))) ∧
      (upperHalf s.mode i = true → lowWord ((s.setX32 i v).slot (slotOf s.mode i)) = lowWord (s.slot (slotOf s.mode i))) ∧
      (∀ k, k ≠ slotOf s.mode i → (s.setX32 i v).slot k = s.slot k) ∧
      { s.setX32 i v with p := s.p } = s) ∧
    (∀ v : BitVec 64,
      (s.setX64 i v).slot (slotOf s.mode i) = v ∧
      (∀ k, k ≠ slotOf s.mode i → (s.setX64 i v).slot k = s.slot k) ∧
      { s.setX64 i v with p := s.p } = s)

/-- Tier 2, derived (R22, R23; the last clause is what R23 marks as derived from itself): the mapping of the views to
the physical bits in full and half mode, that registers do not alias in full mode, and that half mode does not reach
the odd slots. -/
def Obligations.ViewMapping : Prop :=
  (∀ (s : State) (i : RegIx), s.mode = .full →
    s.x32 i = (s.slot i).extractLsb' 0 32 ∧ s.x64 i = s.slot i ∧
    ∀ j : RegIx, j ≠ i → (∀ v : BitVec 32, (s.setX32 j v).x64 i = s.x64 i ∧ (s.setX32 j v).x32 i = s.x32 i) ∧
      (∀ v : BitVec 64, (s.setX64 j v).x64 i = s.x64 i ∧ (s.setX64 j v).x32 i = s.x32 i)) ∧
  (∀ (s : State) (i e : RegIx), s.mode = .half → e.val % 2 = 0 → (i = e ∨ i.val = e.val + 1) →
    s.x32 i = (if i = e then (s.slot e).extractLsb' 0 32 else (s.slot e).extractLsb' 32 32) ∧
    s.x64 i = s.slot e) ∧
  (∀ (s : State) (i k : RegIx), s.mode = .half → k.val % 2 = 1 →
    (∀ v : BitVec 32, (s.setX32 i v).slot k = s.slot k) ∧ (∀ v : BitVec 64, (s.setX64 i v).slot k = s.slot k))

/-- Tier 3, derived (R23, R24): in half mode the odd physical slots neither affect nor are affected by any
instruction: two states that differ only in them run alike, and each keeps its own. -/
def Obligations.HalfModeIsolatesOddSlots : Prop :=
  ∀ (i : Instr) (s s' t : State), s.mode = .half → SameButOddSlots s s' → exec i s = .next t →
    ∃ t', exec i s' = .next t' ∧ SameButOddSlots t t' ∧
      (∀ k : RegIx, k.val % 2 = 1 → t.slot k = s.slot k ∧ t'.slot k = s'.slot k)

/-! ### Classification and the case tables -/

/-- Tier 2, stated (R80): the binary32 classifier by its bit fields. -/
def Obligations.Classify32 : Prop :=
  ∀ b : BitVec 32,
    let s := b.extractLsb' 31 1; let e := b.extractLsb' 23 8; let m := b.extractLsb' 0 23; let q := b.extractLsb' 22 1
    classify (w := .w32) b =
      if e = 0xFF#8 then
        (if m = 0#23 then (if s = 0#1 then .posInfinity else .negInfinity)
         else if q = 1#1 then .quietNaN else .signalingNaN)
      else if e = 0#8 then (if m = 0#23 then (if s = 0#1 then .posZero else .negZero) else .denormal)
      else .normal

/-- Tier 2, stated (R81): the binary64 classifier by its bit fields. -/
def Obligations.Classify64 : Prop :=
  ∀ b : BitVec 64,
    let s := b.extractLsb' 63 1; let e := b.extractLsb' 52 11; let m := b.extractLsb' 0 52; let q := b.extractLsb' 51 1
    classify (w := .w64) b =
      if e = 0x7FF#11 then
        (if m = 0#52 then (if s = 0#1 then .posInfinity else .negInfinity)
         else if q = 1#1 then .quietNaN else .signalingNaN)
      else if e = 0#11 then (if m = 0#52 then (if s = 0#1 then .posZero else .negZero) else .denormal)
      else .normal

/-- Tier 1, derived (R85, the spec's decision D6): the precedence of every table: Unimplemented for any SignalingNaN
or Denormal operand, then Invalid for any QuietNaN operand, then DivideByZero, which is Division's alone and needs a
Zero divisor and a Normal or Infinity dividend. -/
def Obligations.TablePrecedence : Prop :=
  (∀ (op : BinaryOp) (ca cb : FloatClass),
    (op.table ca cb = .unimplemented ↔ (ca = .signalingNaN ∨ ca = .denormal ∨ cb = .signalingNaN ∨ cb = .denormal)) ∧
    (op.table ca cb ≠ .unimplemented → (ca = .quietNaN ∨ cb = .quietNaN) → op.table ca cb = .invalid) ∧
    (op.table ca cb = .divideByZero ↔ (op = .div ∧ cb.isZero = true ∧ (ca = .normal ∨ ca.isInfinity = true)))) ∧
  (∀ (op : UnaryOp) (c : FloatClass),
    (op.table c = .unimplemented ↔ (c = .signalingNaN ∨ c = .denormal)) ∧
    (op.table c = .invalid ↔ (c = .quietNaN ∨ (op = .sqrt ∧ c = .negInfinity))))

/-- Tier 2, derived (R102): no input the tables send to an arithmetic case has a NaN native result. -/
def Obligations.NativeIsNeverNaN : Prop :=
  (∀ (op : BinaryOp) (w : Width) (a b : Pattern w),
    op.table (classify a) (classify b) ≠ .unimplemented → op.table (classify a) (classify b) ≠ .invalid →
    op.table (classify a) (classify b) ≠ .divideByZero →
    (classify (op.native (val a) (val b))).isNaN = false) ∧
  (∀ (op : UnaryOp) (w : Width) (a : Pattern w), unaryCase op a ≠ .unimplemented → unaryCase op a ≠ .invalid →
    (classify (op.native (val a))).isNaN = false)

/-! ### Numbers -/

/-- Tier 2, stated (R145): the four rounding functions on the rational `± num / den`: nearest with ties to even,
toward zero, the least integer not below, the greatest integer not above. `x` is `± num`, compared with `r · den`. -/
def Obligations.RoundingFunctions : Prop :=
  ∀ (neg : Bool) (num den : Nat), 0 < den →
    let x : Int := signedInt neg num
    let d : Int := den
    (let r := roundQuot .floor neg num den; r * d ≤ x ∧ x < (r + 1) * d) ∧
    (let r := roundQuot .ceiling neg num den; x ≤ r * d ∧ (r - 1) * d < x) ∧
    (let r := roundQuot .truncate neg num den;
      (0 ≤ x → r * d ≤ x ∧ x < (r + 1) * d) ∧ (x ≤ 0 → x ≤ r * d ∧ (r - 1) * d < x)) ∧
    (let r := roundQuot .nearestEven neg num den;
      2 * (x - r * d) ≤ d ∧ -d ≤ 2 * (x - r * d) ∧ ((2 * (x - r * d) = d ∨ 2 * (x - r * d) = -d) → r % 2 = 0))

/-- Tier 2, derived (R15, R102): rounding is the identity on representable values: the pattern of the value a pattern
denotes is that pattern, for every pattern that is no NaN, at both widths. -/
def Obligations.RoundOfValIsIdentity : Prop :=
  ∀ (w : Width) (b : Pattern w), (classify b).isNaN = false → round w (val b) = b

/-- Tier 2, derived (R15, which takes the definition of roundTiesToEven from general knowledge): `rne32` and `rne64`
of the real `± num / den · 2^e`, and of every finite value, is the nearest finite value of the format, within half a
unit in the last place, the one with an even last significand bit of two nearest ones, and infinite from the largest
finite value plus half a unit on (`IsRne`); the sign is the one asked for, also that of a zero; a signed infinity
rounds to itself. The magnitude is monotone in the numerator and never passes infinity. -/
def Obligations.RoundingIsNearestEven : Prop :=
  (∀ (w : Width) (neg : Bool) (num den : Nat) (e : Int), 0 < den →
    IsRne w (((if neg then -1 else 1) * ((num : ℚ) / den * 2 ^ e) : ℚ) : ℝ) (roundReal w neg num den e) ∧
    signBit (roundReal w neg num den e) = neg) ∧
  (∀ (w : Width) (neg : Bool) (m : Nat) (e : Int),
    IsRne w ((Value.fin neg m e).toRat : ℝ) (round w (.fin neg m e)) ∧ signBit (round w (.fin neg m e)) = neg) ∧
  (∀ neg : Bool, round .w32 (.inf neg) = (if neg then 0xFF800000#32 else 0x7F800000#32) ∧
    round .w64 (.inf neg) = (if neg then 0xFFF0000000000000#64 else 0x7FF0000000000000#64)) ∧
  (∀ (w : Width) (num num' den : Nat) (e : Int), 0 < den → num ≤ num' →
    roundMag w num den e ≤ roundMag w num' den e ∧ roundMag w num' den e ≤ infMag w)

/-- Tier 2, derived (R180): exactly one of less, equal, greater and unordered holds of any two patterns. -/
def Obligations.ExactlyOneRelation : Prop :=
  ∀ (w : Width) (a b : Pattern w),
    let l := (val a).numLt (val b); let e := (val a).numEq (val b); let g := (val b).numLt (val a)
    let u := (classify a).isNaN || (classify b).isNaN
    (l.toNat + e.toNat + g.toNat + u.toNat = 1)

/-! ### The exception protocol -/

/-- Tier 1, derived (R252): ClearCause clears FCR31[17:12] and no other bit. -/
def Obligations.ClearCauseClearsOnlyCause : Prop :=
  ∀ (f : BitVec 32) (k : Nat), k < 32 →
    (clearCauseBits f).getLsbD k = if 12 ≤ k ∧ k ≤ 17 then false else f.getLsbD k

/-- Tier 1, stated (R254): raiseUnimplemented sets Cause.E (bit 17) and signals FPE, and changes nothing else. -/
def Obligations.RaiseUnimplementedSetsCauseE : Prop :=
  ∀ s : State, raiseUnimplemented s = { s with fcr31 := s.fcr31 ||| 0x00020000#32, trap := true }

/-- Tier 2, derived (R253; the last clause is the consequence R253 marks as derived from itself): the four steps of
Dispatch: with no bit the commit runs at once; an underflow that fails the flag-path rule raises Unimplemented;
otherwise any enabled bit traps with the Cause bits set and no commit; otherwise the commit runs with Flag and Cause
bits set. `x.toBits` has I at bit 0 up to V at bit 4. Every set with U the arithmetic engine forms is exactly {I, U}.
-/
def Obligations.DispatchProtocol : Prop :=
  ∀ (x : ExcSet) (commit : State → State) (s : State),
    let en := enables s.fcr31
    let eligible := !en.u && !en.i && flushSubnormals s.fcr31
    let anyEnabled := x.i && en.i || x.u && en.u || x.o && en.o || x.z && en.z || x.v && en.v
    (x = ⟨false, false, false, false, false⟩ → dispatchThen x commit s = commit s) ∧
    (x.u = true → eligible = false → dispatchThen x commit s = raiseUnimplemented s) ∧
    ((x.u = true → eligible = true) → anyEnabled = true →
      dispatchThen x commit s = { s with fcr31 := s.fcr31 ||| (x.toBits <<< 12), trap := true }) ∧
    (x ≠ ⟨false, false, false, false, false⟩ → (x.u = true → eligible = true) → anyEnabled = false →
      dispatchThen x commit s =
        commit { s with fcr31 := (s.fcr31 ||| (x.toBits <<< 2)) ||| (x.toBits <<< 12) }) ∧
    (∀ (q : Config.Params) (op : BinaryOp) (w : Width) (a b pre : Pattern w) (nat : Pattern .w64),
      (binaryBits q op a b pre nat).u = true → binaryBits q op a b pre nat = ⟨true, true, false, false, false⟩)

/-- Tier 3, stated (R40, R257): a trap is all-or-nothing, for every instruction: when the transition signals FPE, no
register, no mode and no bit of FCR31 outside Cause has changed, and no reply is given. -/
def Obligations.TrapsArePrecise : Prop :=
  ∀ (i : Instr) (s t : State), exec i s = .next t → t.trap = true →
    (∀ k, t.slot k = s.slot k) ∧ t.mode = s.mode ∧ t.fcr0 = s.fcr0 ∧ t.requests = s.requests ∧
    t.operand = s.operand ∧ t.reply = .silent ∧
    (∀ k : Nat, k < 32 → ¬ (12 ≤ k ∧ k ≤ 17) → t.fcr31.getLsbD k = s.fcr31.getLsbD k)

/-- Tier 3, derived (R253, R254, R256): after any operation FPE is signalled exactly when Cause.E is set or some cause
has its enable bit set. -/
def Obligations.TrapExactlyWhenCauseEnabled : Prop :=
  ∀ (i : Instr) (s t : State), i.isOperation = true → exec i s = .next t →
    (t.trap = true ↔ (causeE t.fcr31 = true ∨ (causes t.fcr31).inter (enables t.fcr31) ≠ .empty))

/-- Tier 2, derived (R31): flags are sticky: no operation clears a flag, a trapping operation sets none, and a flag an
operation sets is one of its causes. -/
def Obligations.FlagsAreSticky : Prop :=
  ∀ (i : Instr) (s t : State), i.isOperation = true → exec i s = .next t →
    (∀ k : Nat, 2 ≤ k → k ≤ 6 → s.fcr31.getLsbD k = true → t.fcr31.getLsbD k = true) ∧
    (t.trap = true → flags t.fcr31 = flags s.fcr31) ∧
    (t.trap = false → flags t.fcr31 = (flags s.fcr31).union (causes t.fcr31))

/-- Tier 2, derived (R29, R30, R32, R35, R36): no operation writes RM, Enable, FS or a reserved bit of FCR31. -/
def Obligations.OperationsKeepControlFields : Prop :=
  ∀ (i : Instr) (s t : State), i.isOperation = true → exec i s = .next t →
    ∀ k : Nat, k < 32 → (k < 2 ∨ (7 ≤ k ∧ k ≤ 11) ∨ (18 ≤ k ∧ k ≤ 22) ∨ 24 ≤ k) →
      t.fcr31.getLsbD k = s.fcr31.getLsbD k

/-- Tier 2, derived (R33): cause reflects only the latest operation: what an operation does does not depend on the
Cause field before it. -/
def Obligations.CauseIsPerOperation : Prop :=
  ∀ (i : Instr) (s : State), i.isOperation = true → exec i s = exec i { s with fcr31 := clearCauseBits s.fcr31 }

/-- Tier 2, derived (R104, R141): Overflow is always paired with Inexact, whatever the enables. -/
def Obligations.OverflowComesWithInexact : Prop :=
  ∀ (i : Instr) (s t : State), i.isOperation = true → exec i s = .next t →
    (causes t.fcr31).o = true → (causes t.fcr31).i = true

/-- Tier 2, derived (R253): an operation reports Underflow only on the flag path: with FS = 1 and Enable.U = Enable.I
= 0, together with Inexact and nothing else, as sticky flags, and without a trap. -/
def Obligations.UnderflowOnlyOnTheFlagPath : Prop :=
  ∀ (i : Instr) (s t : State), i.isOperation = true → exec i s = .next t → (causes t.fcr31).u = true →
    t.trap = false ∧ flushSubnormals s.fcr31 = true ∧ (enables s.fcr31).u = false ∧ (enables s.fcr31).i = false ∧
    causes t.fcr31 = ⟨true, true, false, false, false⟩ ∧ (flags t.fcr31).u = true ∧ (flags t.fcr31).i = true

/-- Tier 2, derived (R10): determinism of the operations: every operation answers a next state, and what it leaves in
the register file, in FCR31 and on the trap output is a function of the register file, the addressing mode and FCR31.
-/
def Obligations.OperationsDependOnlyOnRegistersModeAndFcr31 : Prop :=
  ∀ (i : Instr) (s s' : State), i.isOperation = true → s.p = s'.p → s.mode = s'.mode → s.fcr31 = s'.fcr31 →
    ∃ t t', exec i s = .next t ∧ exec i s' = .next t' ∧ t.p = t'.p ∧ t.fcr31 = t'.fcr31 ∧ t.trap = t'.trap

/-! ### Completion and frames -/

/-- Tier 2, derived (R230, R233, R251, D30): every well-formed instruction answers a next state in every state, and an
ill-formed one is a CFC1 or CTC1 of a control register the block does not have, and is refused by that register's
number. -/
def Obligations.WellFormedInstructionsComplete : Prop :=
  ∀ (i : Instr) (s : State),
    (WellFormed i → ∃ t, exec i s = .next t) ∧
    (¬ WellFormed i → ∃ rt n : RegIx, (i = .cfc1 rt n ∨ i = .ctc1 rt n) ∧ n ≠ 0 ∧ n ≠ 31 ∧
      exec i s = .refused (.noControlRegister n))

/-- Tier 2, derived (R24, R180, R228 to R241): the frame of every instruction: no slot but that of the destination
register changes (none at all for comparisons, stores, reads and branches), a 32-bit destination keeps the other half
of its slot, and mode, FCR0, the requests and the operand are unchanged. -/
def Obligations.InstructionsWriteOnlyTheirDestination : Prop :=
  ∀ (i : Instr) (s t : State), exec i s = .next t →
    (∀ k, (∀ w fd, i.dest = .reg w fd → k ≠ slotOf s.mode fd) → t.slot k = s.slot k) ∧
    (∀ fd, i.dest = .reg .w32 fd →
      (upperHalf s.mode fd = false → highWord (t.slot (slotOf s.mode fd)) = highWord (s.slot (slotOf s.mode fd))) ∧
      (upperHalf s.mode fd = true → lowWord (t.slot (slotOf s.mode fd)) = lowWord (s.slot (slotOf s.mode fd)))) ∧
    t.mode = s.mode ∧ t.fcr0 = s.fcr0 ∧ t.requests = s.requests ∧ t.operand = s.operand

/-- Tier 2, derived (R34, R180, R225): the frame of FCR31: arithmetic and conversions keep C; comparisons keep every
flag but V; CPU-side words other than CTC1 keep all of FCR31. -/
def Obligations.Fcr31Frame : Prop :=
  ∀ (i : Instr) (s t : State), exec i s = .next t →
    (i.isOperation = true → i.dest ≠ .cond → condition t.fcr31 = condition s.fcr31) ∧
    (i.isOperation = true → i.dest = .cond → ∀ k : Nat, 2 ≤ k → k ≤ 5 → t.fcr31.getLsbD k = s.fcr31.getLsbD k) ∧
    (i.isOperation = false → i.dest ≠ .control → t.fcr31 = s.fcr31)

/-! ### Arithmetic -/

/-- Tier 1, derived (R98, R89 to R92): ADD, SUB, MUL, DIV, SQRT, ABS, NEG .S and .D with a SignalingNaN or Denormal
operand trap with Cause.E and write nothing. -/
def Obligations.ArithmeticUnimplemented : Prop :=
  (∀ (op : BinaryOp) (w : Width) (fd fs ft : RegIx) (s : State),
    (classify (s.view w fs) = .signalingNaN ∨ classify (s.view w fs) = .denormal ∨
      classify (s.view w ft) = .signalingNaN ∨ classify (s.view w ft) = .denormal) →
    exec (binaryInstr op w fd fs ft) s =
      .next { s with fcr31 := clearCauseBits s.fcr31 ||| 0x00020000#32, trap := true, reply := .silent }) ∧
  (∀ (op : UnaryOp) (w : Width) (fd fs : RegIx) (s : State),
    (classify (s.view w fs) = .signalingNaN ∨ classify (s.view w fs) = .denormal) →
    exec (unaryInstr op w fd fs) s =
      .next { s with fcr31 := clearCauseBits s.fcr31 ||| 0x00020000#32, trap := true, reply := .silent })

/-- Tier 2, derived (R99, R101, R89 to R92; the 64-bit pattern is the spec's decision D4): the Invalid path, by the
operand classes: a QuietNaN operand, infinities of opposite sign added or of equal sign subtracted, zero times
infinity, zero by zero, infinity by infinity, the root of −∞ or of a negative Normal. With Enable.V = 0 the canonical
signaling NaN is written and Flag.V and Cause.V are set; with Enable.V = 1 the operation traps with Cause.V and writes
nothing. Both canonical patterns classify as SignalingNaN. -/
def Obligations.ArithmeticInvalid : Prop :=
  let after (w : Width) (fd : RegIx) (s : State) : State :=
    if (enables s.fcr31).v then
      { s with fcr31 := clearCauseBits s.fcr31 ||| 0x00010000#32, trap := true, reply := .silent }
    else
      ({ s with fcr31 := clearCauseBits s.fcr31 ||| 0x00010040#32, trap := false, reply := .silent } : State).setView w fd
        (match w with | .w32 => 0x7FBFFFFF#32 | .w64 => 0x7FF7FFFFFFFFFFFF#64)
  (∀ (op : BinaryOp) (w : Width) (fd fs ft : RegIx) (s : State),
    let ca := classify (s.view w fs); let cb := classify (s.view w ft)
    ca ≠ .signalingNaN → ca ≠ .denormal → cb ≠ .signalingNaN → cb ≠ .denormal →
    (ca = .quietNaN ∨ cb = .quietNaN ∨
      (op = .add ∧ ca.isInfinity = true ∧ cb.isInfinity = true ∧ ca ≠ cb) ∨
      (op = .sub ∧ ca.isInfinity = true ∧ ca = cb) ∨
      (op = .mul ∧ (ca.isZero = true ∧ cb.isInfinity = true ∨ ca.isInfinity = true ∧ cb.isZero = true)) ∨
      (op = .div ∧ (ca.isZero = true ∧ cb.isZero = true ∨ ca.isInfinity = true ∧ cb.isInfinity = true))) →
    exec (binaryInstr op w fd fs ft) s = .next (after w fd s)) ∧
  (∀ (op : UnaryOp) (w : Width) (fd fs : RegIx) (s : State),
    (classify (s.view w fs) = .quietNaN ∨
      (op = .sqrt ∧ (classify (s.view w fs) = .negInfinity ∨
        (classify (s.view w fs) = .normal ∧ (s.view w fs).getLsbD (w.bits - 1) = true)))) →
    exec (unaryInstr op w fd fs) s = .next (after w fd s)) ∧
  classify (w := .w32) 0x7FBFFFFF#32 = .signalingNaN ∧ classify (w := .w64) 0x7FF7FFFFFFFFFFFF#64 = .signalingNaN

/-- Tier 2, derived (R92, R100, R252, R253; R92 marks Infinity by Zero as derived): DIV.S and DIV.D of a Normal or an
Infinity by a Zero: with Enable.Z = 0 the infinity whose sign is the XOR of the operand signs is written and Flag.Z
and Cause.Z are set; with Enable.Z = 1 the division traps with Cause.Z and writes nothing. -/
def Obligations.DivideByZero : Prop :=
  ∀ (w : Width) (fd fs ft : RegIx) (s : State),
    let a := s.view w fs; let b := s.view w ft
    (classify a = .normal ∨ (classify a).isInfinity = true) → (classify b).isZero = true →
    exec (binaryInstr .div w fd fs ft) s = .next
      (if (enables s.fcr31).z then
        { s with fcr31 := clearCauseBits s.fcr31 ||| 0x00008000#32, trap := true, reply := .silent }
      else
        ({ s with fcr31 := clearCauseBits s.fcr31 ||| 0x00008020#32, trap := false, reply := .silent } : State).setView w fd
          (match w, (a.getLsbD (w.bits - 1) ^^ b.getLsbD (w.bits - 1)) with
            | .w32, false => 0x7F800000#32
            | .w32, true => 0xFF800000#32
            | .w64, false => 0x7FF0000000000000#64
            | .w64, true => 0xFFF0000000000000#64))

/-- Tier 2, derived (R96, R102 to R108, R253; that ADD.D and SUB.D never apply the equal-pattern rule is the parameter
default D7 of log entry 8): ADD, SUB, MUL, DIV .S and .D on finite or infinite operands of an arithmetic case, without
underflow, whatever the enables. O is raised when a result of finite operands is infinite, and I when it overflowed,
when a binary32 result differs numerically from the native one, or when the binary32 Add and Sub rule of equal
patterns applies. With no raised bit enabled the operation completes, writes the stored native result and sets exactly
these bits in Flag and Cause; with one enabled it traps with these bits in Cause and writes nothing. -/
def Obligations.BinaryArithmeticCompletes : Prop :=
  ∀ (op : BinaryOp) (w : Width) (fd fs ft : RegIx) (s : State),
    let a := s.view w fs; let b := s.view w ft
    let nat := op.native (val a) (val b)
    let sb := store w nat
    let overflow : Bool := (classify sb).isInfinity && !(classify a).isInfinity && !(classify b).isInfinity
    let changed : Bool := w == .w32 && !(val sb).numEq (val nat)
    let equalPattern : Bool := (op == .add || op == .sub) && w == .w32 &&
      (sb == a && !(classify b).isZero || sb == b && !(classify a).isZero)
    let inexact : Bool := overflow || changed || equalPattern
    let enabled : Bool := inexact && (enables s.fcr31).i || overflow && (enables s.fcr31).o
    op.table (classify a) (classify b) ∉ [OperationCase.unimplemented, .invalid, .divideByZero] →
    ((classify sb = .denormal ∨ (classify sb).isZero = true) → (classify nat).isZero = true) →
    (enabled = false → exec (binaryInstr op w fd fs ft) s = .next
      (({ s with
          fcr31 := clearCauseBits s.fcr31 |||
            (if overflow then 0x00005014#32 else if inexact then 0x00001004#32 else 0#32)
          trap := false, reply := .silent } : State).setView w fd sb)) ∧
    (enabled = true → exec (binaryInstr op w fd fs ft) s = .next
      { s with
        fcr31 := clearCauseBits s.fcr31 ||| (if overflow then 0x00005000#32 else 0x00001000#32)
        trap := true, reply := .silent })

/-- Tier 2, derived (R105, R106, R253; the sign and the 64-bit column are the spec's decisions D20 and D5): the
underflow of a binary operation: with FS = 1 and Enable.U = Enable.I = 0 the table entry of RM and the sign of the
native result is written and Flag and Cause get I and U; in every other case the operation traps with Cause.E and
writes nothing. -/
def Obligations.UnderflowSubstitution : Prop :=
  ∀ (op : BinaryOp) (w : Width) (fd fs ft : RegIx) (s : State),
    let a := s.view w fs; let b := s.view w ft
    let nat := op.native (val a) (val b)
    let sb := store w nat
    let neg := nat.getLsbD 63
    let entry : Pattern w := match w, roundingMode s.fcr31, neg with
      | .w32, .floor, true => 0x80800000#32
      | .w32, .ceiling, false => 0x00800000#32
      | .w32, _, true => 0x80000000#32
      | .w32, _, false => 0x00000000#32
      | .w64, .floor, true => 0x8010000000000000#64
      | .w64, .ceiling, false => 0x0010000000000000#64
      | .w64, _, true => 0x8000000000000000#64
      | .w64, _, false => 0x0000000000000000#64
    op.table (classify a) (classify b) ∉ [OperationCase.unimplemented, .invalid, .divideByZero] →
    (classify sb = .denormal ∨ (classify sb).isZero = true) → (classify nat).isZero = false →
    exec (binaryInstr op w fd fs ft) s = .next
      (if flushSubnormals s.fcr31 = true ∧ (enables s.fcr31).u = false ∧ (enables s.fcr31).i = false then
        ({ s with fcr31 := clearCauseBits s.fcr31 ||| 0x0000300C#32, trap := false, reply := .silent } : State).setView w fd entry
      else { s with fcr31 := clearCauseBits s.fcr31 ||| 0x00020000#32, trap := true, reply := .silent })

/-- Tier 2, derived (R103, R118, R119; that ADD.D and SUB.D never apply the equal-pattern rule is the parameter
default D7 of log entry 8): no 64-bit ADD, SUB, MUL or DIV reports Inexact without Overflow or Underflow, and the
64-bit SQRT, ABS and NEG never report Inexact at all. -/
def Obligations.DoubleArithmeticNeverInexactAlone : Prop :=
  (∀ (op : BinaryOp) (fd fs ft : RegIx) (s t : State), exec (binaryInstr op .w64 fd fs ft) s = .next t →
    (causes t.fcr31).i = true → (causes t.fcr31).o = true ∨ (causes t.fcr31).u = true) ∧
  (∀ (op : UnaryOp) (fd fs : RegIx) (s t : State), exec (unaryInstr op .w64 fd fs) s = .next t →
    (causes t.fcr31).i = false)

/-- Tier 2, derived (R112, R113; C3): x − x is +0 with no exception for every Normal or Zero x, at both widths and with
any enables. -/
def Obligations.SubSelfIsPosZero : Prop :=
  ∀ (w : Width) (fd fs : RegIx) (s : State),
    (classify (s.view w fs) = .normal ∨ (classify (s.view w fs)).isZero = true) →
    exec (binaryInstr .sub w fd fs fs) s =
      .next (({ s with fcr31 := clearCauseBits s.fcr31, trap := false, reply := .silent } : State).setView w fd 0)

/-- Tier 2, derived (R110, R111; C2): x + (+0) is x, bit for bit and with no exception, for every Normal or PosZero x.
-/
def Obligations.AddPosZeroIsIdentity : Prop :=
  ∀ (w : Width) (fd fs ft : RegIx) (s : State),
    (classify (s.view w fs) = .normal ∨ classify (s.view w fs) = .posZero) → classify (s.view w ft) = .posZero →
    exec (binaryInstr .add w fd fs ft) s =
      .next (({ s with fcr31 := clearCauseBits s.fcr31, trap := false, reply := .silent } : State).setView w fd (s.view w fs))

/-- Tier 2, derived (R97, R102 to R104, R253): SQRT.S and SQRT.D of +0, −0, +∞ and positive Normals, whatever the
enables: O and I are raised if a finite operand gave an infinite root, I if the binary32 root differs from the native
one, and nothing else. With no raised bit enabled the root completes, writes the stored native root and sets exactly
these bits in Flag and Cause; with one enabled it traps with these bits in Cause and writes nothing. -/
def Obligations.SqrtCompletes : Prop :=
  ∀ (w : Width) (fd fs : RegIx) (s : State),
    let a := s.view w fs
    let nat := sqrtNative (val a)
    let sb := store w nat
    let overflow : Bool := (classify sb).isInfinity && !(classify a).isInfinity
    let inexact : Bool := overflow || w == .w32 && !(val sb).numEq (val nat)
    let enabled : Bool := inexact && (enables s.fcr31).i || overflow && (enables s.fcr31).o
    ((classify a = .normal ∧ a.getLsbD (w.bits - 1) = false) ∨ (classify a).isZero = true ∨ classify a = .posInfinity) →
    (enabled = false → exec (unaryInstr .sqrt w fd fs) s = .next
      (({ s with
          fcr31 := clearCauseBits s.fcr31 |||
            (if overflow then 0x00005014#32 else if inexact then 0x00001004#32 else 0#32)
          trap := false, reply := .silent } : State).setView w fd sb)) ∧
    (enabled = true → exec (unaryInstr .sqrt w fd fs) s = .next
      { s with
        fcr31 := clearCauseBits s.fcr31 ||| (if overflow then 0x00005000#32 else 0x00001000#32)
        trap := true, reply := .silent })

/-- Tier 2, derived (R120 to R123): ABS and NEG .S and .D of a Normal, Zero or Infinity complete with no exception and
clear or flip the sign bit of the pattern. -/
def Obligations.AbsAndNegChangeTheSignBit : Prop :=
  ∀ (w : Width) (fd fs : RegIx) (s : State),
    let a := s.view w fs
    (classify a = .normal ∨ (classify a).isZero = true ∨ (classify a).isInfinity = true) →
    exec (unaryInstr .abs w fd fs) s =
      .next (({ s with fcr31 := clearCauseBits s.fcr31, trap := false, reply := .silent } : State).setView w fd
        (a &&& ~~~(BitVec.ofNat w.bits (2 ^ (w.bits - 1))))) ∧
    exec (unaryInstr .neg w fd fs) s =
      .next (({ s with fcr31 := clearCauseBits s.fcr31, trap := false, reply := .silent } : State).setView w fd
        (a ^^^ BitVec.ofNat w.bits (2 ^ (w.bits - 1))))

/-- Tier 1, derived (R109, the spec's decision D16): MOV.S and MOV.D copy the pattern through the views of their
width, clear the cause field, raise no exception and never trap. -/
def Obligations.MoveCopiesThePattern : Prop :=
  ∀ (w : Width) (fd fs : RegIx) (s : State),
    exec (moveInstr w fd fs) s =
      .next (({ s with fcr31 := clearCauseBits s.fcr31, trap := false, reply := .silent } : State).setView w fd (s.view w fs))

/-! ### Conversions -/

/-- Tier 2, derived (R142; the 64-bit NaN pattern is the spec's decision D4): CVT.D.S: a SignalingNaN or Denormal
traps with Cause.E; a QuietNaN takes the Invalid path; an infinity is written with its sign; a Normal or Zero is
widened exactly: the result has the source's value and sign, with no exception. -/
def Obligations.WideningIsExact : Prop :=
  ∀ (fd fs : RegIx) (s : State),
    let a := s.view .w32 fs
    let s0 : State := { s with fcr31 := clearCauseBits s.fcr31, trap := false, reply := .silent }
    ((classify a = .signalingNaN ∨ classify a = .denormal) →
      exec (.cvtDS fd fs) s =
        .next { s with fcr31 := clearCauseBits s.fcr31 ||| 0x00020000#32, trap := true, reply := .silent }) ∧
    (classify a = .quietNaN → exec (.cvtDS fd fs) s = .next
      (if (enables s.fcr31).v then { s0 with fcr31 := clearCauseBits s.fcr31 ||| 0x00010000#32, trap := true }
       else ({ s0 with fcr31 := clearCauseBits s.fcr31 ||| 0x00010040#32 } : State).setX64 fd 0x7FF7FFFFFFFFFFFF#64)) ∧
    (classify a = .posInfinity → exec (.cvtDS fd fs) s = .next (s0.setX64 fd 0x7FF0000000000000#64)) ∧
    (classify a = .negInfinity → exec (.cvtDS fd fs) s = .next (s0.setX64 fd 0xFFF0000000000000#64)) ∧
    ((classify a = .normal ∨ (classify a).isZero = true) →
      ∃ d : BitVec 64, exec (.cvtDS fd fs) s = .next (s0.setX64 fd d) ∧
        (val (w := .w64) d).numEq (val a) = true ∧ d.getLsbD 63 = a.getLsbD 31)

/-- Tier 2, derived (R141, R150, R253): CVT.S.D: the class handling of the narrowing, and on a Normal or Zero source,
whatever the enables: I is raised when the value of the rounded pattern differs from the source, O and I when it is
infinite. With no raised bit enabled the narrowing completes, writes the rounded pattern and sets exactly these bits
in Flag and Cause; with one enabled it traps with these bits in Cause and writes nothing. -/
def Obligations.Narrowing : Prop :=
  ∀ (fd fs : RegIx) (s : State),
    let a := s.view .w64 fs
    let y : Pattern .w32 := round .w32 (val a)
    let s0 : State := { s with fcr31 := clearCauseBits s.fcr31, trap := false, reply := .silent }
    let overflow : Bool := (classify y).isInfinity
    let inexact : Bool := overflow || !(val y).numEq (val a)
    let bits : BitVec 32 := if overflow then 5#32 else if inexact then 1#32 else 0#32
    let enabled : Bool := inexact && (enables s.fcr31).i || overflow && (enables s.fcr31).o
    ((classify a = .signalingNaN ∨ classify a = .denormal) →
      exec (.cvtSD fd fs) s =
        .next { s with fcr31 := clearCauseBits s.fcr31 ||| 0x00020000#32, trap := true, reply := .silent }) ∧
    (classify a = .quietNaN → exec (.cvtSD fd fs) s = .next
      (if (enables s.fcr31).v then { s0 with fcr31 := clearCauseBits s.fcr31 ||| 0x00010000#32, trap := true }
       else ({ s0 with fcr31 := clearCauseBits s.fcr31 ||| 0x00010040#32 } : State).setX32 fd 0x7FBFFFFF#32)) ∧
    (classify a = .posInfinity → exec (.cvtSD fd fs) s = .next (s0.setX32 fd 0x7F800000#32)) ∧
    (classify a = .negInfinity → exec (.cvtSD fd fs) s = .next (s0.setX32 fd 0xFF800000#32)) ∧
    ((classify a = .normal ∨ (classify a).isZero = true) →
      (enabled = false →
        exec (.cvtSD fd fs) s = .next
          (({ s0 with fcr31 := clearCauseBits s.fcr31 ||| (bits <<< 2) ||| (bits <<< 12) } : State).setX32 fd y)) ∧
      (enabled = true →
        exec (.cvtSD fd fs) s = .next { s0 with fcr31 := clearCauseBits s.fcr31 ||| (bits <<< 12), trap := true }))

/-- Tier 2, derived (R143; the double rounding of .S results is the spec's decision D15): CVT.S.W, CVT.S.L, CVT.D.W,
CVT.D.L complete in every state with no exception: the result is `rne64` of the integer, rounded once more to binary32
for a .S destination, and only Cause is cleared. The cast is exact for CVT.D.W; it is not always exact for the other
three, and still flags nothing. -/
def Obligations.IntegerToFloatNeverRaises : Prop :=
  let real (n : Int) : Value := .fin (decide (n < 0)) n.natAbs 0
  let cast (dst : Width) (n : Int) : Pattern dst :=
    let d : Pattern .w64 := round .w64 (real n)
    match dst with | .w32 => round .w32 (val d) | .w64 => d
  (∀ (src dst : Width) (fd fs : RegIx) (s : State),
    exec (intToFloatInstr src dst fd fs) s =
      .next (({ s with fcr31 := clearCauseBits s.fcr31, trap := false, reply := .silent } : State).setView dst fd
        (cast dst (s.view src fs).toInt))) ∧
  (∀ n : BitVec 32, (val (cast .w64 n.toInt)).numEq (real n.toInt) = true) ∧
  (∃ n : BitVec 32, (val (cast .w32 n.toInt)).numEq (real n.toInt) = false) ∧
  (∃ n : BitVec 64, (val (cast .w32 n.toInt)).numEq (real n.toInt) = false) ∧
  (∃ n : BitVec 64, (val (cast .w64 n.toInt)).numEq (real n.toInt) = false)

/-- Tier 2, derived (R144, R146): the twenty float-to-integer conversions trap with Cause.E on a NaN, Infinity or
Denormal source, and from .S to .L on a magnitude of 2^56 or more, and write nothing. -/
def Obligations.FloatToIntegerUnimplemented : Prop :=
  ∀ (m : FixedMode) (w n : Width) (fd fs : RegIx) (s : State),
    let a := s.view w fs
    ((classify a).isNaN = true ∨ (classify a).isInfinity = true ∨ classify a = .denormal ∨
      (w = .w32 ∧ n = .w64 ∧ ∃ neg mant e, val a = .fin neg mant e ∧ 2 ^ 56 * 2 ^ (-e).toNat ≤ mant * 2 ^ e.toNat)) →
    exec (floatToIntInstr m w n fd fs) s =
      .next { s with fcr31 := clearCauseBits s.fcr31 ||| 0x00020000#32, trap := true, reply := .silent }

/-- Tier 2, derived (R144 to R149; the parameter default wrap of log entry 7): the twenty float-to-integer conversions
on a Normal or Zero source below the .S to .L limit: the value is rounded by the instruction's mode (FCR31.RM for CVT)
to an integer r, the two's-complement pattern of r modulo 2^N is written, and Flag.I and Cause.I are set exactly when r
differs from the value; with Enable.I = 1 an inexact conversion traps with Cause.I and writes nothing. -/
def Obligations.FloatToIntegerCompletes : Prop :=
  ∀ (m : FixedMode) (w n : Width) (fd fs : RegIx) (s : State) (neg : Bool) (mant : Nat) (e : Int),
    let a := s.view w fs
    let r := roundQuot (modeOf m s.fcr31) neg (mant * 2 ^ e.toNat) (2 ^ (-e).toNat)
    let exact : Prop := r * 2 ^ (-e).toNat = signedInt neg (mant * 2 ^ e.toNat)
    let s0 : State := { s with fcr31 := clearCauseBits s.fcr31, trap := false, reply := .silent }
    (classify a = .normal ∨ (classify a).isZero = true) → val a = .fin neg mant e →
    (w = .w32 → n = .w64 → mant * 2 ^ e.toNat < 2 ^ 56 * 2 ^ (-e).toNat) →
    (exact → exec (floatToIntInstr m w n fd fs) s = .next (s0.setView n fd (BitVec.ofInt n.bits r))) ∧
    (¬ exact → (enables s.fcr31).i = false → exec (floatToIntInstr m w n fd fs) s =
      .next (({ s0 with fcr31 := clearCauseBits s.fcr31 ||| 0x00001004#32 } : State).setView n fd (BitVec.ofInt n.bits r))) ∧
    (¬ exact → (enables s.fcr31).i = true → exec (floatToIntInstr m w n fd fs) s =
      .next { s0 with fcr31 := clearCauseBits s.fcr31 ||| 0x00001000#32, trap := true })

/-- Tier 2, derived (R147): under either value of `F2I_OUT_OF_RANGE` the shared conversion writes the integer itself
when the rounded value fits; under `trap` it raises UnimplementedOperation when it does not. -/
def Obligations.OutOfRangeParameter : Prop :=
  ∀ (q : Config.Params) (w n : Width) (mode : RoundingMode) (fd fs : RegIx) (s : State),
    let a := s.view w fs
    let r := roundInt mode (val a)
    (classify a = .normal ∨ (classify a).isZero = true) → (w = .w32 → n = .w64 → (val a).magGe 56 = false) →
    (¬ (-(2 ^ (n.bits - 1) : Int) ≤ r ∧ r < 2 ^ (n.bits - 1)) → q.f2iOutOfRange = .trap →
      floatToInt q w n mode fd fs s =
        { s with fcr31 := clearCauseBits s.fcr31 ||| 0x00020000#32, trap := true, reply := .silent }) ∧
    (-(2 ^ (n.bits - 1) : Int) ≤ r ∧ r < 2 ^ (n.bits - 1) → (enables s.fcr31).i = false →
      ((floatToInt q w n mode fd fs s).view n fd).toInt = r ∧ (floatToInt q w n mode fd fs s).trap = false)

/-! ### Comparisons -/

/-- Tier 2, stated (R180, R181): the thirty-two comparisons. Operands that are no NaN are compared by value: C is the
column lt, eq or 0 of the predicate. With a NaN operand C is the column un; Invalid is dispatched exactly when the
predicate signals on a QuietNaN or an operand is a SignalingNaN, and then Enable.V = 1 traps with Cause.V and keeps C.
No register changes. -/
def Obligations.Comparisons : Prop :=
  ∀ (w : Width) (c : Cond) (fs ft : RegIx) (s : State),
    let a := s.view w fs; let b := s.view w ft
    let unordered : Bool := (classify a).isNaN || (classify b).isNaN
    let signals : Bool := c.signals || classify a == .signalingNaN || classify b == .signalingNaN
    let withC (f : BitVec 32) (v : Bool) : State :=
      { s with fcr31 := if v then f ||| 0x00800000#32 else f &&& ~~~0x00800000#32, trap := false, reply := .silent }
    (unordered = false → exec (compareInstr w c fs ft) s =
      .next (withC (clearCauseBits s.fcr31)
        (if (val a).numLt (val b) then c.onLess else if (val a).numEq (val b) then c.onEqual else false))) ∧
    (unordered = true → signals = false → exec (compareInstr w c fs ft) s =
      .next (withC (clearCauseBits s.fcr31) c.onUnordered)) ∧
    (unordered = true → signals = true → (enables s.fcr31).v = false → exec (compareInstr w c fs ft) s =
      .next (withC (clearCauseBits s.fcr31 ||| 0x00010040#32) c.onUnordered)) ∧
    (unordered = true → signals = true → (enables s.fcr31).v = true → exec (compareInstr w c fs ft) s =
      .next { s with fcr31 := clearCauseBits s.fcr31 ||| 0x00010000#32, trap := true, reply := .silent })

/-! ### Ports and CPU-side words -/

/-- Tier 1, stated (R220 to R223): the register-file port requests. -/
def Obligations.RegisterPorts : Prop :=
  ∀ (s : State) (r : Request) (rest : List Request) (i : RegIx) (v : BitVec 32) (v' : BitVec 64),
    s.requests = r :: rest →
    let s0 : State := { s with requests := rest, trap := false, reply := .silent }
    (r = .read32 i → step s = .next { s0 with reply := .value32 (s.x32 i) }) ∧
    (r = .write32 i v → step s = .next (s0.setX32 i v)) ∧
    (r = .read64 i → step s = .next { s0 with reply := .value64 (s.x64 i) }) ∧
    (r = .write64 i v' → step s = .next (s0.setX64 i v'))

/-- Tier 1, derived (R224, R225; the parameter default of log entry 9): the control ports: FCR0 at 0 and FCR31 at 31
are read; a write to 31 stores the whole word and evaluates no trap, a write to 0 is ignored; any other number is
refused. -/
def Obligations.ControlPorts : Prop :=
  ∀ (s : State) (r : Request) (rest : List Request) (n : RegIx) (v : BitVec 32), s.requests = r :: rest →
    let s0 : State := { s with requests := rest, trap := false, reply := .silent }
    (r = .ctrlRead n → step s =
      if n = 0 then .next { s0 with reply := .value32 s.fcr0 }
      else if n = 31 then .next { s0 with reply := .value32 s.fcr31 }
      else .refused (.noControlRegister n)) ∧
    (r = .ctrlWrite n v → step s =
      if n = 0 then .next s0 else if n = 31 then .next { s0 with fcr31 := v } else .refused (.noControlRegister n))

/-- Tier 1, derived (R228, R229, R231, R232, R234 to R237, which the spec takes from general knowledge; the replies
are the model's reading of log entry 4, and that `operand` holds GPR[rt] or the loaded datum, LWC1's word in its low
half, is the DESIGN CHOICE of log entry 3): MFC1, DMFC1, MTC1, DMTC1, LWC1, LDC1, SWC1, SDC1 as their port accesses:
reads change no state of the block and hand the value to the CPU; writes store the CPU's operand. -/
def Obligations.TransferWords : Prop :=
  ∀ (rt fs ft base : RegIx) (offset : BitVec 16) (s : State),
    let s0 : State := { s with trap := false, reply := .silent }
    exec (.mfc1 rt fs) s = .next { s0 with reply := .gprWrite rt ((s.x32 fs).signExtend 64) } ∧
    exec (.dmfc1 rt fs) s = .next { s0 with reply := .gprWrite rt (s.x64 fs) } ∧
    exec (.mtc1 rt fs) s = .next (s0.setX32 fs (s.operand.extractLsb' 0 32)) ∧
    exec (.dmtc1 rt fs) s = .next (s0.setX64 fs s.operand) ∧
    exec (.lwc1 ft offset base) s = .next (s0.setX32 ft (s.operand.extractLsb' 0 32)) ∧
    exec (.ldc1 ft offset base) s = .next (s0.setX64 ft s.operand) ∧
    exec (.swc1 ft offset base) s = .next { s0 with reply := .storeWord base (offset.signExtend 64) (s.x32 ft) } ∧
    exec (.sdc1 ft offset base) s = .next { s0 with reply := .storeDouble base (offset.signExtend 64) (s.x64 ft) }

/-- Tier 1, derived (R230, R233; CFC1's reply is the model's reading of log entry 4, CTC1's operand the DESIGN CHOICE
of log entry 3, the whole-word write the parameter default of log entry 9, the refusal the reading of log entry 13):
CFC1 hands the sign-extended control register to the CPU, CTC1 stores the low word of the operand into FCR31 and
ignores a write to FCR0; both are refused for any other register number. -/
def Obligations.ControlWords : Prop :=
  ∀ (rt n : RegIx) (s : State),
    let s0 : State := { s with trap := false, reply := .silent }
    (exec (.cfc1 rt n) s =
      if n = 0 then .next { s0 with reply := .gprWrite rt (s.fcr0.signExtend 64) }
      else if n = 31 then .next { s0 with reply := .gprWrite rt (s.fcr31.signExtend 64) }
      else .refused (.noControlRegister n)) ∧
    (exec (.ctc1 rt n) s =
      if n = 0 then .next s0
      else if n = 31 then .next { s0 with fcr31 := s.operand.extractLsb' 0 32 }
      else .refused (.noControlRegister n))

/-- Tier 1, derived (R238 to R241, R74, R226, which the spec takes from general knowledge; log entry 4): the branch
words hand the CPU the decision by bit 23 of FCR31, and the likely forms annul the delay slot when the branch is not
taken; the block's state is unchanged. -/
def Obligations.BranchWords : Prop :=
  ∀ (offset : BitVec 16) (s : State),
    let c := s.fcr31.getLsbD 23
    let d : BitVec 64 := offset.signExtend 64 * 4#64
    let answer (taken annul : Bool) : State := { s with trap := false, reply := .branch taken annul d }
    exec (.bc1f offset) s = .next (answer (!c) false) ∧
    exec (.bc1t offset) s = .next (answer c false) ∧
    exec (.bc1fl offset) s = .next (answer (!c) c) ∧
    exec (.bc1tl offset) s = .next (answer c (!c))

/-! ### Native and stored results -/

/-- Tier 2, derived (R15, R102, which take roundTiesToEven and the zero and infinity results from general knowledge;
the way the model computes the root is log entry 11): on finite values of real value q and r the native sum,
difference, product and quotient are `rne64` of the exact q + r, q - r, q * r and q / r, the native root of 0 < q is
`rne64` of the real root, and the native ABS and NEG are |q| and -q rounded; an exact zero sum is +0 unless both
operands are negative, a product or quotient has the XOR of the operand signs, sqrt(±0) = ±0; the infinite results are
those of IEEE 754. `Store_64` is the identity, `Store_32` is `rne32` of the native value with its sign. -/
def Obligations.NativeIsTheRoundedExactResult : Prop :=
  let zero (neg : Bool) : BitVec 64 := if neg then 0x8000000000000000#64 else 0#64
  let inf (neg : Bool) : BitVec 64 := if neg then 0xFFF0000000000000#64 else 0x7FF0000000000000#64
  (∀ (n1 n2 : Bool) (m1 m2 : Nat) (e1 e2 : Int),
    let x : Value := .fin n1 m1 e1; let y : Value := .fin n2 m2 e2
    let q : ℚ := x.toRat; let r : ℚ := y.toRat
    IsRne .w64 ((q + r : ℚ) : ℝ) (BinaryOp.add.native x y) ∧
    (q + r = 0 → BinaryOp.add.native x y = zero (n1 && n2)) ∧
    IsRne .w64 ((q - r : ℚ) : ℝ) (BinaryOp.sub.native x y) ∧
    (q - r = 0 → BinaryOp.sub.native x y = zero (n1 && !n2)) ∧
    IsRne .w64 ((q * r : ℚ) : ℝ) (BinaryOp.mul.native x y) ∧ signBit (BinaryOp.mul.native x y) = (n1 ^^ n2) ∧
    (r ≠ 0 → IsRne .w64 ((q / r : ℚ) : ℝ) (BinaryOp.div.native x y) ∧
      signBit (BinaryOp.div.native x y) = (n1 ^^ n2)) ∧
    (q = 0 → UnaryOp.sqrt.native x = zero n1) ∧
    (0 < q → IsRne .w64 (Real.sqrt (q : ℝ)) (UnaryOp.sqrt.native x)) ∧
    IsRne .w64 ((|q| : ℚ) : ℝ) (UnaryOp.abs.native x) ∧ signBit (UnaryOp.abs.native x) = false ∧
    IsRne .w64 ((-q : ℚ) : ℝ) (UnaryOp.neg.native x) ∧ signBit (UnaryOp.neg.native x) = !n1) ∧
  (∀ (i n : Bool) (m : Nat) (e : Int),
    let x : Value := .fin n m e; let v : Value := .inf i
    BinaryOp.add.native v x = inf i ∧ BinaryOp.add.native x v = inf i ∧
    BinaryOp.sub.native v x = inf i ∧ BinaryOp.sub.native x v = inf (!i) ∧
    (x.toRat ≠ 0 → BinaryOp.mul.native v x = inf (i ^^ n) ∧ BinaryOp.mul.native x v = inf (i ^^ n) ∧
      BinaryOp.div.native v x = inf (i ^^ n)) ∧
    BinaryOp.div.native x v = zero (i ^^ n)) ∧
  (∀ i j : Bool,
    BinaryOp.add.native (.inf i) (.inf i) = inf i ∧ BinaryOp.sub.native (.inf i) (.inf (!i)) = inf i ∧
    BinaryOp.mul.native (.inf i) (.inf j) = inf (i ^^ j) ∧ UnaryOp.sqrt.native (.inf false) = inf false ∧
    UnaryOp.abs.native (.inf i) = inf false ∧ UnaryOp.neg.native (.inf i) = inf (!i)) ∧
  (∀ nat : Pattern .w64,
    store .w64 nat = nat ∧
    (isFinitePattern nat = true →
      IsRne .w32 ((val nat).toRat : ℝ) (store .w32 nat) ∧ signBit (store .w32 nat) = signBit nat)) ∧
  (∀ i : Bool, store .w32 (inf i) = (if i then 0xFF800000#32 else 0x7F800000#32))
end

