-- ==== Sys2Proof/Laws/Decode.lean ====
section
/-! SUPPORT. The fields of the words the encoder writes, and what the decoder makes of a word by its fields: one lemma
per field of each format (R62, R74). Round trips rest on these and never unfold an encoding. -/

namespace Sys2Proof

/-! ### The FR format (R62) -/

section FR
variable {fmt funct : Nat} (ft fs fd : RegIx)

theorem encodeFR_toNat (hf : fmt < 32) (hn : funct < 64) : (encodeFR fmt ft fs fd funct).toNat =
    0x44000000 + fmt * 2 ^ 21 + ft.val * 2 ^ 16 + fs.val * 2 ^ 11 + fd.val * 2 ^ 6 + funct := by
  simp only [encodeFR, BitVec.toNat_ofNat]
  omega

theorem encodeFR_op (hf : fmt < 32) (hn : funct < 64) : field (encodeFR fmt ft fs fd funct) 26 6 = 0x11 := by
  simp only [field, encodeFR_toNat _ _ _ hf hn]; omega

theorem encodeFR_fmt (hf : fmt < 32) (hn : funct < 64) : field (encodeFR fmt ft fs fd funct) 21 5 = fmt := by
  simp only [field, encodeFR_toNat _ _ _ hf hn]; omega

theorem encodeFR_ft (hf : fmt < 32) (hn : funct < 64) : regField (encodeFR fmt ft fs fd funct) 16 = ft := by
  apply Fin.ext; simp only [regField, encodeFR_toNat _ _ _ hf hn]; omega

theorem encodeFR_fs (hf : fmt < 32) (hn : funct < 64) : regField (encodeFR fmt ft fs fd funct) 11 = fs := by
  apply Fin.ext; simp only [regField, encodeFR_toNat _ _ _ hf hn]; omega

theorem encodeFR_fd (hf : fmt < 32) (hn : funct < 64) : regField (encodeFR fmt ft fs fd funct) 6 = fd := by
  apply Fin.ext; simp only [regField, encodeFR_toNat _ _ _ hf hn]; omega

theorem encodeFR_funct (hf : fmt < 32) (hn : funct < 64) : field (encodeFR fmt ft fs fd funct) 0 6 = funct := by
  simp only [field, encodeFR_toNat _ _ _ hf hn]; omega

end FR

/-! ### The register-transfer format (R74) -/

section MV
variable {rs : Nat} (rt fs : RegIx)

theorem encodeMV_toNat (h : rs < 32) : (encodeMV rs rt fs).toNat =
    0x44000000 + rs * 2 ^ 21 + rt.val * 2 ^ 16 + fs.val * 2 ^ 11 := by
  simp only [encodeMV, BitVec.toNat_ofNat]
  omega

theorem encodeMV_op (h : rs < 32) : field (encodeMV rs rt fs) 26 6 = 0x11 := by
  simp only [field, encodeMV_toNat _ _ h]; omega

theorem encodeMV_rs (h : rs < 32) : field (encodeMV rs rt fs) 21 5 = rs := by
  simp only [field, encodeMV_toNat _ _ h]; omega

theorem encodeMV_rt (h : rs < 32) : regField (encodeMV rs rt fs) 16 = rt := by
  apply Fin.ext; simp only [regField, encodeMV_toNat _ _ h]; omega

theorem encodeMV_fs (h : rs < 32) : regField (encodeMV rs rt fs) 11 = fs := by
  apply Fin.ext; simp only [regField, encodeMV_toNat _ _ h]; omega

theorem encodeMV_low (h : rs < 32) : field (encodeMV rs rt fs) 0 11 = 0 := by
  simp only [field, encodeMV_toNat _ _ h]; omega

end MV

/-! ### The load and store format and the branch format (R74) -/

section Mem
variable {op : Nat} (base ft : RegIx) (offset : BitVec 16)

theorem encodeMem_toNat (h : op < 64) : (encodeMem op base ft offset).toNat =
    op * 2 ^ 26 + base.val * 2 ^ 21 + ft.val * 2 ^ 16 + offset.toNat := by
  simp only [encodeMem, BitVec.toNat_ofNat]
  omega

theorem encodeMem_op (h : op < 64) : field (encodeMem op base ft offset) 26 6 = op := by
  simp only [field, encodeMem_toNat _ _ _ h]; omega

theorem encodeMem_base (h : op < 64) : regField (encodeMem op base ft offset) 21 = base := by
  apply Fin.ext; simp only [regField, encodeMem_toNat _ _ _ h]; omega

theorem encodeMem_ft (h : op < 64) : regField (encodeMem op base ft offset) 16 = ft := by
  apply Fin.ext; simp only [regField, encodeMem_toNat _ _ _ h]; omega

theorem encodeMem_offset (h : op < 64) : offsetField (encodeMem op base ft offset) = offset := by
  apply BitVec.eq_of_toNat_eq
  simp only [offsetField, BitVec.toNat_ofNat, encodeMem_toNat _ _ _ h]; omega

end Mem

section BC
variable {sel : Nat} (offset : BitVec 16)

theorem encodeBC_toNat (h : sel < 32) : (encodeBC sel offset).toNat =
    0x45000000 + sel * 2 ^ 16 + offset.toNat := by
  simp only [encodeBC, BitVec.toNat_ofNat]
  omega

theorem encodeBC_op (h : sel < 32) : field (encodeBC sel offset) 26 6 = 0x11 := by
  simp only [field, encodeBC_toNat _ h]; omega

theorem encodeBC_rs (h : sel < 32) : field (encodeBC sel offset) 21 5 = 8 := by
  simp only [field, encodeBC_toNat _ h]; omega

theorem encodeBC_sel (h : sel < 32) : field (encodeBC sel offset) 16 5 = sel := by
  simp only [field, encodeBC_toNat _ h]; omega

theorem encodeBC_offset (h : sel < 32) : offsetField (encodeBC sel offset) = offset := by
  apply BitVec.eq_of_toNat_eq
  simp only [offsetField, BitVec.toNat_ofNat, encodeBC_toNat _ h]; omega

end BC

/-! ### Decoding by fields -/

theorem decode_of_cop1 {w : Word} (h : field w 26 6 = 0x11) : decode w = decodeCop1 w := by
  simp only [decode, h]

theorem decodeCop1_S {w : Word} (h : field w 21 5 = 16) : decodeCop1 w =
    decodeFmtS (regField w 16) (regField w 11) (regField w 6) (field w 0 6) := by
  simp only [decodeCop1, h]

theorem decodeCop1_D {w : Word} (h : field w 21 5 = 17) : decodeCop1 w =
    decodeFmtD (regField w 16) (regField w 11) (regField w 6) (field w 0 6) := by
  simp only [decodeCop1, h]

theorem decodeCop1_W {w : Word} (h : field w 21 5 = 20) : decodeCop1 w =
    decodeFmtW (regField w 16) (regField w 11) (regField w 6) (field w 0 6) := by
  simp only [decodeCop1, h]

theorem decodeCop1_L {w : Word} (h : field w 21 5 = 21) : decodeCop1 w =
    decodeFmtL (regField w 16) (regField w 11) (regField w 6) (field w 0 6) := by
  simp only [decodeCop1, h]

/-- The FR word of any format decodes through its column with the operands it was built from. -/
theorem decode_encodeFR_S (ft fs fd : RegIx) {funct : Nat} (h : funct < 64) :
    decode (encodeFR 16 ft fs fd funct) = decodeFmtS ft fs fd funct := by
  have hf : 16 < 32 := by decide
  rw [decode_of_cop1 (encodeFR_op ft fs fd hf h), decodeCop1_S (encodeFR_fmt ft fs fd hf h),
    encodeFR_ft ft fs fd hf h, encodeFR_fs ft fs fd hf h, encodeFR_fd ft fs fd hf h, encodeFR_funct ft fs fd hf h]

theorem decode_encodeFR_D (ft fs fd : RegIx) {funct : Nat} (h : funct < 64) :
    decode (encodeFR 17 ft fs fd funct) = decodeFmtD ft fs fd funct := by
  have hf : 17 < 32 := by decide
  rw [decode_of_cop1 (encodeFR_op ft fs fd hf h), decodeCop1_D (encodeFR_fmt ft fs fd hf h),
    encodeFR_ft ft fs fd hf h, encodeFR_fs ft fs fd hf h, encodeFR_fd ft fs fd hf h, encodeFR_funct ft fs fd hf h]

theorem decode_encodeFR_W (ft fs fd : RegIx) {funct : Nat} (h : funct < 64) :
    decode (encodeFR 20 ft fs fd funct) = decodeFmtW ft fs fd funct := by
  have hf : 20 < 32 := by decide
  rw [decode_of_cop1 (encodeFR_op ft fs fd hf h), decodeCop1_W (encodeFR_fmt ft fs fd hf h),
    encodeFR_ft ft fs fd hf h, encodeFR_fs ft fs fd hf h, encodeFR_fd ft fs fd hf h, encodeFR_funct ft fs fd hf h]

theorem decode_encodeFR_L (ft fs fd : RegIx) {funct : Nat} (h : funct < 64) :
    decode (encodeFR 21 ft fs fd funct) = decodeFmtL ft fs fd funct := by
  have hf : 21 < 32 := by decide
  rw [decode_of_cop1 (encodeFR_op ft fs fd hf h), decodeCop1_L (encodeFR_fmt ft fs fd hf h),
    encodeFR_ft ft fs fd hf h, encodeFR_fs ft fs fd hf h, encodeFR_fd ft fs fd hf h, encodeFR_funct ft fs fd hf h]

/-- A branch word decodes through its condition selector. -/
theorem decode_encodeBC (offset : BitVec 16) {sel : Nat} (h : sel < 32) :
    decode (encodeBC sel offset) = decodeBranch sel offset := by
  have hc : ∀ w : Word, field w 21 5 = 8 → decodeCop1 w = decodeBranch (field w 16 5) (offsetField w) := by
    intro w h; simp only [decodeCop1, h]
  rw [decode_of_cop1 (encodeBC_op offset h), hc _ (encodeBC_rs offset h), encodeBC_sel offset h, encodeBC_offset offset h]

theorem decode_encodeMV_mfc1 (rt fs : RegIx) : decode (encodeMV 0 rt fs) = .ok (.mfc1 rt fs) := by
  have h : 0 < 32 := by decide
  rw [decode_of_cop1 (encodeMV_op rt fs h)]
  simp only [decodeCop1, encodeMV_rs rt fs h, encodeMV_rt rt fs h, encodeMV_fs rt fs h, encodeMV_low rt fs h]
  rfl

theorem decode_encodeMV_dmfc1 (rt fs : RegIx) : decode (encodeMV 1 rt fs) = .ok (.dmfc1 rt fs) := by
  have h : 1 < 32 := by decide
  rw [decode_of_cop1 (encodeMV_op rt fs h)]
  simp only [decodeCop1, encodeMV_rs rt fs h, encodeMV_rt rt fs h, encodeMV_fs rt fs h, encodeMV_low rt fs h]
  rfl

theorem decode_encodeMV_cfc1 (rt fs : RegIx) : decode (encodeMV 2 rt fs) = .ok (.cfc1 rt fs) := by
  have h : 2 < 32 := by decide
  rw [decode_of_cop1 (encodeMV_op rt fs h)]
  simp only [decodeCop1, encodeMV_rs rt fs h, encodeMV_rt rt fs h, encodeMV_fs rt fs h, encodeMV_low rt fs h]
  rfl

theorem decode_encodeMV_mtc1 (rt fs : RegIx) : decode (encodeMV 4 rt fs) = .ok (.mtc1 rt fs) := by
  have h : 4 < 32 := by decide
  rw [decode_of_cop1 (encodeMV_op rt fs h)]
  simp only [decodeCop1, encodeMV_rs rt fs h, encodeMV_rt rt fs h, encodeMV_fs rt fs h, encodeMV_low rt fs h]
  rfl

theorem decode_encodeMV_dmtc1 (rt fs : RegIx) : decode (encodeMV 5 rt fs) = .ok (.dmtc1 rt fs) := by
  have h : 5 < 32 := by decide
  rw [decode_of_cop1 (encodeMV_op rt fs h)]
  simp only [decodeCop1, encodeMV_rs rt fs h, encodeMV_rt rt fs h, encodeMV_fs rt fs h, encodeMV_low rt fs h]
  rfl

theorem decode_encodeMV_ctc1 (rt fs : RegIx) : decode (encodeMV 6 rt fs) = .ok (.ctc1 rt fs) := by
  have h : 6 < 32 := by decide
  rw [decode_of_cop1 (encodeMV_op rt fs h)]
  simp only [decodeCop1, encodeMV_rs rt fs h, encodeMV_rt rt fs h, encodeMV_fs rt fs h, encodeMV_low rt fs h]
  rfl

theorem decode_encodeMem_lwc1 (base ft : RegIx) (offset : BitVec 16) :
    decode (encodeMem 0x31 base ft offset) = .ok (.lwc1 ft offset base) := by
  have h : 0x31 < 64 := by decide
  simp only [decode, encodeMem_op base ft offset h, encodeMem_base base ft offset h, encodeMem_ft base ft offset h,
    encodeMem_offset base ft offset h]

theorem decode_encodeMem_ldc1 (base ft : RegIx) (offset : BitVec 16) :
    decode (encodeMem 0x35 base ft offset) = .ok (.ldc1 ft offset base) := by
  have h : 0x35 < 64 := by decide
  simp only [decode, encodeMem_op base ft offset h, encodeMem_base base ft offset h, encodeMem_ft base ft offset h,
    encodeMem_offset base ft offset h]

theorem decode_encodeMem_swc1 (base ft : RegIx) (offset : BitVec 16) :
    decode (encodeMem 0x39 base ft offset) = .ok (.swc1 ft offset base) := by
  have h : 0x39 < 64 := by decide
  simp only [decode, encodeMem_op base ft offset h, encodeMem_base base ft offset h, encodeMem_ft base ft offset h,
    encodeMem_offset base ft offset h]

theorem decode_encodeMem_sdc1 (base ft : RegIx) (offset : BitVec 16) :
    decode (encodeMem 0x3D base ft offset) = .ok (.sdc1 ft offset base) := by
  have h : 0x3D < 64 := by decide
  simp only [decode, encodeMem_op base ft offset h, encodeMem_base base ft offset h, encodeMem_ft base ft offset h,
    encodeMem_offset base ft offset h]

/-! ### A word is the encoding of its fields -/

theorem encodeFR_of_fields {w : Word} {fmt funct : Nat} (hop : field w 26 6 = 0x11) (hf : field w 21 5 = fmt)
    (hn : field w 0 6 = funct) : encodeFR fmt (regField w 16) (regField w 11) (regField w 6) funct = w := by
  apply BitVec.eq_of_toNat_eq
  have := w.isLt
  simp only [field] at hop hf hn
  simp only [encodeFR, regField, BitVec.toNat_ofNat]
  omega

theorem encodeMV_of_fields {w : Word} {rs : Nat} (hop : field w 26 6 = 0x11) (hr : field w 21 5 = rs)
    (hl : field w 0 11 = 0) : encodeMV rs (regField w 16) (regField w 11) = w := by
  apply BitVec.eq_of_toNat_eq
  have := w.isLt
  simp only [field] at hop hr hl
  simp only [encodeMV, regField, BitVec.toNat_ofNat]
  omega

theorem encodeMem_of_fields {w : Word} {op : Nat} (hop : field w 26 6 = op) :
    encodeMem op (regField w 21) (regField w 16) (offsetField w) = w := by
  apply BitVec.eq_of_toNat_eq
  have := w.isLt
  simp only [field] at hop
  simp only [encodeMem, regField, offsetField, BitVec.toNat_ofNat]
  omega

theorem encodeBC_of_fields {w : Word} {sel : Nat} (hop : field w 26 6 = 0x11) (hr : field w 21 5 = 8)
    (hs : field w 16 5 = sel) : encodeBC sel (offsetField w) = w := by
  apply BitVec.eq_of_toNat_eq
  have := w.isLt
  simp only [field] at hop hr hs
  simp only [encodeBC, offsetField, BitVec.toNat_ofNat]
  omega

theorem oneSource_ok {ft : RegIx} {i j : Instr} (h : oneSource ft i = .ok j) : ft = 0 ∧ i = j := by
  unfold oneSource at h
  split at h <;> simp_all

theorem comparison_ok {fd : RegIx} {i j : Instr} (h : comparison fd i = .ok j) : fd = 0 ∧ i = j := by
  unfold comparison at h
  split at h <;> simp_all

theorem transfer_ok {low : Nat} {i j : Instr} (h : transfer low i = .ok j) : low = 0 ∧ i = j := by
  unfold transfer at h
  split at h <;> simp_all

end Sys2Proof
end

