-- ==== Sys2Proof/Laws/Flags.lean ====
section
/-! SUPPORT. FCR31 bit by bit: what each update of a field does to every bit, and to every other field (R29 to R36). -/

namespace Sys2Proof.Machine

/-- The bit of a set at a position of its group. -/
def ExcSet.bit (x : ExcSet) : Nat → Bool
  | 0 => x.i
  | 1 => x.u
  | 2 => x.o
  | 3 => x.z
  | 4 => x.v
  | _ => false

theorem ExcSet.toBits_getLsbD (x : ExcSet) (k : Nat) : x.toBits.getLsbD k = x.bit k := by
  obtain ⟨i, u, o, z, v⟩ := x
  match k with
  | 0 | 1 | 2 | 3 | 4 => revert i u o z v; decide
  | n + 5 =>
    by_cases h : n + 5 < 32
    · have : ∀ m : Fin 32, ∀ i u o z v : Bool, 5 ≤ m.val →
        (ExcSet.toBits ⟨i, u, o, z, v⟩).getLsbD m.val = false := by decide
      exact this ⟨n + 5, h⟩ i u o z v (by simp)
    · exact BitVec.getLsbD_of_ge _ _ (by omega)

theorem causeMask_getLsbD (k : Nat) : causeMask.getLsbD k = (decide (12 ≤ k) && decide (k ≤ 17)) := by
  by_cases h : k < 32
  · have : ∀ m : Fin 32, causeMask.getLsbD m.val = (decide (12 ≤ m.val) && decide (m.val ≤ 17)) := by decide
    exact this ⟨k, h⟩
  · rw [BitVec.getLsbD_of_ge _ _ (by omega)]
    have : ¬ k ≤ 17 := by omega
    simp [this]

/-- ClearCause clears bits 17:12 and no other (R252). -/
theorem clearCauseBits_getLsbD (f : BitVec 32) (k : Nat) :
    (clearCauseBits f).getLsbD k = (f.getLsbD k && !(decide (12 ≤ k) && decide (k ≤ 17))) := by
  unfold clearCauseBits
  rw [BitVec.getLsbD_and, BitVec.getLsbD_not, causeMask_getLsbD]
  by_cases h : k < 32
  · simp [h]
  · simp [BitVec.getLsbD_of_ge f k (by omega)]

theorem setFlagBits_getLsbD (x : ExcSet) (f : BitVec 32) (k : Nat) :
    (setFlagBits x f).getLsbD k = (f.getLsbD k || (decide (k < 32) && decide (2 ≤ k) && x.bit (k - 2))) := by
  unfold setFlagBits
  rw [BitVec.getLsbD_or, BitVec.getLsbD_shiftLeft, x.toBits_getLsbD]
  by_cases h2 : k < 2
  · simp [h2, show ¬ 2 ≤ k by omega]
  · simp [h2, show 2 ≤ k by omega]

theorem setCauseBits_getLsbD (x : ExcSet) (f : BitVec 32) (k : Nat) :
    (setCauseBits x f).getLsbD k = (f.getLsbD k || (decide (k < 32) && decide (12 ≤ k) && x.bit (k - 12))) := by
  unfold setCauseBits
  rw [BitVec.getLsbD_or, BitVec.getLsbD_shiftLeft, x.toBits_getLsbD]
  by_cases h2 : k < 12
  · simp [h2, show ¬ 12 ≤ k by omega]
  · simp [h2, show 12 ≤ k by omega]

theorem setCauseE_getLsbD (f : BitVec 32) (k : Nat) :
    (setCauseE f).getLsbD k = (f.getLsbD k || decide (k = 17)) := by
  unfold setCauseE
  rw [BitVec.getLsbD_or]
  congr 1
  by_cases h : k < 32
  · have : ∀ m : Fin 32, (0x00020000#32).getLsbD m.val = decide (m.val = 17) := by decide
    exact this ⟨k, h⟩
  · rw [BitVec.getLsbD_of_ge _ _ (by omega)]
    have : ¬ k = 17 := by omega
    simp [this]

theorem conditionMask_getLsbD (k : Nat) : (0x00800000#32).getLsbD k = decide (k = 23) := by
  by_cases h : k < 32
  · have : ∀ m : Fin 32, (0x00800000#32).getLsbD m.val = decide (m.val = 23) := by decide
    exact this ⟨k, h⟩
  · rw [BitVec.getLsbD_of_ge _ _ (by omega)]
    have : ¬ k = 23 := by omega
    simp [this]

theorem setCondition_getLsbD (b : Bool) (f : BitVec 32) (k : Nat) :
    (setCondition b f).getLsbD k = if k = 23 then b else f.getLsbD k := by
  unfold setCondition
  cases b
  · simp only [Bool.false_eq_true, if_false, BitVec.getLsbD_and, BitVec.getLsbD_not, conditionMask_getLsbD]
    by_cases h : k = 23
    · simp [h]
    · by_cases h2 : k < 32
      · simp [h, h2]
      · simp [h, BitVec.getLsbD_of_ge f k (by omega)]
  · simp only [if_true, BitVec.getLsbD_or, conditionMask_getLsbD]
    by_cases h : k = 23 <;> simp [h]

/-! ### Fields under the updates -/

theorem ExcSet.bit_of_ge (x : ExcSet) {k : Nat} (h : 5 ≤ k) : x.bit k = false := by
  match k, h with
  | n + 5, _ => rfl

@[simp] theorem enables_clearCauseBits (f : BitVec 32) : enables (clearCauseBits f) = enables f := by
  simp only [enables, groupAt, clearCauseBits_getLsbD]
  simp

@[simp] theorem flags_clearCauseBits (f : BitVec 32) : flags (clearCauseBits f) = flags f := by
  simp only [flags, groupAt, clearCauseBits_getLsbD]
  simp

@[simp] theorem causes_clearCauseBits (f : BitVec 32) : causes (clearCauseBits f) = .empty := by
  simp only [causes, groupAt, clearCauseBits_getLsbD]
  simp [ExcSet.empty]

@[simp] theorem causeE_clearCauseBits (f : BitVec 32) : causeE (clearCauseBits f) = false := by
  simp only [causeE, clearCauseBits_getLsbD]
  simp

@[simp] theorem condition_clearCauseBits (f : BitVec 32) : condition (clearCauseBits f) = condition f := by
  simp only [condition, clearCauseBits_getLsbD]
  simp

@[simp] theorem flushSubnormals_clearCauseBits (f : BitVec 32) :
    flushSubnormals (clearCauseBits f) = flushSubnormals f := by
  simp only [flushSubnormals, clearCauseBits_getLsbD]
  simp

@[simp] theorem roundingMode_clearCauseBits (f : BitVec 32) : roundingMode (clearCauseBits f) = roundingMode f := by
  simp only [roundingMode, clearCauseBits_getLsbD]
  simp

@[simp] theorem clearCauseBits_clearCauseBits (f : BitVec 32) :
    clearCauseBits (clearCauseBits f) = clearCauseBits f := by
  apply BitVec.eq_of_getLsbD_eq
  intro k _
  simp only [clearCauseBits_getLsbD]
  cases f.getLsbD k <;> cases (decide (12 ≤ k) && decide (k ≤ 17)) <;> rfl

@[simp] theorem enables_setCauseBits (x : ExcSet) (f : BitVec 32) : enables (setCauseBits x f) = enables f := by
  simp only [enables, groupAt, setCauseBits_getLsbD]
  simp

@[simp] theorem enables_setFlagBits (x : ExcSet) (f : BitVec 32) : enables (setFlagBits x f) = enables f := by
  simp only [enables, groupAt, setFlagBits_getLsbD]
  simp [ExcSet.bit]

@[simp] theorem enables_setCauseE (f : BitVec 32) : enables (setCauseE f) = enables f := by
  simp only [enables, groupAt, setCauseE_getLsbD]
  simp

@[simp] theorem enables_setCondition (b : Bool) (f : BitVec 32) : enables (setCondition b f) = enables f := by
  simp only [enables, groupAt, setCondition_getLsbD]
  simp

@[simp] theorem causes_setCauseE (f : BitVec 32) : causes (setCauseE f) = causes f := by
  simp only [causes, groupAt, setCauseE_getLsbD]
  simp

@[simp] theorem causes_setCondition (b : Bool) (f : BitVec 32) : causes (setCondition b f) = causes f := by
  simp only [causes, groupAt, setCondition_getLsbD]
  simp

@[simp] theorem causes_setFlagBits (x : ExcSet) (f : BitVec 32) : causes (setFlagBits x f) = causes f := by
  simp only [causes, groupAt, setFlagBits_getLsbD]
  simp [ExcSet.bit]

@[simp] theorem causes_setCauseBits (x : ExcSet) (f : BitVec 32) :
    causes (setCauseBits x f) = (causes f).union x := by
  simp only [causes, groupAt, setCauseBits_getLsbD]
  simp [ExcSet.bit, ExcSet.union]

@[simp] theorem causeE_setCauseE (f : BitVec 32) : causeE (setCauseE f) = true := by
  simp only [causeE, setCauseE_getLsbD]
  simp

@[simp] theorem causeE_setCauseBits (x : ExcSet) (f : BitVec 32) : causeE (setCauseBits x f) = causeE f := by
  simp only [causeE, setCauseBits_getLsbD]
  simp [ExcSet.bit]

@[simp] theorem causeE_setFlagBits (x : ExcSet) (f : BitVec 32) : causeE (setFlagBits x f) = causeE f := by
  simp only [causeE, setFlagBits_getLsbD]
  simp [ExcSet.bit]

@[simp] theorem causeE_setCondition (b : Bool) (f : BitVec 32) : causeE (setCondition b f) = causeE f := by
  simp only [causeE, setCondition_getLsbD]
  simp

@[simp] theorem flags_setCauseBits (x : ExcSet) (f : BitVec 32) : flags (setCauseBits x f) = flags f := by
  simp only [flags, groupAt, setCauseBits_getLsbD]
  simp

@[simp] theorem flags_setFlagBits (x : ExcSet) (f : BitVec 32) : flags (setFlagBits x f) = (flags f).union x := by
  simp only [flags, groupAt, setFlagBits_getLsbD]
  simp [ExcSet.bit, ExcSet.union]

@[simp] theorem flushSubnormals_setCauseBits (x : ExcSet) (f : BitVec 32) :
    flushSubnormals (setCauseBits x f) = flushSubnormals f := by
  simp only [flushSubnormals, setCauseBits_getLsbD]
  simp [ExcSet.bit]

@[simp] theorem flushSubnormals_setFlagBits (x : ExcSet) (f : BitVec 32) :
    flushSubnormals (setFlagBits x f) = flushSubnormals f := by
  simp only [flushSubnormals, setFlagBits_getLsbD]
  simp [ExcSet.bit]

@[simp] theorem condition_setCondition (b : Bool) (f : BitVec 32) : condition (setCondition b f) = b := by
  simp only [condition, setCondition_getLsbD]
  simp

@[simp] theorem flags_setCauseE (f : BitVec 32) : flags (setCauseE f) = flags f := by
  simp only [flags, groupAt, setCauseE_getLsbD]
  simp

@[simp] theorem flags_setCondition (b : Bool) (f : BitVec 32) : flags (setCondition b f) = flags f := by
  simp only [flags, groupAt, setCondition_getLsbD]
  simp

@[simp] theorem condition_setCauseBits (x : ExcSet) (f : BitVec 32) :
    condition (setCauseBits x f) = condition f := by
  simp only [condition, setCauseBits_getLsbD]
  simp [ExcSet.bit]

@[simp] theorem condition_setFlagBits (x : ExcSet) (f : BitVec 32) :
    condition (setFlagBits x f) = condition f := by
  simp only [condition, setFlagBits_getLsbD]
  simp [ExcSet.bit]

@[simp] theorem condition_setCauseE (f : BitVec 32) : condition (setCauseE f) = condition f := by
  simp only [condition, setCauseE_getLsbD]
  simp

@[simp] theorem ExcSet.empty_union (x : ExcSet) : ExcSet.empty.union x = x := by
  simp [ExcSet.empty, ExcSet.union]

end Sys2Proof.Machine
end

