-- ==== Sys2Proof/Laws/State.lean ====
section
/-! SUPPORT. What each update of State does to each field, so that no later proof unfolds a record update. -/

namespace Sys2Proof.Machine

/-! ### quiet -/

@[simp] theorem State.quiet_p (s : State) : (s.quiet).p = s.p := rfl
@[simp] theorem State.quiet_mode (s : State) : (s.quiet).mode = s.mode := rfl
@[simp] theorem State.quiet_fcr31 (s : State) : (s.quiet).fcr31 = s.fcr31 := rfl
@[simp] theorem State.quiet_fcr0 (s : State) : (s.quiet).fcr0 = s.fcr0 := rfl
@[simp] theorem State.quiet_requests (s : State) : (s.quiet).requests = s.requests := rfl
@[simp] theorem State.quiet_operand (s : State) : (s.quiet).operand = s.operand := rfl
@[simp] theorem State.quiet_trap (s : State) : (s.quiet).trap = false := rfl
@[simp] theorem State.quiet_reply (s : State) : (s.quiet).reply = .silent := rfl

/-! ### setFcr31 -/

@[simp] theorem State.setFcr31_p (s : State) (f : BitVec 32) : (s.setFcr31 f).p = s.p := rfl
@[simp] theorem State.setFcr31_mode (s : State) (f : BitVec 32) : (s.setFcr31 f).mode = s.mode := rfl
@[simp] theorem State.setFcr31_fcr31 (s : State) (f : BitVec 32) : (s.setFcr31 f).fcr31 = f := rfl
@[simp] theorem State.setFcr31_fcr0 (s : State) (f : BitVec 32) : (s.setFcr31 f).fcr0 = s.fcr0 := rfl
@[simp] theorem State.setFcr31_requests (s : State) (f : BitVec 32) : (s.setFcr31 f).requests = s.requests := rfl
@[simp] theorem State.setFcr31_operand (s : State) (f : BitVec 32) : (s.setFcr31 f).operand = s.operand := rfl
@[simp] theorem State.setFcr31_trap (s : State) (f : BitVec 32) : (s.setFcr31 f).trap = s.trap := rfl
@[simp] theorem State.setFcr31_reply (s : State) (f : BitVec 32) : (s.setFcr31 f).reply = s.reply := rfl

/-! ### signalFpe -/

@[simp] theorem State.signalFpe_p (s : State) : (s.signalFpe).p = s.p := rfl
@[simp] theorem State.signalFpe_mode (s : State) : (s.signalFpe).mode = s.mode := rfl
@[simp] theorem State.signalFpe_fcr31 (s : State) : (s.signalFpe).fcr31 = s.fcr31 := rfl
@[simp] theorem State.signalFpe_fcr0 (s : State) : (s.signalFpe).fcr0 = s.fcr0 := rfl
@[simp] theorem State.signalFpe_requests (s : State) : (s.signalFpe).requests = s.requests := rfl
@[simp] theorem State.signalFpe_operand (s : State) : (s.signalFpe).operand = s.operand := rfl
@[simp] theorem State.signalFpe_trap (s : State) : (s.signalFpe).trap = true := rfl
@[simp] theorem State.signalFpe_reply (s : State) : (s.signalFpe).reply = s.reply := rfl

/-! ### answer -/

@[simp] theorem State.answer_p (s : State) (r : Reply) : (s.answer r).p = s.p := rfl
@[simp] theorem State.answer_mode (s : State) (r : Reply) : (s.answer r).mode = s.mode := rfl
@[simp] theorem State.answer_fcr31 (s : State) (r : Reply) : (s.answer r).fcr31 = s.fcr31 := rfl
@[simp] theorem State.answer_fcr0 (s : State) (r : Reply) : (s.answer r).fcr0 = s.fcr0 := rfl
@[simp] theorem State.answer_requests (s : State) (r : Reply) : (s.answer r).requests = s.requests := rfl
@[simp] theorem State.answer_operand (s : State) (r : Reply) : (s.answer r).operand = s.operand := rfl
@[simp] theorem State.answer_trap (s : State) (r : Reply) : (s.answer r).trap = s.trap := rfl
@[simp] theorem State.answer_reply (s : State) (r : Reply) : (s.answer r).reply = r := rfl

/-! ### begin -/

@[simp] theorem State.begin_p (s : State) : (s.begin).p = s.p := rfl
@[simp] theorem State.begin_mode (s : State) : (s.begin).mode = s.mode := rfl
@[simp] theorem State.begin_fcr31 (s : State) : (s.begin).fcr31 = clearCauseBits s.fcr31 := rfl
@[simp] theorem State.begin_fcr0 (s : State) : (s.begin).fcr0 = s.fcr0 := rfl
@[simp] theorem State.begin_requests (s : State) : (s.begin).requests = s.requests := rfl
@[simp] theorem State.begin_operand (s : State) : (s.begin).operand = s.operand := rfl
@[simp] theorem State.begin_trap (s : State) : (s.begin).trap = false := rfl
@[simp] theorem State.begin_reply (s : State) : (s.begin).reply = .silent := rfl

/-! ### setSlot -/

@[simp] theorem State.setSlot_p (s : State) (k : RegIx) (v : BitVec 64) : (s.setSlot k v).p = s.p.set k.val v k.isLt := rfl
@[simp] theorem State.setSlot_mode (s : State) (k : RegIx) (v : BitVec 64) : (s.setSlot k v).mode = s.mode := rfl
@[simp] theorem State.setSlot_fcr31 (s : State) (k : RegIx) (v : BitVec 64) : (s.setSlot k v).fcr31 = s.fcr31 := rfl
@[simp] theorem State.setSlot_fcr0 (s : State) (k : RegIx) (v : BitVec 64) : (s.setSlot k v).fcr0 = s.fcr0 := rfl
@[simp] theorem State.setSlot_requests (s : State) (k : RegIx) (v : BitVec 64) : (s.setSlot k v).requests = s.requests := rfl
@[simp] theorem State.setSlot_operand (s : State) (k : RegIx) (v : BitVec 64) : (s.setSlot k v).operand = s.operand := rfl
@[simp] theorem State.setSlot_trap (s : State) (k : RegIx) (v : BitVec 64) : (s.setSlot k v).trap = s.trap := rfl
@[simp] theorem State.setSlot_reply (s : State) (k : RegIx) (v : BitVec 64) : (s.setSlot k v).reply = s.reply := rfl

/-! ### setC -/

@[simp] theorem State.setC_p (s : State) (b : Bool) : (s.setC b).p = s.p := rfl
@[simp] theorem State.setC_mode (s : State) (b : Bool) : (s.setC b).mode = s.mode := rfl
@[simp] theorem State.setC_fcr31 (s : State) (b : Bool) : (s.setC b).fcr31 = setCondition b s.fcr31 := rfl
@[simp] theorem State.setC_fcr0 (s : State) (b : Bool) : (s.setC b).fcr0 = s.fcr0 := rfl
@[simp] theorem State.setC_requests (s : State) (b : Bool) : (s.setC b).requests = s.requests := rfl
@[simp] theorem State.setC_operand (s : State) (b : Bool) : (s.setC b).operand = s.operand := rfl
@[simp] theorem State.setC_trap (s : State) (b : Bool) : (s.setC b).trap = s.trap := rfl
@[simp] theorem State.setC_reply (s : State) (b : Bool) : (s.setC b).reply = s.reply := rfl

/-! ### setAddressingMode -/

@[simp] theorem State.setAddressingMode_p (s : State) (full : Bool) : (s.setAddressingMode full).p = s.p := rfl
@[simp] theorem State.setAddressingMode_mode (s : State) (full : Bool) : (s.setAddressingMode full).mode = if full then .full else .half := rfl
@[simp] theorem State.setAddressingMode_fcr31 (s : State) (full : Bool) : (s.setAddressingMode full).fcr31 = s.fcr31 := rfl
@[simp] theorem State.setAddressingMode_fcr0 (s : State) (full : Bool) : (s.setAddressingMode full).fcr0 = s.fcr0 := rfl
@[simp] theorem State.setAddressingMode_requests (s : State) (full : Bool) : (s.setAddressingMode full).requests = s.requests := rfl
@[simp] theorem State.setAddressingMode_operand (s : State) (full : Bool) : (s.setAddressingMode full).operand = s.operand := rfl
@[simp] theorem State.setAddressingMode_trap (s : State) (full : Bool) : (s.setAddressingMode full).trap = s.trap := rfl
@[simp] theorem State.setAddressingMode_reply (s : State) (full : Bool) : (s.setAddressingMode full).reply = s.reply := rfl

/-! ### setX32, setX64, setView: every field but the slots -/

@[simp] theorem State.setX32_mode (s : State) (i : RegIx) (v : BitVec 32) : (s.setX32 i v).mode = s.mode := by
  unfold State.setX32; dsimp only; split <;> rfl
@[simp] theorem State.setX64_mode (s : State) (i : RegIx) (v : BitVec 64) : (s.setX64 i v).mode = s.mode := rfl
@[simp] theorem State.setView_mode (s : State) (w : Width) (i : RegIx) (v : Pattern w) : (s.setView w i v).mode = s.mode := by
  cases w
  · exact State.setX32_mode s i v
  · rfl
@[simp] theorem State.setX32_fcr31 (s : State) (i : RegIx) (v : BitVec 32) : (s.setX32 i v).fcr31 = s.fcr31 := by
  unfold State.setX32; dsimp only; split <;> rfl
@[simp] theorem State.setX64_fcr31 (s : State) (i : RegIx) (v : BitVec 64) : (s.setX64 i v).fcr31 = s.fcr31 := rfl
@[simp] theorem State.setView_fcr31 (s : State) (w : Width) (i : RegIx) (v : Pattern w) : (s.setView w i v).fcr31 = s.fcr31 := by
  cases w
  · exact State.setX32_fcr31 s i v
  · rfl
@[simp] theorem State.setX32_fcr0 (s : State) (i : RegIx) (v : BitVec 32) : (s.setX32 i v).fcr0 = s.fcr0 := by
  unfold State.setX32; dsimp only; split <;> rfl
@[simp] theorem State.setX64_fcr0 (s : State) (i : RegIx) (v : BitVec 64) : (s.setX64 i v).fcr0 = s.fcr0 := rfl
@[simp] theorem State.setView_fcr0 (s : State) (w : Width) (i : RegIx) (v : Pattern w) : (s.setView w i v).fcr0 = s.fcr0 := by
  cases w
  · exact State.setX32_fcr0 s i v
  · rfl
@[simp] theorem State.setX32_requests (s : State) (i : RegIx) (v : BitVec 32) : (s.setX32 i v).requests = s.requests := by
  unfold State.setX32; dsimp only; split <;> rfl
@[simp] theorem State.setX64_requests (s : State) (i : RegIx) (v : BitVec 64) : (s.setX64 i v).requests = s.requests := rfl
@[simp] theorem State.setView_requests (s : State) (w : Width) (i : RegIx) (v : Pattern w) : (s.setView w i v).requests = s.requests := by
  cases w
  · exact State.setX32_requests s i v
  · rfl
@[simp] theorem State.setX32_operand (s : State) (i : RegIx) (v : BitVec 32) : (s.setX32 i v).operand = s.operand := by
  unfold State.setX32; dsimp only; split <;> rfl
@[simp] theorem State.setX64_operand (s : State) (i : RegIx) (v : BitVec 64) : (s.setX64 i v).operand = s.operand := rfl
@[simp] theorem State.setView_operand (s : State) (w : Width) (i : RegIx) (v : Pattern w) : (s.setView w i v).operand = s.operand := by
  cases w
  · exact State.setX32_operand s i v
  · rfl
@[simp] theorem State.setX32_trap (s : State) (i : RegIx) (v : BitVec 32) : (s.setX32 i v).trap = s.trap := by
  unfold State.setX32; dsimp only; split <;> rfl
@[simp] theorem State.setX64_trap (s : State) (i : RegIx) (v : BitVec 64) : (s.setX64 i v).trap = s.trap := rfl
@[simp] theorem State.setView_trap (s : State) (w : Width) (i : RegIx) (v : Pattern w) : (s.setView w i v).trap = s.trap := by
  cases w
  · exact State.setX32_trap s i v
  · rfl
@[simp] theorem State.setX32_reply (s : State) (i : RegIx) (v : BitVec 32) : (s.setX32 i v).reply = s.reply := by
  unfold State.setX32; dsimp only; split <;> rfl
@[simp] theorem State.setX64_reply (s : State) (i : RegIx) (v : BitVec 64) : (s.setX64 i v).reply = s.reply := rfl
@[simp] theorem State.setView_reply (s : State) (w : Width) (i : RegIx) (v : Pattern w) : (s.setView w i v).reply = s.reply := by
  cases w
  · exact State.setX32_reply s i v
  · rfl

/-! ### Slots under the updates that leave them -/

@[simp] theorem State.quiet_slot (s : State) (j : RegIx) : (s.quiet).slot j = s.slot j := rfl
@[simp] theorem State.setFcr31_slot (s : State) (f : BitVec 32) (j : RegIx) : (s.setFcr31 f).slot j = s.slot j := rfl
@[simp] theorem State.signalFpe_slot (s : State) (j : RegIx) : (s.signalFpe).slot j = s.slot j := rfl
@[simp] theorem State.answer_slot (s : State) (r : Reply) (j : RegIx) : (s.answer r).slot j = s.slot j := rfl
@[simp] theorem State.begin_slot (s : State) (j : RegIx) : (s.begin).slot j = s.slot j := rfl
@[simp] theorem State.setC_slot (s : State) (b : Bool) (j : RegIx) : (s.setC b).slot j = s.slot j := rfl
@[simp] theorem State.setAddressingMode_slot (s : State) (full : Bool) (j : RegIx) : (s.setAddressingMode full).slot j = s.slot j := rfl

theorem State.slot_setSlot (s : State) (k j : RegIx) (v : BitVec 64) :
    (s.setSlot k v).slot j = if j = k then v else s.slot j := by
  unfold State.slot State.setSlot
  simp only [Vector.getElem_set]
  by_cases h : k = j
  · subst h; simp
  · have h1 : ¬ k.val = j.val := fun e => h (Fin.ext e)
    have h2 : ¬ j = k := fun e => h e.symm
    simp [h1, h2]

@[simp] theorem State.slot_setSlot_same (s : State) (k : RegIx) (v : BitVec 64) : (s.setSlot k v).slot k = v := by
  simp [State.slot_setSlot]

theorem State.slot_setSlot_ne (s : State) {k j : RegIx} (v : BitVec 64) (h : j ≠ k) :
    (s.setSlot k v).slot j = s.slot j := by
  simp [State.slot_setSlot, h]

@[simp] theorem State.reset_slot (k : RegIx) : State.reset.slot k = 0#64 := by
  unfold State.slot State.reset; simp

/-- Two register files with equal slots are equal. -/
theorem State.p_ext {s t : State} (h : ∀ k, s.slot k = t.slot k) : s.p = t.p := by
  apply Vector.ext
  intro i hi
  exact h ⟨i, hi⟩

/-- Two states with equal slots and equal other fields are equal. -/
theorem State.ext_slots {s t : State} (hp : ∀ k, s.slot k = t.slot k) (hm : s.mode = t.mode)
    (hf : s.fcr31 = t.fcr31) (h0 : s.fcr0 = t.fcr0) (hr : s.requests = t.requests) (ho : s.operand = t.operand)
    (ht : s.trap = t.trap) (hy : s.reply = t.reply) : s = t := by
  have h := State.p_ext hp
  cases s; cases t; simp_all

end Sys2Proof.Machine
end

