-- ==== Sys2Proof/Laws/Views.lean ====
section
/-! SUPPORT. The register-file views: what a read sees after a write, in both addressing modes (R22 to R24). -/

namespace Sys2Proof.Machine

theorem lowWord_append (a b : BitVec 32) : lowWord (a ++ b) = b := by
  unfold lowWord
  ext i hi
  have h : (a ++ b).getLsbD i = _ := BitVec.getLsbD_append
  rw [BitVec.getElem_setWidth]
  simpa [hi] using h

theorem highWord_append (a b : BitVec 32) : highWord (a ++ b) = a := by
  unfold highWord
  ext i hi
  have h : (a ++ b).getLsbD (32 + i) = _ := BitVec.getLsbD_append
  rw [BitVec.getElem_setWidth, BitVec.getLsbD_ushiftRight]
  simpa [BitVec.getLsbD_eq_getElem hi] using h

theorem highWord_append_lowWord (d : BitVec 64) : highWord d ++ lowWord d = d := by
  unfold highWord lowWord
  ext i hi
  rw [BitVec.getElem_append]
  split
  · simp [BitVec.getElem_setWidth, hi]
  · rw [BitVec.getElem_setWidth, BitVec.getLsbD_ushiftRight,
      show 32 + (i - 32) = i by omega, BitVec.getLsbD_eq_getElem hi]

/-- A 64-bit slot is its two halves. -/
theorem dword_ext {d e : BitVec 64} (hl : lowWord d = lowWord e) (hh : highWord d = highWord e) : d = e := by
  rw [← highWord_append_lowWord d, ← highWord_append_lowWord e, hl, hh]

@[simp] theorem slotOf_full (i : RegIx) : slotOf .full i = i := rfl
@[simp] theorem slotOf_half (i : RegIx) : slotOf .half i = evenPartner i := rfl
@[simp] theorem upperHalf_full (i : RegIx) : upperHalf .full i = false := rfl

theorem evenPartner_even (i : RegIx) : (evenPartner i).val % 2 = 0 := by
  simp [evenPartner]

theorem evenPartner_of_even {i : RegIx} (h : i.val % 2 = 0) : evenPartner i = i := by
  apply Fin.ext; simp only [evenPartner]; omega

/-- The slots after a 32-bit view write. -/
theorem State.setX32_slot (s : State) (i : RegIx) (v : BitVec 32) (j : RegIx) :
    (s.setX32 i v).slot j =
      if j = slotOf s.mode i then
        (if upperHalf s.mode i then v ++ lowWord (s.slot (slotOf s.mode i))
          else highWord (s.slot (slotOf s.mode i)) ++ v)
      else s.slot j := by
  unfold State.setX32
  dsimp only
  split <;> simp [State.slot_setSlot]

/-- The slots after a 64-bit view write. -/
theorem State.setX64_slot (s : State) (i : RegIx) (v : BitVec 64) (j : RegIx) :
    (s.setX64 i v).slot j = if j = slotOf s.mode i then v else s.slot j :=
  s.slot_setSlot _ _ _

/-- A view write leaves every slot but the mapped one (R24). -/
theorem State.setView_slot_ne (s : State) (w : Width) (i : RegIx) (v : Pattern w) {j : RegIx}
    (h : j ≠ slotOf s.mode i) : (s.setView w i v).slot j = s.slot j := by
  cases w
  · show (s.setX32 i v).slot j = _
    rw [State.setX32_slot]; simp [h]
  · show (s.setX64 i v).slot j = _
    rw [State.setX64_slot]; simp [h]

@[simp] theorem State.x32_setX32 (s : State) (i : RegIx) (v : BitVec 32) : (s.setX32 i v).x32 i = v := by
  unfold State.x32
  simp only [State.setX32_mode, State.setX32_slot, if_true]
  split
  · exact highWord_append _ _
  · exact lowWord_append _ _

@[simp] theorem State.x64_setX64 (s : State) (i : RegIx) (v : BitVec 64) : (s.setX64 i v).x64 i = v := by
  unfold State.x64
  simp [State.setX64_slot]

/-- A view reads what was written through it. -/
@[simp] theorem State.view_setView (s : State) (w : Width) (i : RegIx) (v : Pattern w) :
    (s.setView w i v).view w i = v := by
  cases w
  · exact State.x32_setX32 s i v
  · exact State.x64_setX64 s i v

/-- A view depends on the mode and the slots only. -/
theorem State.view_congr {s t : State} (hp : s.p = t.p) (hm : s.mode = t.mode) (w : Width) (i : RegIx) :
    s.view w i = t.view w i := by
  cases w <;> simp [State.view, State.x32, State.x64, State.slot, hp, hm]

@[simp] theorem State.begin_view (s : State) (w : Width) (i : RegIx) : s.begin.view w i = s.view w i :=
  State.view_congr rfl rfl w i

/-- The slots a view write leaves depend on the slots and mode before it only. -/
theorem State.setView_p_congr {s t : State} (hp : s.p = t.p) (hm : s.mode = t.mode) (w : Width) (i : RegIx)
    (v : Pattern w) : (s.setView w i v).p = (t.setView w i v).p := by
  cases w
  · simp only [State.setView, State.setX32, State.setSlot, State.slot, hp, hm]
    split <;> simp
  · simp [State.setView, State.setX64, State.setSlot, hp, hm]

end Sys2Proof.Machine
end

