-- ==== Sys2Proof/Laws/Dispatch.lean ====
section
/-! SUPPORT. Everything the dispatcher can do (R253, R254), said once. -/

namespace Sys2Proof.Machine

@[simp] theorem raiseUnimplemented_fcr31 (s : State) : (raiseUnimplemented s).fcr31 = setCauseE s.fcr31 := rfl
@[simp] theorem raiseUnimplemented_trap (s : State) : (raiseUnimplemented s).trap = true := rfl
@[simp] theorem raiseUnimplemented_p (s : State) : (raiseUnimplemented s).p = s.p := rfl
@[simp] theorem raiseUnimplemented_mode (s : State) : (raiseUnimplemented s).mode = s.mode := rfl
@[simp] theorem raiseUnimplemented_fcr0 (s : State) : (raiseUnimplemented s).fcr0 = s.fcr0 := rfl
@[simp] theorem raiseUnimplemented_requests (s : State) : (raiseUnimplemented s).requests = s.requests := rfl
@[simp] theorem raiseUnimplemented_operand (s : State) : (raiseUnimplemented s).operand = s.operand := rfl
@[simp] theorem raiseUnimplemented_reply (s : State) : (raiseUnimplemented s).reply = s.reply := rfl

/-- The state a trap of step 3 leaves (R253, R255). -/
def trapState (bits : ExcSet) (s : State) : State := (s.setFcr31 (setCauseBits bits s.fcr31)).signalFpe

/-- The state the commit of step 4 starts from (R253). -/
def flagState (bits : ExcSet) (s : State) : State := s.setFcr31 (setCauseBits bits (setFlagBits bits s.fcr31))

@[simp] theorem trapState_fcr31 (b : ExcSet) (s : State) : (trapState b s).fcr31 = setCauseBits b s.fcr31 := rfl
@[simp] theorem trapState_trap (b : ExcSet) (s : State) : (trapState b s).trap = true := rfl
@[simp] theorem trapState_p (b : ExcSet) (s : State) : (trapState b s).p = s.p := rfl
@[simp] theorem trapState_mode (b : ExcSet) (s : State) : (trapState b s).mode = s.mode := rfl
@[simp] theorem trapState_fcr0 (b : ExcSet) (s : State) : (trapState b s).fcr0 = s.fcr0 := rfl
@[simp] theorem trapState_requests (b : ExcSet) (s : State) : (trapState b s).requests = s.requests := rfl
@[simp] theorem trapState_operand (b : ExcSet) (s : State) : (trapState b s).operand = s.operand := rfl
@[simp] theorem trapState_reply (b : ExcSet) (s : State) : (trapState b s).reply = s.reply := rfl
@[simp] theorem flagState_fcr31 (b : ExcSet) (s : State) :
    (flagState b s).fcr31 = setCauseBits b (setFlagBits b s.fcr31) := rfl
@[simp] theorem flagState_trap (b : ExcSet) (s : State) : (flagState b s).trap = s.trap := rfl
@[simp] theorem flagState_p (b : ExcSet) (s : State) : (flagState b s).p = s.p := rfl
@[simp] theorem flagState_mode (b : ExcSet) (s : State) : (flagState b s).mode = s.mode := rfl
@[simp] theorem flagState_fcr0 (b : ExcSet) (s : State) : (flagState b s).fcr0 = s.fcr0 := rfl
@[simp] theorem flagState_requests (b : ExcSet) (s : State) : (flagState b s).requests = s.requests := rfl
@[simp] theorem flagState_operand (b : ExcSet) (s : State) : (flagState b s).operand = s.operand := rfl
@[simp] theorem flagState_reply (b : ExcSet) (s : State) : (flagState b s).reply = s.reply := rfl

/-- The dispatcher by its path. -/
theorem dispatchThen_eq (bits : ExcSet) (commit : State → State) (s : State) :
    dispatchThen bits commit s =
      match dispatchPath s.fcr31 bits with
      | .nothing => commit s
      | .unimplemented => raiseUnimplemented s
      | .trap => trapState bits s
      | .flag => commit (flagState bits s) := rfl

theorem dispatchPath_nothing {f : BitVec 32} {bits : ExcSet} (h : dispatchPath f bits = .nothing) :
    bits = .empty := by
  unfold dispatchPath at h
  split at h
  · assumption
  · split at h
    · cases h
    · split at h <;> cases h

theorem dispatchPath_flag {f : BitVec 32} {bits : ExcSet} (h : dispatchPath f bits = .flag) :
    bits ≠ .empty ∧ bits.inter (enables f) = .empty ∧
      (bits.u = true → (enables f).u = false ∧ (enables f).i = false ∧ flushSubnormals f = true) := by
  unfold dispatchPath at h
  split at h
  · cases h
  · rename_i h1
    split at h
    · cases h
    · rename_i h2
      split at h
      · cases h
      · rename_i h3
        refine ⟨h1, by simpa using h3, fun hu => ?_⟩
        simpa [hu, and_assoc] using h2

theorem dispatchPath_trap {f : BitVec 32} {bits : ExcSet} (h : dispatchPath f bits = .trap) :
    bits.inter (enables f) ≠ .empty ∧
      (bits.u = true → (enables f).u = false ∧ (enables f).i = false ∧ flushSubnormals f = true) := by
  unfold dispatchPath at h
  split at h
  · cases h
  · split at h
    · cases h
    · rename_i h2
      split at h
      · rename_i h3
        refine ⟨h3, fun hu => ?_⟩
        simpa [hu, and_assoc] using h2
      · cases h

theorem dispatchPath_unimplemented {f : BitVec 32} {bits : ExcSet} (h : dispatchPath f bits = .unimplemented) :
    bits.u = true ∧ ¬ ((enables f).u = false ∧ (enables f).i = false ∧ flushSubnormals f = true) := by
  unfold dispatchPath at h
  split at h
  · cases h
  · split at h
    · rename_i h2
      rw [Bool.and_eq_true] at h2
      refine ⟨h2.1, fun hc => ?_⟩
      simp [hc.1, hc.2.1, hc.2.2] at h2
    · split at h <;> cases h

/-- The dispatcher's choice does not read the Cause field. -/
@[simp] theorem dispatchPath_clearCauseBits (f : BitVec 32) (bits : ExcSet) :
    dispatchPath (clearCauseBits f) bits = dispatchPath f bits := by
  simp [dispatchPath]

/-- Everything `dispatchThen` can do: commit with no exception, an Unimplemented trap of an underflow that fails the
flag-path rule, a trap of enabled exceptions, or a commit after the flag and cause bits are set. -/
theorem dispatchThen_cases (bits : ExcSet) (commit : State → State) (s : State) :
    (bits = .empty ∧ dispatchThen bits commit s = commit s) ∨
    (bits.u = true ∧ ¬ ((enables s.fcr31).u = false ∧ (enables s.fcr31).i = false ∧ flushSubnormals s.fcr31 = true) ∧
      dispatchThen bits commit s = raiseUnimplemented s) ∨
    (bits.inter (enables s.fcr31) ≠ .empty ∧
      (bits.u = true → (enables s.fcr31).u = false ∧ (enables s.fcr31).i = false ∧ flushSubnormals s.fcr31 = true) ∧
      dispatchThen bits commit s = trapState bits s) ∨
    (bits.inter (enables s.fcr31) = .empty ∧
      (bits.u = true → (enables s.fcr31).u = false ∧ (enables s.fcr31).i = false ∧ flushSubnormals s.fcr31 = true) ∧
      dispatchThen bits commit s = commit (flagState bits s)) := by
  rw [dispatchThen_eq]
  cases h : dispatchPath s.fcr31 bits
  · exact .inl ⟨dispatchPath_nothing h, rfl⟩
  · exact .inr (.inl ⟨(dispatchPath_unimplemented h).1, (dispatchPath_unimplemented h).2, rfl⟩)
  · exact .inr (.inr (.inl ⟨(dispatchPath_trap h).1, (dispatchPath_trap h).2, rfl⟩))
  · exact .inr (.inr (.inr ⟨(dispatchPath_flag h).2.1, (dispatchPath_flag h).2.2, rfl⟩))

end Sys2Proof.Machine
end

