-- ==== Sys2Proof/Laws/Engine.lean ====
section
/-! SUPPORT. Everything an operation of the block can do, said once: it commits after recording its exceptions as flags
and causes, or it traps with Cause.E, or it traps with the causes of its exceptions (R98 to R101, R108, R144, R180,
R253). Later proofs take these cases and never unfold an engine. -/

namespace Sys2Proof.Machine

/-! ### Values and classes -/

theorem val_of_isInfinity {w : Width} {b : Pattern w} (h : (classify b).isInfinity = true) :
    val b = .inf (signBit b) := by
  unfold classify at h
  unfold val
  split at h
  · rename_i h1
    split at h
    · rename_i h2
      simp [h1, h2]
    · split at h <;> simp [FloatClass.isInfinity] at h
  · split at h
    · split at h
      · split at h <;> simp [FloatClass.isInfinity] at h
      · simp [FloatClass.isInfinity] at h
    · simp [FloatClass.isInfinity] at h

theorem val_of_finite {w : Width} {b : Pattern w} (hn : (classify b).isNaN = false)
    (hi : (classify b).isInfinity = false) : ∃ n m e, val b = .fin n m e := by
  unfold classify at hn hi
  unfold val
  split
  · rename_i h1
    rw [if_pos h1] at hn hi
    split
    · rename_i h2
      rw [if_pos h2] at hi
      split at hi <;> simp [FloatClass.isInfinity] at hi
    · rename_i h2
      rw [if_neg h2] at hn
      split at hn <;> simp [FloatClass.isNaN] at hn
  · split
    · exact ⟨_, _, _, rfl⟩
    · exact ⟨_, _, _, rfl⟩

/-! ### The shape of every dispatched set -/

/-- What every set of exception bits an engine dispatches satisfies: Overflow and Underflow come with Inexact, and
Underflow comes with nothing else (R104, R105, R253). -/
structure BitsOk (x : ExcSet) : Prop where
  overflow : x.o = true → x.i = true
  underflow : x.u = true → x.i = true ∧ x.o = false ∧ x.z = false ∧ x.v = false

theorem bitsOk_empty : BitsOk .empty := ⟨by decide, by decide⟩
theorem bitsOk_invalid : BitsOk .invalid := ⟨by decide, by decide⟩
theorem bitsOk_divZero : BitsOk .divZero := ⟨by decide, by decide⟩

theorem bitsOk_binary (q : Config.Params) (op : BinaryOp) {w : Width} (a b pre : Pattern w) (nat : Pattern .w64) :
    BitsOk (binaryBits q op a b pre nat) := by
  constructor
  · intro h
    simp only [binaryBits] at h ⊢
    simp [h]
  · intro h
    simp only [binaryBits, underflows] at h ⊢
    have hc : (classify pre).isInfinity = false := by
      revert h
      cases classify pre <;> simp [FloatClass.isInfinity, FloatClass.isZero]
    exact ⟨by simp [h], by simp [hc], trivial, trivial⟩

theorem bitsOk_unary {w : Width} (a sb : Pattern w) (nat : Pattern .w64) : BitsOk (unaryBits a sb nat) := by
  constructor
  · intro h
    simp only [unaryBits] at h ⊢
    simp [h]
  · intro h
    simp [unaryBits] at h

theorem bitsOk_narrow {a : Pattern .w64} (hn : (classify a).isNaN = false) (hi : (classify a).isInfinity = false) :
    BitsOk (narrowBits a) := by
  obtain ⟨n, m, e, hv⟩ := val_of_finite hn hi
  constructor
  · intro h
    have h2 := val_of_isInfinity (b := (round .w32 (val a) : Pattern .w32)) h
    simp only [narrowBits, h2]
    rw [hv]
    rfl
  · intro h
    simp [narrowBits, ExcSet.empty] at h

theorem bitsOk_f2i {w : Width} (mode : RoundingMode) (a : Pattern w) : BitsOk (f2iBits mode a) := by
  constructor <;> intro h <;> simp [f2iBits, ExcSet.empty] at h

/-- An underflow that passes the flag-path rule never traps: its only causes are I and U, and neither is enabled
(R253). -/
theorem BitsOk.trap_u {x en : ExcSet} {fs : Bool} (ok : BitsOk x)
    (hu : x.u = true → en.u = false ∧ en.i = false ∧ fs = true) (h : x.inter en ≠ .empty) : x.u = false := by
  cases hx : x.u
  · rfl
  · obtain ⟨_, h1, h2, h3⟩ := ok.underflow hx
    obtain ⟨h4, h5, _⟩ := hu hx
    exact absurd (by simp [ExcSet.inter, ExcSet.empty, h1, h2, h3, h4, h5]) h

/-! ### The effect of an operation -/

/-- When the dispatcher lets a set of bits take the flag path or finds nothing to do (R253). -/
structure FlagPath (f : BitVec 32) (bits : ExcSet) : Prop where
  ok : BitsOk bits
  disabled : bits.inter (enables f) = .empty
  eligible : bits.u = true → (enables f).u = false ∧ (enables f).i = false ∧ flushSubnormals f = true

/-- Everything an operation with destination `d` can make of a state. -/
inductive OpEffect (d : Dest) (s : State) : State → Prop where
  | commitReg (w : Width) (fd : RegIx) (hd : d = .reg w fd) (bits : ExcSet) (path : FlagPath s.fcr31 bits)
      (v : Pattern w) : OpEffect d s ((flagState bits s.begin).setView w fd v)
  | commitCond (hd : d = .cond) (bits : ExcSet) (hb : bits = .empty ∨ bits = .invalid)
      (path : FlagPath s.fcr31 bits) (b : Bool) : OpEffect d s ((flagState bits s.begin).setC b)
  | unimplemented : OpEffect d s (raiseUnimplemented s.begin)
  | trap (bits : ExcSet) (ok : BitsOk bits) (enabled : bits.inter (enables s.fcr31) ≠ .empty)
      (noUnderflow : bits.u = false) (hc : d = .cond → bits = .invalid) : OpEffect d s (trapState bits s.begin)

@[simp] theorem setFlagBits_empty (f : BitVec 32) : setFlagBits .empty f = f := by
  simp [setFlagBits, ExcSet.toBits, ExcSet.empty]

@[simp] theorem setCauseBits_empty (f : BitVec 32) : setCauseBits .empty f = f := by
  simp [setCauseBits, ExcSet.toBits, ExcSet.empty]

@[simp] theorem flagState_empty (s : State) : flagState .empty s = s := by
  simp [flagState, State.setFcr31]

theorem ExcSet.empty_inter (x : ExcSet) : ExcSet.empty.inter x = .empty := by
  simp [ExcSet.empty, ExcSet.inter]

theorem flagPath_empty (f : BitVec 32) : FlagPath f .empty :=
  ⟨bitsOk_empty, ExcSet.empty_inter _, fun h => absurd h (by decide)⟩

/-- A dispatch whose commit writes a register. -/
theorem dispatchThen_reg {bits : ExcSet} (ok : BitsOk bits) (w : Width) (fd : RegIx) (v : Pattern w) (s : State) :
    OpEffect (.reg w fd) s (dispatchThen bits (fun t => t.setView w fd v) s.begin) := by
  rcases dispatchThen_cases bits (fun t => t.setView w fd v) s.begin with
    ⟨h, e⟩ | ⟨_, _, e⟩ | ⟨h, hu, e⟩ | ⟨h, hu, e⟩
  · rw [e]
    have := OpEffect.commitReg w fd rfl .empty (flagPath_empty s.fcr31) v (s := s)
    simpa using this
  · rw [e]; exact .unimplemented
  · rw [e]; exact .trap bits ok (by simpa using h) (ok.trap_u (by simpa using hu) (by simpa using h)) (by intro hd; cases hd)
  · rw [e]; exact .commitReg w fd rfl bits ⟨ok, by simpa using h, by simpa using hu⟩ v

/-- A plain register write of an operation that dispatches nothing. -/
theorem begin_reg (w : Width) (fd : RegIx) (v : Pattern w) (s : State) :
    OpEffect (.reg w fd) s (s.begin.setView w fd v) := by
  have := OpEffect.commitReg w fd rfl .empty (flagPath_empty s.fcr31) v (s := s)
  simpa using this

theorem binaryArith_effect (q : Config.Params) (op : BinaryOp) (w : Width) (fd fs ft : RegIx) (s : State) :
    OpEffect (.reg w fd) s (binaryArith q op w fd fs ft s) := by
  unfold binaryArith
  dsimp only
  split
  · exact .unimplemented
  · exact dispatchThen_reg bitsOk_invalid w fd _ s
  · exact dispatchThen_reg bitsOk_divZero w fd _ s
  all_goals exact dispatchThen_reg (bitsOk_binary ..) w fd _ s

theorem unaryArith_effect (op : UnaryOp) (w : Width) (fd fs : RegIx) (s : State) :
    OpEffect (.reg w fd) s (unaryArith op w fd fs s) := by
  unfold unaryArith
  dsimp only
  split
  · exact .unimplemented
  · exact dispatchThen_reg bitsOk_invalid w fd _ s
  all_goals exact dispatchThen_reg (bitsOk_unary ..) w fd _ s

theorem move_effect (w : Width) (fd fs : RegIx) (s : State) : OpEffect (.reg w fd) s (move w fd fs s) :=
  begin_reg w fd _ s

theorem narrow_effect (fd fs : RegIx) (s : State) : OpEffect (.reg .w32 fd) s (narrow fd fs s) := by
  unfold narrow
  dsimp only
  split
  · exact .unimplemented
  · exact .unimplemented
  · exact dispatchThen_reg bitsOk_invalid .w32 fd _ s
  · exact begin_reg .w32 fd _ s
  · exact begin_reg .w32 fd _ s
  all_goals
    rename_i h
    exact dispatchThen_reg (bitsOk_narrow (by rw [h]; rfl) (by rw [h]; rfl)) .w32 fd _ s

theorem widen_effect (fd fs : RegIx) (s : State) : OpEffect (.reg .w64 fd) s (widen fd fs s) := by
  unfold widen
  dsimp only
  split
  · exact .unimplemented
  · exact .unimplemented
  · exact dispatchThen_reg bitsOk_invalid .w64 fd _ s
  all_goals exact begin_reg .w64 fd _ s

theorem intToFloat_effect (src dst : Width) (fd fs : RegIx) (s : State) :
    OpEffect (.reg dst fd) s (intToFloat src dst fd fs s) := begin_reg dst fd _ s

theorem floatToInt_effect (q : Config.Params) (w n : Width) (mode : RoundingMode) (fd fs : RegIx) (s : State) :
    OpEffect (.reg n fd) s (floatToInt q w n mode fd fs s) := by
  unfold floatToInt
  dsimp only
  split
  · exact .unimplemented
  · exact dispatchThen_reg (bitsOk_f2i ..) n fd _ s

theorem compare_effect (w : Width) (pred : Predicate) (fs ft : RegIx) (s : State) :
    OpEffect .cond s (compare w pred fs ft s) := by
  have plain : ∀ b, OpEffect .cond s (s.begin.setC b) := fun b => by
    have := OpEffect.commitCond rfl .empty (.inl rfl) (flagPath_empty s.fcr31) b (s := s)
    simpa using this
  unfold compare
  dsimp only
  split
  · split
    · rcases dispatchThen_cases .invalid (fun t => t.setC pred.unordered) s.begin with
        ⟨h, e⟩ | ⟨_, _, e⟩ | ⟨h, hu, e⟩ | ⟨h, hu, e⟩
      · exact absurd h (by decide)
      · rw [e]; exact .unimplemented
      · rw [e]; exact .trap .invalid bitsOk_invalid (by simpa using h) rfl (fun _ => rfl)
      · rw [e]; exact .commitCond rfl .invalid (.inr rfl) ⟨bitsOk_invalid, by simpa using h, by simpa using hu⟩ _
    · exact plain _
  · exact plain _

/-- Every operation answers a next state, and this is everything that state can be. -/
theorem exec_operation (i : Instr) (h : i.isOperation = true) (s : State) :
    ∃ t, exec i s = .next t ∧ OpEffect i.dest s t := by
  cases i with
  | addS fd fs ft => exact ⟨_, rfl, binaryArith_effect ..⟩
  | addD fd fs ft => exact ⟨_, rfl, binaryArith_effect ..⟩
  | subS fd fs ft => exact ⟨_, rfl, binaryArith_effect ..⟩
  | subD fd fs ft => exact ⟨_, rfl, binaryArith_effect ..⟩
  | mulS fd fs ft => exact ⟨_, rfl, binaryArith_effect ..⟩
  | mulD fd fs ft => exact ⟨_, rfl, binaryArith_effect ..⟩
  | divS fd fs ft => exact ⟨_, rfl, binaryArith_effect ..⟩
  | divD fd fs ft => exact ⟨_, rfl, binaryArith_effect ..⟩
  | sqrtS fd fs => exact ⟨_, rfl, unaryArith_effect ..⟩
  | sqrtD fd fs => exact ⟨_, rfl, unaryArith_effect ..⟩
  | absS fd fs => exact ⟨_, rfl, unaryArith_effect ..⟩
  | absD fd fs => exact ⟨_, rfl, unaryArith_effect ..⟩
  | negS fd fs => exact ⟨_, rfl, unaryArith_effect ..⟩
  | negD fd fs => exact ⟨_, rfl, unaryArith_effect ..⟩
  | movS fd fs => exact ⟨_, rfl, move_effect ..⟩
  | movD fd fs => exact ⟨_, rfl, move_effect ..⟩
  | cvtSD fd fs => exact ⟨_, rfl, narrow_effect ..⟩
  | cvtDS fd fs => exact ⟨_, rfl, widen_effect ..⟩
  | cvtSW fd fs => exact ⟨_, rfl, intToFloat_effect ..⟩
  | cvtSL fd fs => exact ⟨_, rfl, intToFloat_effect ..⟩
  | cvtDW fd fs => exact ⟨_, rfl, intToFloat_effect ..⟩
  | cvtDL fd fs => exact ⟨_, rfl, intToFloat_effect ..⟩
  | roundWS fd fs => exact ⟨_, rfl, floatToInt_effect ..⟩
  | truncWS fd fs => exact ⟨_, rfl, floatToInt_effect ..⟩
  | ceilWS fd fs => exact ⟨_, rfl, floatToInt_effect ..⟩
  | floorWS fd fs => exact ⟨_, rfl, floatToInt_effect ..⟩
  | cvtWS fd fs => exact ⟨_, rfl, floatToInt_effect ..⟩
  | roundLS fd fs => exact ⟨_, rfl, floatToInt_effect ..⟩
  | truncLS fd fs => exact ⟨_, rfl, floatToInt_effect ..⟩
  | ceilLS fd fs => exact ⟨_, rfl, floatToInt_effect ..⟩
  | floorLS fd fs => exact ⟨_, rfl, floatToInt_effect ..⟩
  | cvtLS fd fs => exact ⟨_, rfl, floatToInt_effect ..⟩
  | roundWD fd fs => exact ⟨_, rfl, floatToInt_effect ..⟩
  | truncWD fd fs => exact ⟨_, rfl, floatToInt_effect ..⟩
  | ceilWD fd fs => exact ⟨_, rfl, floatToInt_effect ..⟩
  | floorWD fd fs => exact ⟨_, rfl, floatToInt_effect ..⟩
  | cvtWD fd fs => exact ⟨_, rfl, floatToInt_effect ..⟩
  | roundLD fd fs => exact ⟨_, rfl, floatToInt_effect ..⟩
  | truncLD fd fs => exact ⟨_, rfl, floatToInt_effect ..⟩
  | ceilLD fd fs => exact ⟨_, rfl, floatToInt_effect ..⟩
  | floorLD fd fs => exact ⟨_, rfl, floatToInt_effect ..⟩
  | cvtLD fd fs => exact ⟨_, rfl, floatToInt_effect ..⟩
  | cFS fs ft => exact ⟨_, rfl, compare_effect ..⟩
  | cUnS fs ft => exact ⟨_, rfl, compare_effect ..⟩
  | cEqS fs ft => exact ⟨_, rfl, compare_effect ..⟩
  | cUeqS fs ft => exact ⟨_, rfl, compare_effect ..⟩
  | cOltS fs ft => exact ⟨_, rfl, compare_effect ..⟩
  | cUltS fs ft => exact ⟨_, rfl, compare_effect ..⟩
  | cOleS fs ft => exact ⟨_, rfl, compare_effect ..⟩
  | cUleS fs ft => exact ⟨_, rfl, compare_effect ..⟩
  | cSfS fs ft => exact ⟨_, rfl, compare_effect ..⟩
  | cNgleS fs ft => exact ⟨_, rfl, compare_effect ..⟩
  | cSeqS fs ft => exact ⟨_, rfl, compare_effect ..⟩
  | cNglS fs ft => exact ⟨_, rfl, compare_effect ..⟩
  | cLtS fs ft => exact ⟨_, rfl, compare_effect ..⟩
  | cNgeS fs ft => exact ⟨_, rfl, compare_effect ..⟩
  | cLeS fs ft => exact ⟨_, rfl, compare_effect ..⟩
  | cNgtS fs ft => exact ⟨_, rfl, compare_effect ..⟩
  | cFD fs ft => exact ⟨_, rfl, compare_effect ..⟩
  | cUnD fs ft => exact ⟨_, rfl, compare_effect ..⟩
  | cEqD fs ft => exact ⟨_, rfl, compare_effect ..⟩
  | cUeqD fs ft => exact ⟨_, rfl, compare_effect ..⟩
  | cOltD fs ft => exact ⟨_, rfl, compare_effect ..⟩
  | cUltD fs ft => exact ⟨_, rfl, compare_effect ..⟩
  | cOleD fs ft => exact ⟨_, rfl, compare_effect ..⟩
  | cUleD fs ft => exact ⟨_, rfl, compare_effect ..⟩
  | cSfD fs ft => exact ⟨_, rfl, compare_effect ..⟩
  | cNgleD fs ft => exact ⟨_, rfl, compare_effect ..⟩
  | cSeqD fs ft => exact ⟨_, rfl, compare_effect ..⟩
  | cNglD fs ft => exact ⟨_, rfl, compare_effect ..⟩
  | cLtD fs ft => exact ⟨_, rfl, compare_effect ..⟩
  | cNgeD fs ft => exact ⟨_, rfl, compare_effect ..⟩
  | cLeD fs ft => exact ⟨_, rfl, compare_effect ..⟩
  | cNgtD fs ft => exact ⟨_, rfl, compare_effect ..⟩
  | mfc1 | dmfc1 | cfc1 | mtc1 | dmtc1 | ctc1 | lwc1 | ldc1 | swc1 | sdc1 | bc1f | bc1t | bc1fl | bc1tl => exact absurd h (by simp [Instr.isOperation])

end Sys2Proof.Machine
end

