-- ==== Sys2Proof/Laws/Numeric.lean ====
section
/-! SUPPORT. What the number functions satisfy (R15, R80, R81, R102, R145): the fields of a pattern, nearest-even
division, the exponent of the leading bit, the bound of a rounded magnitude, and the integer square root. Proofs about
rounding rest on these and never unfold the functions. -/

namespace Sys2Proof.Machine

/-! ### The fields of a pattern (R80, R81) -/

section Fields
variable {w : Width}

theorem expField_lt (b : Pattern w) : expField b < 2 ^ w.expBits := Nat.mod_lt _ (Nat.two_pow_pos _)

theorem fracField_lt (b : Pattern w) : fracField b < 2 ^ w.fracBits := Nat.mod_lt _ (Nat.two_pow_pos _)

/-- A pattern is its sign and its magnitude fields. -/
theorem signed_fields (b : Pattern w) :
    signed w (signBit b) (expField b * 2 ^ w.fracBits + fracField b) = b := by
  apply BitVec.eq_of_toNat_eq
  have hb := b.isLt
  have hs : (if signBit b then 2 ^ (w.expBits + w.fracBits) else 0) =
      b.toNat / 2 ^ (w.expBits + w.fracBits) % 2 * 2 ^ (w.expBits + w.fracBits) := by
    unfold signBit
    rcases Nat.mod_two_eq_zero_or_one (b.toNat / 2 ^ (w.expBits + w.fracBits)) with h | h <;> simp [h]
  rw [signed, hs, BitVec.toNat_ofNat]
  cases w <;> simp only [expField, fracField, Width.bits, Width.expBits, Width.fracBits] at hb ⊢ <;> omega

/-- A magnitude pattern up to infinity fits below the sign bit. -/
theorem infMag_lt (w : Width) : infMag w < 2 ^ (w.expBits + w.fracBits) := by cases w <;> decide

theorem toNat_signed (neg : Bool) {mag : Nat} (h : mag < 2 ^ (w.expBits + w.fracBits)) :
    (signed w neg mag).toNat = (if neg then 2 ^ (w.expBits + w.fracBits) else 0) + mag := by
  cases w <;> cases neg <;> simp only [signed, BitVec.toNat_ofNat, Width.bits, Width.expBits, Width.fracBits] at h ⊢ <;>
    simp <;> omega

theorem signBit_signed (neg : Bool) {mag : Nat} (h : mag < 2 ^ (w.expBits + w.fracBits)) :
    signBit (signed w neg mag) = neg := by
  cases w <;> cases neg <;> simp only [signBit, toNat_signed _ h, Width.expBits, Width.fracBits] at h ⊢ <;>
    simp <;> omega

theorem expField_signed (neg : Bool) {mag : Nat} (h : mag < 2 ^ (w.expBits + w.fracBits)) :
    expField (signed w neg mag) = mag / 2 ^ w.fracBits := by
  cases w <;> cases neg <;> simp only [expField, toNat_signed _ h, Width.expBits, Width.fracBits] at h ⊢ <;>
    simp <;> omega

theorem fracField_signed (neg : Bool) {mag : Nat} (h : mag < 2 ^ (w.expBits + w.fracBits)) :
    fracField (signed w neg mag) = mag % 2 ^ w.fracBits := by
  cases w <;> cases neg <;> simp only [fracField, toNat_signed _ h, Width.expBits, Width.fracBits] at h ⊢ <;>
    simp <;> omega

/-- The class of a pattern with magnitude up to infinity, by its magnitude. -/
theorem classify_signed (neg : Bool) {mag : Nat} (h : mag ≤ infMag w) :
    classify (signed w neg mag) =
      if mag = infMag w then (if neg then .negInfinity else .posInfinity)
      else if mag = 0 then (if neg then .negZero else .posZero)
      else if mag < 2 ^ w.fracBits then .denormal
      else .normal := by
  have hl := lt_of_le_of_lt h (infMag_lt w)
  simp only [classify, signBit_signed neg hl, expField_signed neg hl, fracField_signed neg hl]
  cases w <;> simp only [infMag, Width.expBits, Width.fracBits] at h ⊢ <;>
    (repeat' split) <;> first | rfl | omega

/-- A pattern with magnitude up to infinity is no NaN. -/
theorem isNaN_signed (neg : Bool) {mag : Nat} (h : mag ≤ infMag w) : (classify (signed w neg mag)).isNaN = false := by
  rw [classify_signed neg h]
  cases neg <;> (repeat' split) <;> rfl

/-- The value of a pattern whose magnitude is below infinity. -/
theorem val_signed (neg : Bool) {mag : Nat} (h : mag < infMag w) :
    val (signed w neg mag) =
      if mag < 2 ^ w.fracBits then .fin neg mag w.minExp
      else .fin neg (2 ^ w.fracBits + mag % 2 ^ w.fracBits) ((mag / 2 ^ w.fracBits : Nat) - 1 + w.minExp) := by
  have hl := lt_trans h (infMag_lt w)
  simp only [val, signBit_signed neg hl, expField_signed neg hl, fracField_signed neg hl]
  have h1 : ¬ mag / 2 ^ w.fracBits = 2 ^ w.expBits - 1 := by
    cases w <;> simp only [infMag, Width.expBits, Width.fracBits] at h ⊢ <;> omega
  have h2 : mag / 2 ^ w.fracBits = 0 ↔ mag < 2 ^ w.fracBits := by
    cases w <;> simp only [Width.fracBits] <;> omega
  rw [if_neg h1]
  by_cases h3 : mag < 2 ^ w.fracBits
  · rw [if_pos (h2.2 h3), if_pos h3, Nat.mod_eq_of_lt h3]
  · rw [if_neg (mt h2.1 h3), if_neg h3]

theorem val_signed_infMag (neg : Bool) : val (signed w neg (infMag w)) = .inf neg := by
  cases w <;> cases neg <;> decide

/-- Class and value of a pattern together: a NaN has no value, an infinity and a zero have theirs with the sign bit's
sign, a Normal or Denormal has a nonzero one. -/
theorem class_val (b : Pattern w) :
    ((classify b).isNaN = true ∧ val b = .nan) ∨
    (classify b = (if signBit b then .negInfinity else .posInfinity) ∧ val b = .inf (signBit b)) ∨
    (classify b = (if signBit b then .negZero else .posZero) ∧ ∃ e, val b = .fin (signBit b) 0 e) ∨
    ((classify b = .normal ∨ classify b = .denormal) ∧ ∃ m e, 0 < m ∧ val b = .fin (signBit b) m e) := by
  unfold classify val
  by_cases h1 : expField b = 2 ^ w.expBits - 1
  · rw [if_pos h1, if_pos h1]
    by_cases h2 : fracField b = 0
    · exact .inr (.inl ⟨by rw [if_pos h2], by rw [if_pos h2]⟩)
    · refine .inl ⟨?_, by rw [if_neg h2]⟩
      rw [if_neg h2]
      split <;> rfl
  · rw [if_neg h1, if_neg h1]
    by_cases h0 : expField b = 0
    · rw [if_pos h0, if_pos h0]
      by_cases h2 : fracField b = 0
      · exact .inr (.inr (.inl ⟨by rw [if_pos h2], w.minExp, by rw [h2]⟩))
      · exact .inr (.inr (.inr ⟨.inr (by rw [if_neg h2]), fracField b, w.minExp, Nat.pos_of_ne_zero h2, rfl⟩))
    · rw [if_neg h0, if_neg h0]
      have := Nat.two_pow_pos w.fracBits
      exact .inr (.inr (.inr ⟨.inl rfl, _, _, by omega, rfl⟩))

/-- A pattern that is no NaN is an infinity or has its magnitude below it. -/
theorem eq_signed_of_not_nan (b : Pattern w) (h : (classify b).isNaN = false) :
    b = signed w (signBit b) (infMag w) ∨ ∃ mag, mag < infMag w ∧ b = signed w (signBit b) mag := by
  have e1 := expField_lt b
  have e2 := fracField_lt b
  have hb := signed_fields b
  by_cases h1 : expField b = 2 ^ w.expBits - 1
  · left
    have h0 : fracField b = 0 := by
      by_contra hc
      unfold classify at h
      rw [if_pos h1, if_neg hc] at h
      split at h <;> cases h
    rw [h1, h0] at hb
    exact hb.symm
  · refine .inr ⟨_, ?_, hb.symm⟩
    cases w <;> simp only [infMag, Width.expBits, Width.fracBits] at * <;> omega

end Fields

/-! ### Division to the nearest integer (R15, R145) -/

/-- The quotient is within half of the exact one, and even when it is exactly half away. -/
theorem rneQuot_spec (num : Nat) {den : Nat} (h : 0 < den) :
    2 * (rneQuot num den * den) ≤ 2 * num + den ∧ 2 * num ≤ 2 * (rneQuot num den * den) + den ∧
    ((2 * (rneQuot num den * den) = 2 * num + den ∨ 2 * num = 2 * (rneQuot num den * den) + den) →
      rneQuot num den % 2 = 0) := by
  have hd := Nat.div_add_mod' num den
  have hm := Nat.mod_lt num h
  have e1 : (num / den + 1) * den = num / den * den + den := by ring
  have e2 : 2 * ((num / den + 1) * den) = 2 * (num / den * den) + 2 * den := by ring
  unfold rneQuot
  dsimp only
  split
  · omega
  · split
    · omega
    · have h1 : num / den % 2 = 0 ∨ num / den % 2 = 1 := by omega
      rcases h1 with h1 | h1 <;> rw [h1]
      · rw [Nat.add_zero]; omega
      · rw [e1]; omega

theorem rneQuot_mul_right (q : Nat) {den : Nat} (h : 0 < den) : rneQuot (q * den) den = q := by
  unfold rneQuot
  simp [Nat.mul_div_cancel _ h, h]

theorem rneQuot_one (n : Nat) : rneQuot n 1 = n := by simpa using rneQuot_mul_right n (den := 1) (by decide)

theorem rneQuot_mono {a b den : Nat} (h : 0 < den) (hab : a ≤ b) : rneQuot a den ≤ rneQuot b den := by
  obtain ⟨a1, a2, a3⟩ := rneQuot_spec a h
  obtain ⟨b1, b2, b3⟩ := rneQuot_spec b h
  by_contra hc
  have hlt : rneQuot b den + 1 ≤ rneQuot a den := by omega
  have hm := Nat.mul_le_mul_right den hlt
  have e : (rneQuot b den + 1) * den = rneQuot b den * den + den := by ring
  rw [e] at hm
  have hab' : a = b := by omega
  rw [hab'] at hc
  exact hc le_rfl

/-- Scaling both sides leaves the quotient. -/
theorem rneQuot_mul_mul (num den : Nat) {k : Nat} (hk : 0 < k) : rneQuot (num * k) (den * k) = rneQuot num den := by
  unfold rneQuot
  dsimp only
  rw [Nat.mul_div_mul_right _ _ hk, Nat.mul_mod_mul_right]
  have e1 : 2 * (num % den * k) < den * k ↔ 2 * (num % den) < den := by
    rw [← Nat.mul_assoc]; exact Nat.mul_lt_mul_right hk
  have e2 : den * k < 2 * (num % den * k) ↔ den < 2 * (num % den) := by
    rw [← Nat.mul_assoc]; exact Nat.mul_lt_mul_right hk
  simp only [e1, e2]

/-! ### The exponent of the leading bit (R15) -/

theorem powLe_iff (l : Int) (num den : Nat) :
    powLe l num den = true ↔ den * 2 ^ l.toNat ≤ num * 2 ^ (-l).toNat := by
  unfold powLe
  split
  · rename_i h
    have : (-l).toNat = 0 := by omega
    simp [this]
  · rename_i h
    have : l.toNat = 0 := by omega
    simp [this]

theorem powLe_anti {l k : Int} {num den : Nat} (hkl : k ≤ l) (h : powLe l num den = true) :
    powLe k num den = true := by
  rw [powLe_iff] at h ⊢
  obtain ⟨d, rfl⟩ : ∃ d : Nat, l = k + d := ⟨(l - k).toNat, by omega⟩
  have e : (k + d).toNat + (-k).toNat = k.toNat + (-(k + d)).toNat + d := by omega
  have h2 := Nat.mul_le_mul_right (2 ^ (-k).toNat) h
  rw [Nat.mul_assoc, ← Nat.pow_add, e, Nat.pow_add, Nat.pow_add] at h2
  have hp : 0 < 2 ^ (-(k + d : Int)).toNat := Nat.two_pow_pos _
  have h3 : den * 2 ^ k.toNat * 2 ^ d * 2 ^ (-(k + d : Int)).toNat ≤
      num * 2 ^ (-k).toNat * 2 ^ (-(k + d : Int)).toNat := by
    calc _ = den * (2 ^ k.toNat * 2 ^ (-(k + d : Int)).toNat * 2 ^ d) := by ring
      _ ≤ _ := h2
      _ = _ := by ring
  have h4 := Nat.le_of_mul_le_mul_right h3 hp
  have h5 : den * 2 ^ k.toNat * 1 ≤ den * 2 ^ k.toNat * 2 ^ d := Nat.mul_le_mul_left _ Nat.one_le_two_pow
  omega

/-- `floorLog` is the exponent of the leading bit of the quotient: `2^l ≤ num / den < 2^(l+1)`. -/
theorem floorLog_spec {num den : Nat} (hn : 0 < num) (hd : 0 < den) :
    powLe (floorLog num den) num den = true ∧ powLe (floorLog num den + 1) num den = false := by
  have n1 := Nat.log2_self_le (n := num) (by omega)
  have n2 : num < 2 ^ (num.log2 + 1) := Nat.lt_log2_self
  have d1 := Nat.log2_self_le (n := den) (by omega)
  have d2 : den < 2 ^ (den.log2 + 1) := Nat.lt_log2_self
  have top : powLe ((num.log2 : Int) - den.log2 + 1) num den = false := by
    rw [Bool.eq_false_iff, ne_eq, powLe_iff, not_le]
    have e : num.log2 + 1 + (-((num.log2 : Int) - den.log2 + 1)).toNat = den.log2 + ((num.log2 : Int) - den.log2 + 1).toNat := by
      omega
    calc _ < 2 ^ (num.log2 + 1) * 2 ^ (-((num.log2 : Int) - den.log2 + 1)).toNat :=
          Nat.mul_lt_mul_of_pos_right n2 (Nat.two_pow_pos _)
      _ = 2 ^ den.log2 * 2 ^ ((num.log2 : Int) - den.log2 + 1).toNat := by rw [← Nat.pow_add, ← Nat.pow_add, e]
      _ ≤ _ := Nat.mul_le_mul_right _ d1
  have bot : powLe ((num.log2 : Int) - den.log2 - 1) num den = true := by
    rw [powLe_iff]
    have e : den.log2 + 1 + ((num.log2 : Int) - den.log2 - 1).toNat = num.log2 + (-((num.log2 : Int) - den.log2 - 1)).toNat := by
      omega
    calc _ ≤ 2 ^ (den.log2 + 1) * 2 ^ ((num.log2 : Int) - den.log2 - 1).toNat :=
          Nat.mul_le_mul_right _ (Nat.le_of_lt d2)
      _ = 2 ^ num.log2 * 2 ^ (-((num.log2 : Int) - den.log2 - 1)).toNat := by rw [← Nat.pow_add, ← Nat.pow_add, e]
      _ ≤ _ := Nat.mul_le_mul_right _ n1
  unfold floorLog
  dsimp only
  split
  · rename_i h
    exact ⟨h, top⟩
  · rename_i h
    refine ⟨bot, ?_⟩
    rw [show (num.log2 : Int) - den.log2 - 1 + 1 = (num.log2 : Int) - den.log2 by omega]
    simpa using h

/-- The `floorLog` property determines it. -/
theorem floorLog_unique {num den : Nat} (hn : 0 < num) (hd : 0 < den) {l : Int} (h1 : powLe l num den = true)
    (h2 : powLe (l + 1) num den = false) : floorLog num den = l := by
  obtain ⟨f1, f2⟩ := floorLog_spec hn hd
  rcases lt_trichotomy (floorLog num den) l with h | h | h
  · rw [powLe_anti (show floorLog num den + 1 ≤ l by omega) h1] at f2; cases f2
  · exact h
  · rw [powLe_anti (show l + 1 ≤ floorLog num den by omega) f1] at h2; cases h2

/-- A larger numerator has no smaller leading exponent. -/
theorem floorLog_mono {a b den : Nat} (ha : 0 < a) (hd : 0 < den) (h : a ≤ b) : floorLog a den ≤ floorLog b den := by
  by_contra hc
  have f1 := (floorLog_spec ha hd).1
  have f2 := (floorLog_spec (lt_of_lt_of_le ha h) hd).2
  have f3 := powLe_anti (show floorLog b den + 1 ≤ floorLog a den by omega) f1
  have f4 : powLe (floorLog b den + 1) b den = true := by
    rw [powLe_iff] at f3 ⊢
    exact le_trans f3 (Nat.mul_le_mul_right _ h)
  rw [f4] at f2; cases f2

/-! ### The rounded magnitude (R15) -/

/-- A rounded magnitude never passes the infinity pattern. -/
theorem roundMag_le_infMag (w : Width) (num den : Nat) (e : Int) : roundMag w num den e ≤ infMag w := by
  unfold roundMag
  split
  · exact Nat.zero_le _
  · dsimp only
    split
    · exact le_rfl
    · omega

theorem roundMag_zero (w : Width) (den : Nat) (e : Int) : roundMag w 0 den e = 0 := by simp [roundMag]

/-- A rounded real is no NaN. -/
theorem isNaN_roundReal (w : Width) (neg : Bool) (num den : Nat) (e : Int) :
    (classify (roundReal w neg num den e)).isNaN = false := isNaN_signed neg (roundMag_le_infMag w num den e)

/-! ### Rounding depends on the value only (R15) -/

theorem powLe_shift (l : Int) (m k : Nat) : powLe (l + k) (m * 2 ^ k) 1 = powLe l m 1 := by
  rw [Bool.eq_iff_iff, powLe_iff, powLe_iff, Nat.one_mul, Nat.one_mul]
  have hp := Nat.two_pow_pos (-(l + k : Int)).toNat
  have hq := Nat.two_pow_pos l.toNat
  have e : (l + k : Int).toNat + (-l).toNat = l.toNat + (k + (-(l + k : Int)).toNat) := by omega
  have hpow := congrArg (2 ^ ·) e
  simp only [Nat.pow_add] at hpow
  constructor
  · intro h
    have h2 := Nat.mul_le_mul_right (2 ^ (-l).toNat) h
    rw [hpow] at h2
    have h3 : 2 ^ l.toNat * (2 ^ k * 2 ^ (-(l + k : Int)).toNat) ≤
        m * 2 ^ (-l).toNat * (2 ^ k * 2 ^ (-(l + k : Int)).toNat) := by
      calc _ ≤ _ := h2
        _ = _ := by ring
    exact Nat.le_of_mul_le_mul_right h3 (Nat.mul_pos (Nat.two_pow_pos k) hp)
  · intro h
    have h2 := Nat.mul_le_mul_right (2 ^ k * 2 ^ (-(l + k : Int)).toNat) h
    rw [← hpow] at h2
    have h3 : 2 ^ (l + k : Int).toNat * 2 ^ (-l).toNat ≤
        m * 2 ^ k * 2 ^ (-(l + k : Int)).toNat * 2 ^ (-l).toNat := by
      calc _ ≤ _ := h2
        _ = _ := by ring
    exact Nat.le_of_mul_le_mul_right h3 (Nat.two_pow_pos _)

theorem floorLog_shift {m : Nat} (k : Nat) (h : 0 < m) : floorLog (m * 2 ^ k) 1 = floorLog m 1 + k := by
  obtain ⟨f1, f2⟩ := floorLog_spec h (den := 1) (by decide)
  apply floorLog_unique (Nat.mul_pos h (Nat.two_pow_pos k)) (by decide)
  · rw [powLe_shift]; exact f1
  · rw [show floorLog m 1 + k + 1 = floorLog m 1 + 1 + k by omega, powLe_shift]; exact f2

theorem rneScaled_shift (m k : Nat) (j : Int) : rneScaled (m * 2 ^ k) 1 j = rneScaled m 1 (j + k) := by
  have scale : ∀ (a d c : Nat), rneQuot (a * 2 ^ c) (2 ^ d * 2 ^ c) = rneQuot a (2 ^ d) :=
    fun a d c => rneQuot_mul_mul a (2 ^ d) (Nat.two_pow_pos c)
  unfold rneScaled
  by_cases h1 : 0 ≤ j
  · rw [if_pos h1, if_pos (by omega), Nat.mul_assoc, ← Nat.pow_add]
    congr 3; omega
  · rw [if_neg h1]
    simp only [Nat.one_mul]
    by_cases h2 : 0 ≤ j + k
    · rw [if_pos h2]
      have e : m * 2 ^ k = m * 2 ^ (j + k).toNat * 2 ^ (-j).toNat := by
        rw [Nat.mul_assoc, ← Nat.pow_add]; congr 2; omega
      rw [e, rneQuot_mul_right _ (Nat.two_pow_pos _), rneQuot_one]
    · rw [if_neg h2]
      have e : (-j).toNat = (-(j + k)).toNat + k := by omega
      rw [e, Nat.pow_add]
      exact scale m _ k

/-- Moving a power of two between significand and exponent leaves the rounded magnitude. -/
theorem roundMag_shift (w : Width) (m k : Nat) (e : Int) : roundMag w (m * 2 ^ k) 1 e = roundMag w m 1 (e + k) := by
  by_cases h0 : m = 0
  · subst h0; simp [roundMag]
  have hp : 0 < m := Nat.pos_of_ne_zero h0
  have h1 : m * 2 ^ k ≠ 0 := Nat.mul_ne_zero h0 (Nat.two_pow_pos k).ne'
  have hu : ulpExp w (m * 2 ^ k) 1 e = ulpExp w m 1 (e + k) := by
    unfold ulpExp
    rw [floorLog_shift k hp, show floorLog m 1 + k + e = floorLog m 1 + (e + k) by omega]
  unfold roundMag
  rw [if_neg h1, if_neg h0]
  dsimp only
  rw [hu, rneScaled_shift, show e - ulpExp w m 1 (e + k) + k = e + k - ulpExp w m 1 (e + k) by omega]

/-- Equal magnitudes, written over a common exponent `k`, round alike. -/
theorem roundMag_congr (w : Width) {m m' : Nat} {e e' k : Int} (hk : k ≤ e) (hk' : k ≤ e')
    (h : m * 2 ^ (e - k).toNat = m' * 2 ^ (e' - k).toNat) : roundMag w m 1 e = roundMag w m' 1 e' := by
  have h1 := roundMag_shift w m (e - k).toNat k
  have h2 := roundMag_shift w m' (e' - k).toNat k
  rw [show k + ((e - k).toNat : Int) = e by omega] at h1
  rw [show k + ((e' - k).toNat : Int) = e' by omega] at h2
  rw [← h1, ← h2, h]

/-! ### The integer square root (R102) -/

theorem isqrtLoop_spec (n : Nat) : ∀ (k r : Nat), r * r ≤ n → n < (r + 2 ^ k) * (r + 2 ^ k) →
    isqrtLoop n k r * isqrtLoop n k r ≤ n ∧ n < (isqrtLoop n k r + 1) * (isqrtLoop n k r + 1)
  | 0, r, h1, h2 => ⟨h1, by simpa [isqrtLoop] using h2⟩
  | k + 1, r, h1, h2 => by
    unfold isqrtLoop
    split
    · rename_i h
      exact isqrtLoop_spec n k _ h (by rw [Nat.add_assoc, ← Nat.two_mul, ← Nat.pow_succ']; exact h2)
    · rename_i h
      exact isqrtLoop_spec n k r h1 (by omega)

/-- `isqrt n` is the greatest number whose square does not pass `n`. -/
theorem isqrt_spec (n : Nat) : isqrt n * isqrt n ≤ n ∧ n < (isqrt n + 1) * (isqrt n + 1) := by
  refine isqrtLoop_spec n _ 0 (Nat.zero_le _) ?_
  have h : n < 2 ^ (n.log2 + 1) := Nat.lt_log2_self
  rw [Nat.zero_add, ← Nat.pow_add]
  exact lt_of_lt_of_le h (Nat.pow_le_pow_right (by decide) (by omega))

end Sys2Proof.Machine
end

