-- ==== Sys2Proof/Laws/PerInstr.lean ====
section
/-! SUPPORT. The family MatchesRow: the word the encoder writes has, in every fixed field of the instruction's row of
spec/opcode_table.json, the value the row gives. A statement about the syntax and its encoding only. -/

namespace Sys2Proof.Laws.MatchesRow

open Sys2Proof

/-- A fixed field of an opcode-table row: its bits and its value. -/
structure FixedField where
  hi : Nat
  lo : Nat
  value : Nat
  deriving DecidableEq, Repr

/-- The `fixed` fields of the instruction's row of spec/opcode_table.json. -/
def fixedFields : Instr → List FixedField
  | .addS _ _ _ => [⟨5, 0, 0⟩, ⟨31, 21, 560⟩]
  | .addD _ _ _ => [⟨5, 0, 0⟩, ⟨31, 21, 561⟩]
  | .subS _ _ _ => [⟨5, 0, 1⟩, ⟨31, 21, 560⟩]
  | .subD _ _ _ => [⟨5, 0, 1⟩, ⟨31, 21, 561⟩]
  | .mulS _ _ _ => [⟨5, 0, 2⟩, ⟨31, 21, 560⟩]
  | .mulD _ _ _ => [⟨5, 0, 2⟩, ⟨31, 21, 561⟩]
  | .divS _ _ _ => [⟨5, 0, 3⟩, ⟨31, 21, 560⟩]
  | .divD _ _ _ => [⟨5, 0, 3⟩, ⟨31, 21, 561⟩]
  | .sqrtS _ _ => [⟨5, 0, 4⟩, ⟨31, 16, 17920⟩]
  | .sqrtD _ _ => [⟨5, 0, 4⟩, ⟨31, 16, 17952⟩]
  | .absS _ _ => [⟨5, 0, 5⟩, ⟨31, 16, 17920⟩]
  | .absD _ _ => [⟨5, 0, 5⟩, ⟨31, 16, 17952⟩]
  | .negS _ _ => [⟨5, 0, 7⟩, ⟨31, 16, 17920⟩]
  | .negD _ _ => [⟨5, 0, 7⟩, ⟨31, 16, 17952⟩]
  | .movS _ _ => [⟨5, 0, 6⟩, ⟨31, 16, 17920⟩]
  | .movD _ _ => [⟨5, 0, 6⟩, ⟨31, 16, 17952⟩]
  | .cvtSD _ _ => [⟨5, 0, 32⟩, ⟨31, 16, 17952⟩]
  | .cvtDS _ _ => [⟨5, 0, 33⟩, ⟨31, 16, 17920⟩]
  | .cvtSW _ _ => [⟨5, 0, 32⟩, ⟨31, 16, 18048⟩]
  | .cvtSL _ _ => [⟨5, 0, 32⟩, ⟨31, 16, 18080⟩]
  | .cvtDW _ _ => [⟨5, 0, 33⟩, ⟨31, 16, 18048⟩]
  | .cvtDL _ _ => [⟨5, 0, 33⟩, ⟨31, 16, 18080⟩]
  | .roundWS _ _ => [⟨5, 0, 12⟩, ⟨31, 16, 17920⟩]
  | .truncWS _ _ => [⟨5, 0, 13⟩, ⟨31, 16, 17920⟩]
  | .ceilWS _ _ => [⟨5, 0, 14⟩, ⟨31, 16, 17920⟩]
  | .floorWS _ _ => [⟨5, 0, 15⟩, ⟨31, 16, 17920⟩]
  | .cvtWS _ _ => [⟨5, 0, 36⟩, ⟨31, 16, 17920⟩]
  | .roundLS _ _ => [⟨5, 0, 8⟩, ⟨31, 16, 17920⟩]
  | .truncLS _ _ => [⟨5, 0, 9⟩, ⟨31, 16, 17920⟩]
  | .ceilLS _ _ => [⟨5, 0, 10⟩, ⟨31, 16, 17920⟩]
  | .floorLS _ _ => [⟨5, 0, 11⟩, ⟨31, 16, 17920⟩]
  | .cvtLS _ _ => [⟨5, 0, 37⟩, ⟨31, 16, 17920⟩]
  | .roundWD _ _ => [⟨5, 0, 12⟩, ⟨31, 16, 17952⟩]
  | .truncWD _ _ => [⟨5, 0, 13⟩, ⟨31, 16, 17952⟩]
  | .ceilWD _ _ => [⟨5, 0, 14⟩, ⟨31, 16, 17952⟩]
  | .floorWD _ _ => [⟨5, 0, 15⟩, ⟨31, 16, 17952⟩]
  | .cvtWD _ _ => [⟨5, 0, 36⟩, ⟨31, 16, 17952⟩]
  | .roundLD _ _ => [⟨5, 0, 8⟩, ⟨31, 16, 17952⟩]
  | .truncLD _ _ => [⟨5, 0, 9⟩, ⟨31, 16, 17952⟩]
  | .ceilLD _ _ => [⟨5, 0, 10⟩, ⟨31, 16, 17952⟩]
  | .floorLD _ _ => [⟨5, 0, 11⟩, ⟨31, 16, 17952⟩]
  | .cvtLD _ _ => [⟨5, 0, 37⟩, ⟨31, 16, 17952⟩]
  | .cFS _ _ => [⟨10, 0, 48⟩, ⟨31, 21, 560⟩]
  | .cUnS _ _ => [⟨10, 0, 49⟩, ⟨31, 21, 560⟩]
  | .cEqS _ _ => [⟨10, 0, 50⟩, ⟨31, 21, 560⟩]
  | .cUeqS _ _ => [⟨10, 0, 51⟩, ⟨31, 21, 560⟩]
  | .cOltS _ _ => [⟨10, 0, 52⟩, ⟨31, 21, 560⟩]
  | .cUltS _ _ => [⟨10, 0, 53⟩, ⟨31, 21, 560⟩]
  | .cOleS _ _ => [⟨10, 0, 54⟩, ⟨31, 21, 560⟩]
  | .cUleS _ _ => [⟨10, 0, 55⟩, ⟨31, 21, 560⟩]
  | .cSfS _ _ => [⟨10, 0, 56⟩, ⟨31, 21, 560⟩]
  | .cNgleS _ _ => [⟨10, 0, 57⟩, ⟨31, 21, 560⟩]
  | .cSeqS _ _ => [⟨10, 0, 58⟩, ⟨31, 21, 560⟩]
  | .cNglS _ _ => [⟨10, 0, 59⟩, ⟨31, 21, 560⟩]
  | .cLtS _ _ => [⟨10, 0, 60⟩, ⟨31, 21, 560⟩]
  | .cNgeS _ _ => [⟨10, 0, 61⟩, ⟨31, 21, 560⟩]
  | .cLeS _ _ => [⟨10, 0, 62⟩, ⟨31, 21, 560⟩]
  | .cNgtS _ _ => [⟨10, 0, 63⟩, ⟨31, 21, 560⟩]
  | .cFD _ _ => [⟨10, 0, 48⟩, ⟨31, 21, 561⟩]
  | .cUnD _ _ => [⟨10, 0, 49⟩, ⟨31, 21, 561⟩]
  | .cEqD _ _ => [⟨10, 0, 50⟩, ⟨31, 21, 561⟩]
  | .cUeqD _ _ => [⟨10, 0, 51⟩, ⟨31, 21, 561⟩]
  | .cOltD _ _ => [⟨10, 0, 52⟩, ⟨31, 21, 561⟩]
  | .cUltD _ _ => [⟨10, 0, 53⟩, ⟨31, 21, 561⟩]
  | .cOleD _ _ => [⟨10, 0, 54⟩, ⟨31, 21, 561⟩]
  | .cUleD _ _ => [⟨10, 0, 55⟩, ⟨31, 21, 561⟩]
  | .cSfD _ _ => [⟨10, 0, 56⟩, ⟨31, 21, 561⟩]
  | .cNgleD _ _ => [⟨10, 0, 57⟩, ⟨31, 21, 561⟩]
  | .cSeqD _ _ => [⟨10, 0, 58⟩, ⟨31, 21, 561⟩]
  | .cNglD _ _ => [⟨10, 0, 59⟩, ⟨31, 21, 561⟩]
  | .cLtD _ _ => [⟨10, 0, 60⟩, ⟨31, 21, 561⟩]
  | .cNgeD _ _ => [⟨10, 0, 61⟩, ⟨31, 21, 561⟩]
  | .cLeD _ _ => [⟨10, 0, 62⟩, ⟨31, 21, 561⟩]
  | .cNgtD _ _ => [⟨10, 0, 63⟩, ⟨31, 21, 561⟩]
  | .mfc1 _ _ => [⟨10, 0, 0⟩, ⟨31, 21, 544⟩]
  | .dmfc1 _ _ => [⟨10, 0, 0⟩, ⟨31, 21, 545⟩]
  | .cfc1 _ _ => [⟨10, 0, 0⟩, ⟨31, 21, 546⟩]
  | .mtc1 _ _ => [⟨10, 0, 0⟩, ⟨31, 21, 548⟩]
  | .dmtc1 _ _ => [⟨10, 0, 0⟩, ⟨31, 21, 549⟩]
  | .ctc1 _ _ => [⟨10, 0, 0⟩, ⟨31, 21, 550⟩]
  | .lwc1 _ _ _ => [⟨31, 26, 49⟩]
  | .ldc1 _ _ _ => [⟨31, 26, 53⟩]
  | .swc1 _ _ _ => [⟨31, 26, 57⟩]
  | .sdc1 _ _ _ => [⟨31, 26, 61⟩]
  | .bc1f _ => [⟨31, 16, 17664⟩]
  | .bc1t _ => [⟨31, 16, 17665⟩]
  | .bc1fl _ => [⟨31, 16, 17666⟩]
  | .bc1tl _ => [⟨31, 16, 17667⟩]

/-- The encoding has every fixed field of its row. -/
def Statement (i : Instr) : Prop := ∀ f ∈ fixedFields i, field (encode i) f.lo (f.hi + 1 - f.lo) = f.value

theorem two_fields {w : Word} {a b : FixedField} (ha : field w a.lo (a.hi + 1 - a.lo) = a.value)
    (hb : field w b.lo (b.hi + 1 - b.lo) = b.value) :
    ∀ f ∈ [a, b], field w f.lo (f.hi + 1 - f.lo) = f.value := by
  intro f hf
  simp only [List.mem_cons, List.not_mem_nil, or_false] at hf
  rcases hf with rfl | rfl <;> assumption

theorem one_field {w : Word} {a : FixedField} (ha : field w a.lo (a.hi + 1 - a.lo) = a.value) :
    ∀ f ∈ [a], field w f.lo (f.hi + 1 - f.lo) = f.value := by
  intro f hf
  simp only [List.mem_cons, List.not_mem_nil, or_false] at hf
  rcases hf with rfl; assumption

/-- The row of a two-source operation fixes bits 31:21 and 5:0. -/
theorem binary_row (ft fs fd : RegIx) {fmt funct v : Nat} (hf : fmt < 32) (hn : funct < 64) (hv : 544 + fmt = v) :
    ∀ f ∈ ([⟨5, 0, funct⟩, ⟨31, 21, v⟩] : List FixedField),
      field (encodeFR fmt ft fs fd funct) f.lo (f.hi + 1 - f.lo) = f.value := by
  apply two_fields <;> simp only [field, encodeFR_toNat _ _ _ hf hn] <;> omega

/-- The row of a one-source operation fixes the ft field too. -/
theorem unary_row (fs fd : RegIx) {fmt funct v : Nat} (hf : fmt < 32) (hn : funct < 64) (hv : (544 + fmt) * 32 = v) :
    ∀ f ∈ ([⟨5, 0, funct⟩, ⟨31, 16, v⟩] : List FixedField),
      field (encodeFR fmt 0 fs fd funct) f.lo (f.hi + 1 - f.lo) = f.value := by
  apply two_fields <;> simp only [field, encodeFR_toNat _ _ _ hf hn] <;> simp <;> omega

/-- The row of a comparison fixes the fd field too. -/
theorem compare_row (ft fs : RegIx) {fmt funct v : Nat} (hf : fmt < 32) (hn : funct < 64) (hv : 544 + fmt = v) :
    ∀ f ∈ ([⟨10, 0, funct⟩, ⟨31, 21, v⟩] : List FixedField),
      field (encodeFR fmt ft fs 0 funct) f.lo (f.hi + 1 - f.lo) = f.value := by
  apply two_fields <;> simp only [field, encodeFR_toNat _ _ _ hf hn] <;> simp <;> omega

/-- The row of a register transfer fixes bits 31:21 and 10:0. -/
theorem transfer_row (rt fs : RegIx) {rs v : Nat} (h : rs < 32) (hv : 544 + rs = v) :
    ∀ f ∈ ([⟨10, 0, 0⟩, ⟨31, 21, v⟩] : List FixedField),
      field (encodeMV rs rt fs) f.lo (f.hi + 1 - f.lo) = f.value := by
  apply two_fields <;> simp only [field, encodeMV_toNat _ _ h] <;> omega

/-- The row of a load or store fixes the op field. -/
theorem mem_row (base ft : RegIx) (offset : BitVec 16) {op : Nat} (h : op < 64) :
    ∀ f ∈ ([⟨31, 26, op⟩] : List FixedField),
      field (encodeMem op base ft offset) f.lo (f.hi + 1 - f.lo) = f.value := by
  apply one_field; simp only [field, encodeMem_toNat _ _ _ h]; omega

/-- The row of a branch fixes bits 31:16. -/
theorem branch_row (offset : BitVec 16) {sel v : Nat} (h : sel < 32) (hv : 17664 + sel = v) :
    ∀ f ∈ ([⟨31, 16, v⟩] : List FixedField),
      field (encodeBC sel offset) f.lo (f.hi + 1 - f.lo) = f.value := by
  apply one_field; simp only [field, encodeBC_toNat _ h]; omega

theorem addS (fd : RegIx) (fs : RegIx) (ft : RegIx) : Statement (.addS fd fs ft) := binary_row ft fs fd (by decide) (by decide) rfl
theorem addD (fd : RegIx) (fs : RegIx) (ft : RegIx) : Statement (.addD fd fs ft) := binary_row ft fs fd (by decide) (by decide) rfl
theorem subS (fd : RegIx) (fs : RegIx) (ft : RegIx) : Statement (.subS fd fs ft) := binary_row ft fs fd (by decide) (by decide) rfl
theorem subD (fd : RegIx) (fs : RegIx) (ft : RegIx) : Statement (.subD fd fs ft) := binary_row ft fs fd (by decide) (by decide) rfl
theorem mulS (fd : RegIx) (fs : RegIx) (ft : RegIx) : Statement (.mulS fd fs ft) := binary_row ft fs fd (by decide) (by decide) rfl
theorem mulD (fd : RegIx) (fs : RegIx) (ft : RegIx) : Statement (.mulD fd fs ft) := binary_row ft fs fd (by decide) (by decide) rfl
theorem divS (fd : RegIx) (fs : RegIx) (ft : RegIx) : Statement (.divS fd fs ft) := binary_row ft fs fd (by decide) (by decide) rfl
theorem divD (fd : RegIx) (fs : RegIx) (ft : RegIx) : Statement (.divD fd fs ft) := binary_row ft fs fd (by decide) (by decide) rfl
theorem sqrtS (fd : RegIx) (fs : RegIx) : Statement (.sqrtS fd fs) := unary_row fs fd (by decide) (by decide) rfl
theorem sqrtD (fd : RegIx) (fs : RegIx) : Statement (.sqrtD fd fs) := unary_row fs fd (by decide) (by decide) rfl
theorem absS (fd : RegIx) (fs : RegIx) : Statement (.absS fd fs) := unary_row fs fd (by decide) (by decide) rfl
theorem absD (fd : RegIx) (fs : RegIx) : Statement (.absD fd fs) := unary_row fs fd (by decide) (by decide) rfl
theorem negS (fd : RegIx) (fs : RegIx) : Statement (.negS fd fs) := unary_row fs fd (by decide) (by decide) rfl
theorem negD (fd : RegIx) (fs : RegIx) : Statement (.negD fd fs) := unary_row fs fd (by decide) (by decide) rfl
theorem movS (fd : RegIx) (fs : RegIx) : Statement (.movS fd fs) := unary_row fs fd (by decide) (by decide) rfl
theorem movD (fd : RegIx) (fs : RegIx) : Statement (.movD fd fs) := unary_row fs fd (by decide) (by decide) rfl
theorem cvtSD (fd : RegIx) (fs : RegIx) : Statement (.cvtSD fd fs) := unary_row fs fd (by decide) (by decide) rfl
theorem cvtDS (fd : RegIx) (fs : RegIx) : Statement (.cvtDS fd fs) := unary_row fs fd (by decide) (by decide) rfl
theorem cvtSW (fd : RegIx) (fs : RegIx) : Statement (.cvtSW fd fs) := unary_row fs fd (by decide) (by decide) rfl
theorem cvtSL (fd : RegIx) (fs : RegIx) : Statement (.cvtSL fd fs) := unary_row fs fd (by decide) (by decide) rfl
theorem cvtDW (fd : RegIx) (fs : RegIx) : Statement (.cvtDW fd fs) := unary_row fs fd (by decide) (by decide) rfl
theorem cvtDL (fd : RegIx) (fs : RegIx) : Statement (.cvtDL fd fs) := unary_row fs fd (by decide) (by decide) rfl
theorem roundWS (fd : RegIx) (fs : RegIx) : Statement (.roundWS fd fs) := unary_row fs fd (by decide) (by decide) rfl
theorem truncWS (fd : RegIx) (fs : RegIx) : Statement (.truncWS fd fs) := unary_row fs fd (by decide) (by decide) rfl
theorem ceilWS (fd : RegIx) (fs : RegIx) : Statement (.ceilWS fd fs) := unary_row fs fd (by decide) (by decide) rfl
theorem floorWS (fd : RegIx) (fs : RegIx) : Statement (.floorWS fd fs) := unary_row fs fd (by decide) (by decide) rfl
theorem cvtWS (fd : RegIx) (fs : RegIx) : Statement (.cvtWS fd fs) := unary_row fs fd (by decide) (by decide) rfl
theorem roundLS (fd : RegIx) (fs : RegIx) : Statement (.roundLS fd fs) := unary_row fs fd (by decide) (by decide) rfl
theorem truncLS (fd : RegIx) (fs : RegIx) : Statement (.truncLS fd fs) := unary_row fs fd (by decide) (by decide) rfl
theorem ceilLS (fd : RegIx) (fs : RegIx) : Statement (.ceilLS fd fs) := unary_row fs fd (by decide) (by decide) rfl
theorem floorLS (fd : RegIx) (fs : RegIx) : Statement (.floorLS fd fs) := unary_row fs fd (by decide) (by decide) rfl
theorem cvtLS (fd : RegIx) (fs : RegIx) : Statement (.cvtLS fd fs) := unary_row fs fd (by decide) (by decide) rfl
theorem roundWD (fd : RegIx) (fs : RegIx) : Statement (.roundWD fd fs) := unary_row fs fd (by decide) (by decide) rfl
theorem truncWD (fd : RegIx) (fs : RegIx) : Statement (.truncWD fd fs) := unary_row fs fd (by decide) (by decide) rfl
theorem ceilWD (fd : RegIx) (fs : RegIx) : Statement (.ceilWD fd fs) := unary_row fs fd (by decide) (by decide) rfl
theorem floorWD (fd : RegIx) (fs : RegIx) : Statement (.floorWD fd fs) := unary_row fs fd (by decide) (by decide) rfl
theorem cvtWD (fd : RegIx) (fs : RegIx) : Statement (.cvtWD fd fs) := unary_row fs fd (by decide) (by decide) rfl
theorem roundLD (fd : RegIx) (fs : RegIx) : Statement (.roundLD fd fs) := unary_row fs fd (by decide) (by decide) rfl
theorem truncLD (fd : RegIx) (fs : RegIx) : Statement (.truncLD fd fs) := unary_row fs fd (by decide) (by decide) rfl
theorem ceilLD (fd : RegIx) (fs : RegIx) : Statement (.ceilLD fd fs) := unary_row fs fd (by decide) (by decide) rfl
theorem floorLD (fd : RegIx) (fs : RegIx) : Statement (.floorLD fd fs) := unary_row fs fd (by decide) (by decide) rfl
theorem cvtLD (fd : RegIx) (fs : RegIx) : Statement (.cvtLD fd fs) := unary_row fs fd (by decide) (by decide) rfl
theorem cFS (fs : RegIx) (ft : RegIx) : Statement (.cFS fs ft) := compare_row ft fs (by decide) (by decide) rfl
theorem cUnS (fs : RegIx) (ft : RegIx) : Statement (.cUnS fs ft) := compare_row ft fs (by decide) (by decide) rfl
theorem cEqS (fs : RegIx) (ft : RegIx) : Statement (.cEqS fs ft) := compare_row ft fs (by decide) (by decide) rfl
theorem cUeqS (fs : RegIx) (ft : RegIx) : Statement (.cUeqS fs ft) := compare_row ft fs (by decide) (by decide) rfl
theorem cOltS (fs : RegIx) (ft : RegIx) : Statement (.cOltS fs ft) := compare_row ft fs (by decide) (by decide) rfl
theorem cUltS (fs : RegIx) (ft : RegIx) : Statement (.cUltS fs ft) := compare_row ft fs (by decide) (by decide) rfl
theorem cOleS (fs : RegIx) (ft : RegIx) : Statement (.cOleS fs ft) := compare_row ft fs (by decide) (by decide) rfl
theorem cUleS (fs : RegIx) (ft : RegIx) : Statement (.cUleS fs ft) := compare_row ft fs (by decide) (by decide) rfl
theorem cSfS (fs : RegIx) (ft : RegIx) : Statement (.cSfS fs ft) := compare_row ft fs (by decide) (by decide) rfl
theorem cNgleS (fs : RegIx) (ft : RegIx) : Statement (.cNgleS fs ft) := compare_row ft fs (by decide) (by decide) rfl
theorem cSeqS (fs : RegIx) (ft : RegIx) : Statement (.cSeqS fs ft) := compare_row ft fs (by decide) (by decide) rfl
theorem cNglS (fs : RegIx) (ft : RegIx) : Statement (.cNglS fs ft) := compare_row ft fs (by decide) (by decide) rfl
theorem cLtS (fs : RegIx) (ft : RegIx) : Statement (.cLtS fs ft) := compare_row ft fs (by decide) (by decide) rfl
theorem cNgeS (fs : RegIx) (ft : RegIx) : Statement (.cNgeS fs ft) := compare_row ft fs (by decide) (by decide) rfl
theorem cLeS (fs : RegIx) (ft : RegIx) : Statement (.cLeS fs ft) := compare_row ft fs (by decide) (by decide) rfl
theorem cNgtS (fs : RegIx) (ft : RegIx) : Statement (.cNgtS fs ft) := compare_row ft fs (by decide) (by decide) rfl
theorem cFD (fs : RegIx) (ft : RegIx) : Statement (.cFD fs ft) := compare_row ft fs (by decide) (by decide) rfl
theorem cUnD (fs : RegIx) (ft : RegIx) : Statement (.cUnD fs ft) := compare_row ft fs (by decide) (by decide) rfl
theorem cEqD (fs : RegIx) (ft : RegIx) : Statement (.cEqD fs ft) := compare_row ft fs (by decide) (by decide) rfl
theorem cUeqD (fs : RegIx) (ft : RegIx) : Statement (.cUeqD fs ft) := compare_row ft fs (by decide) (by decide) rfl
theorem cOltD (fs : RegIx) (ft : RegIx) : Statement (.cOltD fs ft) := compare_row ft fs (by decide) (by decide) rfl
theorem cUltD (fs : RegIx) (ft : RegIx) : Statement (.cUltD fs ft) := compare_row ft fs (by decide) (by decide) rfl
theorem cOleD (fs : RegIx) (ft : RegIx) : Statement (.cOleD fs ft) := compare_row ft fs (by decide) (by decide) rfl
theorem cUleD (fs : RegIx) (ft : RegIx) : Statement (.cUleD fs ft) := compare_row ft fs (by decide) (by decide) rfl
theorem cSfD (fs : RegIx) (ft : RegIx) : Statement (.cSfD fs ft) := compare_row ft fs (by decide) (by decide) rfl
theorem cNgleD (fs : RegIx) (ft : RegIx) : Statement (.cNgleD fs ft) := compare_row ft fs (by decide) (by decide) rfl
theorem cSeqD (fs : RegIx) (ft : RegIx) : Statement (.cSeqD fs ft) := compare_row ft fs (by decide) (by decide) rfl
theorem cNglD (fs : RegIx) (ft : RegIx) : Statement (.cNglD fs ft) := compare_row ft fs (by decide) (by decide) rfl
theorem cLtD (fs : RegIx) (ft : RegIx) : Statement (.cLtD fs ft) := compare_row ft fs (by decide) (by decide) rfl
theorem cNgeD (fs : RegIx) (ft : RegIx) : Statement (.cNgeD fs ft) := compare_row ft fs (by decide) (by decide) rfl
theorem cLeD (fs : RegIx) (ft : RegIx) : Statement (.cLeD fs ft) := compare_row ft fs (by decide) (by decide) rfl
theorem cNgtD (fs : RegIx) (ft : RegIx) : Statement (.cNgtD fs ft) := compare_row ft fs (by decide) (by decide) rfl
theorem mfc1 (rt : RegIx) (fs : RegIx) : Statement (.mfc1 rt fs) := transfer_row rt fs (by decide) rfl
theorem dmfc1 (rt : RegIx) (fs : RegIx) : Statement (.dmfc1 rt fs) := transfer_row rt fs (by decide) rfl
theorem cfc1 (rt : RegIx) (fs : RegIx) : Statement (.cfc1 rt fs) := transfer_row rt fs (by decide) rfl
theorem mtc1 (rt : RegIx) (fs : RegIx) : Statement (.mtc1 rt fs) := transfer_row rt fs (by decide) rfl
theorem dmtc1 (rt : RegIx) (fs : RegIx) : Statement (.dmtc1 rt fs) := transfer_row rt fs (by decide) rfl
theorem ctc1 (rt : RegIx) (fs : RegIx) : Statement (.ctc1 rt fs) := transfer_row rt fs (by decide) rfl
theorem lwc1 (ft : RegIx) (offset : BitVec 16) (base : RegIx) : Statement (.lwc1 ft offset base) := mem_row base ft offset (by decide)
theorem ldc1 (ft : RegIx) (offset : BitVec 16) (base : RegIx) : Statement (.ldc1 ft offset base) := mem_row base ft offset (by decide)
theorem swc1 (ft : RegIx) (offset : BitVec 16) (base : RegIx) : Statement (.swc1 ft offset base) := mem_row base ft offset (by decide)
theorem sdc1 (ft : RegIx) (offset : BitVec 16) (base : RegIx) : Statement (.sdc1 ft offset base) := mem_row base ft offset (by decide)
theorem bc1f (offset : BitVec 16) : Statement (.bc1f offset) := branch_row offset (by decide) rfl
theorem bc1t (offset : BitVec 16) : Statement (.bc1t offset) := branch_row offset (by decide) rfl
theorem bc1fl (offset : BitVec 16) : Statement (.bc1fl offset) := branch_row offset (by decide) rfl
theorem bc1tl (offset : BitVec 16) : Statement (.bc1tl offset) := branch_row offset (by decide) rfl

end Sys2Proof.Laws.MatchesRow
end

