-- ==== Sys2Proof/Laws/Rounding.lean ====
section
/-! SUPPORT. Rounding to nearest even (R15), said once over the ladder of magnitude patterns: the value of each
magnitude, the midpoints between neighbours, and what it takes for a pattern to be the rounded real. A rounded
magnitude lies between its midpoints (`roundMag_between`), and a pattern that does is the rounded real
(`Between.isRne`). Below it, what the exact operations and the integer root denote. -/

namespace Sys2Proof.Machine

/-! ### The ladder of magnitudes -/

/-- The value of a magnitude pattern; at the infinity pattern, the power of two the next finite value would be. -/
def magRat (w : Width) (n : Nat) : ℚ :=
  if n < 2 ^ w.fracBits then n * 2 ^ w.minExp
  else ((2 ^ w.fracBits + n % 2 ^ w.fracBits : Nat) : ℚ) * 2 ^ ((n / 2 ^ w.fracBits : Nat) - 1 + w.minExp)

/-- The step from a magnitude to the next. -/
def magUlp (w : Width) (n : Nat) : ℚ := 2 ^ ((max 1 (n / 2 ^ w.fracBits) : Nat) - 1 + w.minExp)

/-- The midpoint of a magnitude and the next. -/
def midRat (w : Width) (n : Nat) : ℚ := magRat w n + magUlp w n / 2

section Ladder
variable {w : Width}

theorem magUlp_pos (n : Nat) : 0 < magUlp w n := by unfold magUlp; positivity

theorem magUlp_mono {n k : Nat} (h : n ≤ k) : magUlp w n ≤ magUlp w k := by
  unfold magUlp
  apply zpow_le_zpow_right₀ (by norm_num)
  have := Nat.div_le_div_right (c := 2 ^ w.fracBits) h
  have : max 1 (n / 2 ^ w.fracBits) ≤ max 1 (k / 2 ^ w.fracBits) := max_le_max le_rfl this
  omega

/-- A magnitude written as `d` binades and a significand `q` at the unit `2^(d + minExp)`. -/
theorem magRat_scaled {d q : Nat} (hq : q ≤ 2 ^ (w.fracBits + 1)) (hd : 0 < d → 2 ^ w.fracBits ≤ q) :
    magRat w (d * 2 ^ w.fracBits + q) = q * 2 ^ ((d : Int) + w.minExp) := by
  have hp := Nat.two_pow_pos w.fracBits
  unfold magRat
  by_cases h1 : q < 2 ^ w.fracBits
  · have h0 : d = 0 := by by_contra h; have := hd (by omega); omega
    subst h0
    simp [h1]
  · have h1 : 2 ^ w.fracBits ≤ q := by omega
    rw [if_neg (by omega)]
    by_cases h2 : q = 2 ^ (w.fracBits + 1)
    · have e : d * 2 ^ w.fracBits + q = (d + 2) * 2 ^ w.fracBits := by rw [h2, Nat.pow_succ]; ring
      rw [e, Nat.mul_mod_left, Nat.mul_div_cancel _ hp, h2]
      push_cast
      rw [show (d : Int) + 2 - 1 + w.minExp = 1 + ((d : Int) + w.minExp) by ring, zpow_add₀ (by norm_num)]
      ring
    · have h3 : q < 2 * 2 ^ w.fracBits := by rw [Nat.pow_succ] at hq h2; omega
      obtain ⟨r, rfl⟩ : ∃ r, q = 2 ^ w.fracBits + r := ⟨q - 2 ^ w.fracBits, by omega⟩
      have hr : r < 2 ^ w.fracBits := by omega
      have e : d * 2 ^ w.fracBits + (2 ^ w.fracBits + r) = r + (d + 1) * 2 ^ w.fracBits := by ring
      rw [e, Nat.add_mul_mod_self_right, Nat.mod_eq_of_lt hr, Nat.add_mul_div_right _ _ hp, Nat.div_eq_of_lt hr]
      congr 2
      push_cast
      ring

theorem magUlp_scaled {d q : Nat} (hq : q < 2 ^ (w.fracBits + 1)) (hd : 0 < d → 2 ^ w.fracBits ≤ q) :
    magUlp w (d * 2 ^ w.fracBits + q) = 2 ^ ((d : Int) + w.minExp) := by
  have hp := Nat.two_pow_pos w.fracBits
  unfold magUlp
  congr 1
  rw [Nat.add_comm, Nat.add_mul_div_right _ _ hp]
  have h2 : q / 2 ^ w.fracBits < 2 := by rw [Nat.div_lt_iff_lt_mul hp]; rw [Nat.pow_succ] at hq; omega
  have h3 : 0 < d → 1 ≤ q / 2 ^ w.fracBits := fun h => by
    rw [Nat.le_div_iff_mul_le hp]; have := hd h; omega
  omega

/-- Every magnitude has such a form. -/
theorem mag_scaled (w : Width) (n : Nat) :
    ∃ d q : Nat, n = d * 2 ^ w.fracBits + q ∧ q < 2 ^ (w.fracBits + 1) ∧ (0 < d → 2 ^ w.fracBits ≤ q) := by
  have hp := Nat.two_pow_pos w.fracBits
  have hm := Nat.mod_lt n hp
  have hd := Nat.div_add_mod' n (2 ^ w.fracBits)
  rw [Nat.pow_succ]
  by_cases h : n < 2 ^ w.fracBits
  · exact ⟨0, n, by omega, by omega, by omega⟩
  · refine ⟨n / 2 ^ w.fracBits - 1, 2 ^ w.fracBits + n % 2 ^ w.fracBits, ?_, by omega, by omega⟩
    have h1 : 1 ≤ n / 2 ^ w.fracBits := by rw [Nat.le_div_iff_mul_le hp]; omega
    obtain ⟨k, hk⟩ : ∃ k, n / 2 ^ w.fracBits = k + 1 := ⟨n / 2 ^ w.fracBits - 1, by omega⟩
    rw [hk, Nat.add_mul] at hd
    rw [hk]
    simp only [Nat.add_sub_cancel]
    omega

theorem magRat_succ (n : Nat) : magRat w (n + 1) = magRat w n + magUlp w n := by
  obtain ⟨d, q, rfl, hq, hd⟩ := mag_scaled w n
  rw [magRat_scaled hq.le hd, magUlp_scaled hq hd, Nat.add_assoc,
    magRat_scaled (by omega) (fun h => by have := hd h; omega)]
  push_cast
  ring

theorem magRat_strictMono : StrictMono (magRat w) :=
  strictMono_nat_of_lt_succ fun n => by rw [magRat_succ]; linarith [magUlp_pos (w := w) n]

theorem magRat_zero : magRat w 0 = 0 := by
  have : 0 < 2 ^ w.fracBits := Nat.two_pow_pos _
  simp [magRat, this]

theorem magRat_nonneg (n : Nat) : 0 ≤ magRat w n := by
  rw [← magRat_zero (w := w)]; exact magRat_strictMono.monotone (Nat.zero_le n)

theorem midRat_eq (n : Nat) : midRat w n = (magRat w n + magRat w (n + 1)) / 2 := by
  rw [magRat_succ, midRat]; ring

theorem midRat_strictMono : StrictMono (midRat w) := fun n k h => by
  rw [midRat_eq, midRat_eq]
  linarith [magRat_strictMono (w := w) h, magRat_strictMono (w := w) (show n + 1 < k + 1 by omega)]

/-- The greatest finite magnitude is odd, and its midpoint with the next power of two is the overflow bound. -/
theorem midRat_infMag (w : Width) : midRat w (infMag w - 1) = overflowBound w := by
  have h : (2 : ℚ) ^ 971 = 2 * 2 ^ 970 := pow_succ' 2 970
  cases w <;> norm_num [midRat, magRat, magUlp, infMag, overflowBound, Width.fracBits, Width.expBits, Width.minExp]
  rw [h]
  generalize (2 : ℚ) ^ 970 = c
  ring

theorem infMag_even (w : Width) : infMag w % 2 = 0 := by cases w <;> decide

theorem infMag_pos (w : Width) : 0 < infMag w := by cases w <;> decide

/-- The number a finite value denotes. -/
theorem toRat_fin (neg : Bool) (m : Nat) (e : Int) :
    (Value.fin neg m e).toRat = (if neg then -1 else 1) * ((m : ℚ) * 2 ^ e) := by
  cases neg <;> simp [Value.toRat, signedInt]

/-- The number a finite pattern denotes, by its magnitude. -/
theorem toRat_signed (neg : Bool) {n : Nat} (h : n < infMag w) :
    (val (signed w neg n)).toRat = (if neg then -1 else 1) * magRat w n := by
  rw [val_signed neg h, magRat]
  split <;> rw [toRat_fin]

theorem ulp_signed (neg : Bool) {n : Nat} (h : n < infMag w) : ulp (signed w neg n) = magUlp w n := by
  rw [ulp, magUlp, expField_signed neg (lt_trans h (infMag_lt w))]

/-- A finite pattern is a sign and a magnitude below infinity. -/
theorem isFinitePattern_signed (neg : Bool) {n : Nat} (h : n < infMag w) : isFinitePattern (signed w neg n) = true := by
  have hi : (classify (signed w neg n)).isInfinity = false := by
    rw [classify_signed neg h.le, if_neg h.ne]
    cases neg <;> (repeat' split) <;> rfl
  simp [isFinitePattern, isNaN_signed neg h.le, hi]

theorem eq_signed_of_isFinitePattern {b : Pattern w} (h : isFinitePattern b = true) :
    ∃ n, n < infMag w ∧ b = signed w (signBit b) n := by
  simp only [isFinitePattern, Bool.and_eq_true, Bool.not_eq_true'] at h
  rcases eq_signed_of_not_nan b h.1 with hb | hb
  · have := h.2
    rw [hb, classify_signed _ le_rfl, if_pos rfl] at this
    split at this <;> cases this
  · exact hb

end Ladder

/-! ### Between the midpoints -/

/-- A real magnitude lies between the midpoints around `n`, and on one only when `n` is even. -/
structure Between (w : Width) (x : ℝ) (n : Nat) : Prop where
  nonneg : 0 ≤ x
  le_infMag : n ≤ infMag w
  upper : n < infMag w → x ≤ (midRat w n : ℝ) ∧ (x = (midRat w n : ℝ) → n % 2 = 0)
  lower : ∀ k, n = k + 1 → (midRat w k : ℝ) ≤ x ∧ (x = (midRat w k : ℝ) → n % 2 = 0)

namespace Between
variable {w : Width} {x : ℝ} {n : Nat}

theorem magReal_mono {i k : Nat} (h : i ≤ k) : (magRat w i : ℝ) ≤ (magRat w k : ℝ) := by
  exact_mod_cast magRat_strictMono.monotone h

theorem midReal_eq (k : Nat) : (midRat w k : ℝ) = ((magRat w k : ℝ) + (magRat w (k + 1) : ℝ)) / 2 := by
  rw [midRat_eq]; push_cast; ring

/-- No other magnitude is nearer, and one as near leaves an even `n`. -/
theorem nearest (h : Between w x n) (hn : n < infMag w) (k : Nat) :
    |x - (magRat w n : ℝ)| ≤ |x - (magRat w k : ℝ)| ∧
      (|x - (magRat w n : ℝ)| = |x - (magRat w k : ℝ)| → k ≠ n → n % 2 = 0) := by
  rcases lt_trichotomy k n with hk | rfl | hk
  · obtain ⟨j, rfl⟩ : ∃ j, n = j + 1 := ⟨n - 1, by omega⟩
    obtain ⟨h1, h2⟩ := h.lower j rfl
    rw [midReal_eq] at h1 h2
    have hs : (magRat w j : ℝ) < (magRat w (j + 1) : ℝ) := by exact_mod_cast magRat_strictMono (Nat.lt_succ_self j)
    have hm : (magRat w k : ℝ) ≤ (magRat w j : ℝ) := magReal_mono (by omega)
    rw [abs_of_nonneg (show 0 ≤ x - (magRat w k : ℝ) by linarith)]
    refine ⟨abs_le.2 ⟨by linarith, by linarith⟩, fun he _ => h2 ?_⟩
    rcases abs_cases (x - (magRat w (j + 1) : ℝ)) with ⟨ha, _⟩ | ⟨ha, _⟩ <;> rw [ha] at he <;> linarith
  · exact ⟨le_rfl, fun _ hc => absurd rfl hc⟩
  · obtain ⟨h1, h2⟩ := h.upper hn
    rw [midReal_eq] at h1 h2
    have hs : (magRat w n : ℝ) < (magRat w (n + 1) : ℝ) := by exact_mod_cast magRat_strictMono (Nat.lt_succ_self n)
    have hm : (magRat w (n + 1) : ℝ) ≤ (magRat w k : ℝ) := magReal_mono hk
    rw [abs_of_nonpos (show x - (magRat w k : ℝ) ≤ 0 by linarith)]
    refine ⟨abs_le.2 ⟨by linarith, by linarith⟩, fun he _ => h2 ?_⟩
    rcases abs_cases (x - (magRat w n : ℝ)) with ⟨ha, _⟩ | ⟨ha, _⟩ <;> rw [ha] at he <;> linarith

theorem halfUlp (h : Between w x n) (hn : n < infMag w) : 2 * |x - (magRat w n : ℝ)| ≤ (magUlp w n : ℝ) := by
  have h1 := (h.upper hn).1
  have h2 : 2 * ((magRat w n : ℝ) - x) ≤ (magUlp w n : ℝ) := by
    cases n with
    | zero =>
      have := h.nonneg
      have hu : (0 : ℝ) < (magUlp w 0 : ℝ) := by exact_mod_cast magUlp_pos 0
      rw [magRat_zero]; push_cast; linarith
    | succ j =>
      have h3 := (h.lower j rfl).1
      have hu : (magUlp w j : ℝ) ≤ (magUlp w (j + 1) : ℝ) := by exact_mod_cast magUlp_mono (Nat.le_succ j)
      rw [midRat] at h3
      rw [magRat_succ]
      push_cast at h3 ⊢
      linarith
  rw [midRat] at h1
  push_cast at h1
  rcases abs_cases (x - (magRat w n : ℝ)) with ⟨ha, _⟩ | ⟨ha, _⟩ <;> rw [ha] <;> linarith

/-- At or above the overflow bound exactly when the magnitude is infinity. -/
theorem overflow (h : Between w x n) : (overflowBound w : ℝ) ≤ x ↔ n = infMag w := by
  have hp := infMag_pos w
  rw [← midRat_infMag]
  constructor
  · intro hx
    by_contra hc
    have hn : n < infMag w := lt_of_le_of_ne h.le_infMag hc
    obtain ⟨h1, h2⟩ := h.upper hn
    have hle : n ≤ infMag w - 1 := by omega
    have hm : (midRat w n : ℝ) ≤ (midRat w (infMag w - 1) : ℝ) := by exact_mod_cast midRat_strictMono.monotone hle
    have he : (midRat w n : ℝ) = (midRat w (infMag w - 1) : ℝ) := le_antisymm hm (hx.trans h1)
    have hi : n = infMag w - 1 := midRat_strictMono.injective (by exact_mod_cast he)
    have := h2 (le_antisymm h1 (he ▸ hx))
    have := infMag_even w
    omega
  · intro hn
    exact (h.lower (infMag w - 1) (by omega)).1

/-- The pattern of a magnitude that lies between its midpoints, with the sign of the real, is the rounded real. -/
theorem isRne (h : Between w x n) (neg : Bool) : IsRne w (if neg then -x else x) (signed w neg n) := by
  have hl := lt_of_le_of_lt h.le_infMag (infMag_lt w)
  have hx := h.nonneg
  have habs : |(if neg then -x else x)| = x := by cases neg <;> simp [abs_of_nonneg hx]
  have hn : |(if neg then -x else x)| < (overflowBound w : ℝ) → n < infMag w := fun hb => by
    rw [habs] at hb
    exact lt_of_le_of_ne h.le_infMag fun hc => absurd (h.overflow.2 hc) (not_le.2 hb)
  have hd : ∀ k, k < infMag w → |(if neg then -x else x) - ((val (signed w neg k)).toRat : ℝ)| = |x - (magRat w k : ℝ)| := by
    intro k hk
    rw [toRat_signed neg hk]
    cases neg
    · simp
    · simp only [if_true]
      push_cast
      rw [show -x - -1 * (magRat w k : ℝ) = -(x - (magRat w k : ℝ)) by ring, abs_neg]
  -- a pattern of the other sign is no nearer than the one of the same magnitude and this sign
  have ho : ∀ c : Pattern w, isFinitePattern c = true → ∃ k, k < infMag w ∧
      (val c).toRat = (if signBit c then -1 else 1) * magRat w k ∧
      |x - (magRat w k : ℝ)| ≤ |(if neg then -x else x) - ((val c).toRat : ℝ)| := by
    intro c hc
    obtain ⟨k, hk, hck⟩ := eq_signed_of_isFinitePattern hc
    have ht : (val c).toRat = (if signBit c then -1 else 1) * magRat w k := by
      conv_lhs => rw [hck]
      exact toRat_signed _ hk
    refine ⟨k, hk, ht, ?_⟩
    rw [ht]
    have hv : (0 : ℝ) ≤ (magRat w k : ℝ) := by exact_mod_cast magRat_nonneg k
    cases neg <;> cases signBit c <;> simp only [if_true, if_false, Bool.false_eq_true] <;> push_cast <;>
      rw [abs_le] <;> constructor <;>
      first
      | (have := neg_abs_le (x - 1 * (magRat w k : ℝ)); linarith)
      | (have := le_abs_self (x - 1 * (magRat w k : ℝ)); linarith)
      | (have := neg_abs_le (x - -1 * (magRat w k : ℝ)); have := le_abs_self (x - -1 * (magRat w k : ℝ)); linarith)
      | (have := neg_abs_le (-x - 1 * (magRat w k : ℝ)); have := le_abs_self (-x - 1 * (magRat w k : ℝ)); linarith)
      | (have := neg_abs_le (-x - -1 * (magRat w k : ℝ)); have := le_abs_self (-x - -1 * (magRat w k : ℝ)); linarith)
  refine ⟨fun hs => ?_, fun hs => ?_, fun hb => ?_, fun hb => isFinitePattern_signed neg (hn hb), fun hb => ?_,
    fun hb c hc => ?_, fun hb c hc he hne => ?_⟩
  · rw [signBit_signed neg hl]
    cases neg
    · simp only [Bool.false_eq_true, if_false] at hs; linarith
    · rfl
  · rw [signBit_signed neg hl]
    cases neg
    · rfl
    · simp only [if_true] at hs; linarith
  · rw [habs] at hb
    rw [h.overflow.1 hb, classify_signed neg le_rfl, if_pos rfl]
    cases neg <;> rfl
  · rw [hd n (hn hb), ulp_signed neg (hn hb)]
    exact h.halfUlp (hn hb)
  · obtain ⟨k, _, _, hk⟩ := ho c hc
    rw [hd n (hn hb)]
    exact (h.nearest (hn hb) k).1.trans hk
  · obtain ⟨k, hk, ht, hkc⟩ := ho c hc
    have hnn := hn hb
    have hpar : (signed w neg n).toNat % 2 = n % 2 := by
      rw [toNat_signed neg hl]
      have hs : 2 ^ (w.expBits + w.fracBits) % 2 = 0 := by cases w <;> decide
      cases neg <;> simp only [if_true, if_false, Bool.false_eq_true] <;> omega
    rw [hpar]
    rw [hd n hnn] at he
    by_cases hkn : k = n
    · -- the same magnitude with the other sign: both are as near only for x = 0, which rounds to magnitude 0
      subst hkn
      rw [toRat_signed neg hnn, ht] at hne
      rw [ht] at he
      have hv : (0 : ℝ) ≤ (magRat w k : ℝ) := by exact_mod_cast magRat_nonneg k
      have hv0 : magRat w k ≠ 0 := fun h0 => hne (by rw [h0]; simp)
      have hvp : (0 : ℝ) < (magRat w k : ℝ) := lt_of_le_of_ne hv (by exact_mod_cast hv0.symm)
      have hx0 : x = 0 := by
        have hz : |x - (magRat w k : ℝ)| = |x + (magRat w k : ℝ)| := by
          revert he hne
          cases neg <;> cases signBit c <;> simp only [if_true, if_false, Bool.false_eq_true] <;> push_cast <;> intro he hne
          · exact absurd rfl hne
          · rw [he]; congr 1; ring
          · rw [he, show -x - 1 * (magRat w k : ℝ) = -(x + (magRat w k : ℝ)) by ring, abs_neg]
          · exact absurd rfl hne
        rw [abs_of_nonneg (show 0 ≤ x + (magRat w k : ℝ) by linarith)] at hz
        rcases abs_cases (x - (magRat w k : ℝ)) with ⟨ha, _⟩ | ⟨ha, _⟩ <;> rw [ha] at hz <;> linarith
      have hz := (h.nearest hnn 0).1
      rw [hx0, magRat_zero] at hz
      simp only [Rat.cast_zero, sub_zero, abs_zero, zero_sub, abs_neg] at hz
      rw [abs_of_pos hvp] at hz
      linarith
    · exact (h.nearest hnn k).2 (le_antisymm (h.nearest hnn k).1 (hkc.trans he.symm.le)) hkn

end Between

/-! ### A rounded magnitude lies between its midpoints -/

theorem powLe_iff_rat (l : Int) (num : Nat) {den : Nat} (hd : 0 < den) :
    powLe l num den = true ↔ (2 : ℚ) ^ l ≤ (num : ℚ) / den := by
  have hdq : (0 : ℚ) < den := by exact_mod_cast hd
  rw [powLe_iff, le_div_iff₀ hdq]
  have e : (2 : ℚ) ^ l = 2 ^ l.toNat / 2 ^ (-l).toNat := by
    rcases le_total 0 l with h | h
    · have h1 : (-l).toNat = 0 := by omega
      rw [h1, pow_zero, div_one, ← zpow_natCast, Int.toNat_of_nonneg h]
    · have h1 : l.toNat = 0 := by omega
      rw [h1, pow_zero, ← zpow_natCast, Int.toNat_of_nonneg (by omega : 0 ≤ -l), zpow_neg, one_div, inv_inv]
  rw [e, div_mul_eq_mul_div, div_le_iff₀ (by positivity), mul_comm]
  exact_mod_cast Iff.rfl

/-- `rneScaled` is nearest even of the scaled quotient. -/
theorem rneScaled_spec (num : Nat) {den : Nat} (hd : 0 < den) (k : Int) :
    let y : ℚ := (num : ℚ) / den * 2 ^ k
    let q : Nat := rneScaled num den k
    2 * (q : ℚ) ≤ 2 * y + 1 ∧ 2 * y ≤ 2 * (q : ℚ) + 1 ∧ (2 * (q : ℚ) = 2 * y + 1 ∨ 2 * y = 2 * (q : ℚ) + 1 → q % 2 = 0) := by
  have main : ∀ (a b : Nat), 0 < b →
      2 * (rneQuot a b : ℚ) ≤ 2 * ((a : ℚ) / b) + 1 ∧ 2 * ((a : ℚ) / b) ≤ 2 * (rneQuot a b : ℚ) + 1 ∧
      (2 * (rneQuot a b : ℚ) = 2 * ((a : ℚ) / b) + 1 ∨ 2 * ((a : ℚ) / b) = 2 * (rneQuot a b : ℚ) + 1 → rneQuot a b % 2 = 0) := by
    intro a b hb
    have hbq : (0 : ℚ) < b := by exact_mod_cast hb
    obtain ⟨h1, h2, h3⟩ := rneQuot_spec a hb
    have e : (a : ℚ) = (a : ℚ) / b * b := by field_simp
    have h1' : 2 * ((rneQuot a b : ℚ) * b) ≤ 2 * a + b := by exact_mod_cast h1
    have h2' : 2 * (a : ℚ) ≤ 2 * ((rneQuot a b : ℚ) * b) + b := by exact_mod_cast h2
    generalize hy : (a : ℚ) / b = y at e ⊢
    rw [e] at h1' h2'
    refine ⟨le_of_mul_le_mul_right (by linarith) hbq, le_of_mul_le_mul_right (by linarith) hbq, fun h => h3 ?_⟩
    rcases h with h | h
    · left
      have : 2 * ((rneQuot a b : ℚ) * b) = 2 * a + b := by rw [e]; linear_combination (b : ℚ) * h
      exact_mod_cast this
    · right
      have : 2 * (a : ℚ) = 2 * ((rneQuot a b : ℚ) * b) + b := by rw [e]; linear_combination (b : ℚ) * h
      exact_mod_cast this
  intro y q
  have hdq : (den : ℚ) ≠ 0 := by exact_mod_cast hd.ne'
  rcases le_or_gt 0 k with hk | hk
  · have hq : q = rneQuot (num * 2 ^ k.toNat) den := if_pos hk
    have hy : y = ((num * 2 ^ k.toNat : Nat) : ℚ) / den := by
      have : (2 : ℚ) ^ k = 2 ^ k.toNat := by rw [← zpow_natCast, Int.toNat_of_nonneg hk]
      simp only [y, this]; push_cast; ring
    rw [hq, hy]
    exact main _ _ hd
  · have hq : q = rneQuot num (den * 2 ^ (-k).toNat) := if_neg (not_le.2 hk)
    have hy : y = (num : ℚ) / ((den * 2 ^ (-k).toNat : Nat) : ℚ) := by
      have : (2 : ℚ) ^ k = (2 ^ (-k).toNat)⁻¹ := by
        rw [← zpow_natCast, Int.toNat_of_nonneg (by omega : 0 ≤ -k), zpow_neg, inv_inv]
      simp only [y, this]; push_cast; field_simp
    rw [hq, hy]
    exact main _ _ (Nat.mul_pos hd (Nat.two_pow_pos _))

/-- The rounded magnitude lies between its midpoints: `roundMag` is roundTiesToEven (R15). -/
theorem roundMag_between (w : Width) (num : Nat) {den : Nat} (hd : 0 < den) (e : Int) :
    Between w (((num : ℚ) / den * 2 ^ e : ℚ) : ℝ) (roundMag w num den e) := by
  have hdq : (0 : ℚ) < den := by exact_mod_cast hd
  have hnn : (0 : ℝ) ≤ (((num : ℚ) / den * 2 ^ e : ℚ) : ℝ) := by
    have : (0 : ℚ) ≤ (num : ℚ) / den * 2 ^ e := by positivity
    exact_mod_cast this
  by_cases h0 : num = 0
  · subst h0
    rw [roundMag_zero]
    refine ⟨hnn, Nat.zero_le _, fun _ => ⟨?_, fun _ => rfl⟩, fun k hk => by omega⟩
    have hu := magUlp_pos (w := w) 0
    have : (0 : ℚ) ≤ midRat w 0 := by rw [midRat, magRat_zero]; linarith
    simpa using (by exact_mod_cast this : (0 : ℝ) ≤ (midRat w 0 : ℝ))
  have hpos : 0 < num := Nat.pos_of_ne_zero h0
  have hp := Nat.two_pow_pos w.fracBits
  have hp2 : 2 ^ w.fracBits % 2 = 0 := by cases w <;> decide
  obtain ⟨f1, f2⟩ := floorLog_spec hpos hd
  rw [powLe_iff_rat _ _ hd] at f1
  rw [Bool.eq_false_iff, ne_eq, powLe_iff_rat _ _ hd, not_le] at f2
  set E := ulpExp w num den e with hE
  set d := (E - w.minExp).toNat with hdd
  set q := rneScaled num den (e - E) with hq
  have hEmin : w.minExp ≤ E := by rw [hE]; unfold ulpExp; split <;> omega
  have hdE : (d : Int) + w.minExp = E := by omega
  have hElog : floorLog num den + e - w.fracBits ≤ E := by rw [hE]; unfold ulpExp; split <;> omega
  have hElog' : 0 < d → E = floorLog num den + e - w.fracBits := by
    intro h; rw [hE] at hdd ⊢; unfold ulpExp at hdd ⊢; split <;> rename_i hc
    · rw [if_pos hc] at hdd; omega
    · rfl
  obtain ⟨q1, q2, q3⟩ := rneScaled_spec num hd (e - E)
  rw [← hq] at q1 q2 q3
  set y : ℚ := (num : ℚ) / den * 2 ^ (e - E) with hy
  have hx : (num : ℚ) / den * 2 ^ e = y * 2 ^ E := by
    rw [hy, mul_assoc, ← zpow_add₀ (by norm_num)]; congr 2; ring
  have hylt : y < 2 ^ (w.fracBits + 1) := by
    have h1 : (num : ℚ) / den * 2 ^ (e - E) < 2 ^ (floorLog num den + 1) * 2 ^ (e - E) :=
      mul_lt_mul_of_pos_right f2 (by positivity)
    rw [← zpow_add₀ (by norm_num)] at h1
    refine lt_of_lt_of_le h1 ?_
    rw [← zpow_natCast]
    exact zpow_le_zpow_right₀ (by norm_num) (by push_cast; omega)
  have hyge : 0 < d → (2 ^ w.fracBits : ℚ) ≤ y := by
    intro h
    have h1 : (2 : ℚ) ^ floorLog num den * 2 ^ (e - E) ≤ (num : ℚ) / den * 2 ^ (e - E) :=
      mul_le_mul_of_nonneg_right f1 (by positivity)
    rw [← zpow_add₀ (by norm_num)] at h1
    refine le_trans ?_ h1
    rw [← zpow_natCast]
    exact zpow_le_zpow_right₀ (by norm_num) (by have := hElog' h; omega)
  have hqle : q ≤ 2 ^ (w.fracBits + 1) := by
    by_contra hc
    have : (2 ^ (w.fracBits + 1) : ℚ) + 1 ≤ q := by exact_mod_cast (show 2 ^ (w.fracBits + 1) + 1 ≤ q by omega)
    linarith
  have hqge : 0 < d → 2 ^ w.fracBits ≤ q := by
    intro h
    by_contra hc
    have : (q : ℚ) + 1 ≤ 2 ^ w.fracBits := by exact_mod_cast (show q + 1 ≤ 2 ^ w.fracBits by omega)
    have := hyge h
    linarith
  set mag := d * 2 ^ w.fracBits + q with hmag
  have hEpos : (0 : ℚ) < 2 ^ E := by positivity
  have hV : magRat w mag = q * 2 ^ E := by rw [hmag, magRat_scaled hqle hqge, hdE]
  have hpar : mag % 2 = q % 2 := by
    rw [hmag, Nat.add_mod, Nat.mul_mod, hp2]; simp
  -- the step above a magnitude of this binade is at least the rounding unit
  have hU : ∀ k, (0 < d → (d + 1) * 2 ^ w.fracBits ≤ k) → (2 : ℚ) ^ E ≤ magUlp w k := by
    intro k hk
    rw [magUlp]
    apply zpow_le_zpow_right₀ (by norm_num)
    rcases Nat.eq_zero_or_pos d with h | h
    · omega
    · have := (Nat.le_div_iff_mul_le hp).2 (hk h)
      omega
  have up : (num : ℚ) / den * 2 ^ e ≤ midRat w mag ∧ ((num : ℚ) / den * 2 ^ e = midRat w mag → mag % 2 = 0) := by
    have hu := hU mag (fun h => by have := hqge h; rw [hmag, Nat.add_mul]; omega)
    have h1 : 2 * (y * 2 ^ E) ≤ (2 * q + 1) * 2 ^ E := by
      have := mul_le_mul_of_nonneg_right q2 hEpos.le; linarith
    rw [hx, midRat, hV]
    refine ⟨by linarith, fun he => ?_⟩
    rw [hpar]
    refine q3 (.inr ?_)
    have : 2 * y * 2 ^ E = (2 * q + 1) * 2 ^ E := by linarith
    exact mul_right_cancel₀ hEpos.ne' this
  have low : ∀ k, mag = k + 1 →
      midRat w k ≤ (num : ℚ) / den * 2 ^ e ∧ ((num : ℚ) / den * 2 ^ e = midRat w k → mag % 2 = 0) := by
    intro k hk
    have hs := magRat_succ (w := w) k
    rw [← hk, hV] at hs
    have hup := magUlp_pos (w := w) k
    have hmid : midRat w k = q * 2 ^ E - magUlp w k / 2 := by rw [midRat]; linarith
    rw [hx, hmid]
    by_cases hc : 0 < d ∧ q = 2 ^ w.fracBits
    · have h1 := hyge hc.1
      have h2 : ((2 ^ w.fracBits : Nat) : ℚ) * 2 ^ E ≤ y * 2 ^ E :=
        mul_le_mul_of_nonneg_right (by exact_mod_cast h1) hEpos.le
      rw [hc.2]
      exact ⟨by linarith, fun he => by linarith⟩
    · have hu := hU k (fun h => by have := hqge h; rw [Nat.add_mul]; omega)
      have h1 : (2 * (q : ℚ)) * 2 ^ E ≤ (2 * y + 1) * 2 ^ E := mul_le_mul_of_nonneg_right q1 hEpos.le
      refine ⟨by linarith, fun he => ?_⟩
      rw [hpar]
      refine q3 (.inl ?_)
      have : 2 * (q : ℚ) * 2 ^ E = (2 * y + 1) * 2 ^ E := by linarith
      exact mul_right_cancel₀ hEpos.ne' this
  have hround : roundMag w num den e = if infMag w ≤ mag then infMag w else mag := by
    unfold roundMag; rw [if_neg h0]
  rw [hround]
  split
  · rename_i hinf
    refine ⟨hnn, le_rfl, fun h => absurd h (lt_irrefl _), fun k hk => ⟨?_, fun _ => infMag_even w⟩⟩
    obtain ⟨j, hj⟩ : ∃ j, mag = j + 1 := ⟨mag - 1, by have := infMag_pos w; omega⟩
    have h1 := midRat_strictMono.monotone (show k ≤ j by omega) (α := ℕ) (f := midRat w)
    exact_mod_cast h1.trans (low j hj).1
  · rename_i hinf
    refine ⟨hnn, by omega, fun _ => ⟨by exact_mod_cast up.1, fun h => up.2 (by exact_mod_cast h)⟩,
      fun k hk => ⟨by exact_mod_cast (low k hk).1, fun h => (low k hk).2 (by exact_mod_cast h)⟩⟩

/-! ### Exact arithmetic on finite values (R102) -/

theorem toRat_eq_zero (n : Bool) (m : Nat) (e : Int) : (Value.fin n m e).toRat = 0 ↔ m = 0 := by
  rw [toRat_fin]
  have : (2 : ℚ) ^ e ≠ 0 := by positivity
  cases n <;> simp [this]

/-- A significand brought to a lower exponent denotes the same number. -/
theorem atExp_toRat (n : Bool) (m : Nat) {e k : Int} (h : k ≤ e) :
    (atExp n m e k : ℚ) * 2 ^ k = (Value.fin n m e).toRat := by
  rw [toRat_fin]
  have h2 : (2 : ℚ) ^ e = 2 ^ (e - k).toNat * 2 ^ k := by
    rw [← zpow_natCast, ← zpow_add₀ (by norm_num)]; congr 1; omega
  rw [h2]
  cases n <;> simp [atExp, signedInt] <;> ring

/-- The sum of finite values is the finite value of the exact sum, and a zero sum is negative only when both are. -/
theorem add_fin (n1 n2 : Bool) (m1 m2 : Nat) (e1 e2 : Int) :
    ∃ n m e, (Value.fin n1 m1 e1).add (.fin n2 m2 e2) = .fin n m e ∧
      (Value.fin n m e).toRat = (Value.fin n1 m1 e1).toRat + (Value.fin n2 m2 e2).toRat ∧
      (m = 0 → n = (n1 && n2)) := by
  simp only [Value.add]
  rw [← atExp_toRat n1 m1 (min_le_left e1 e2), ← atExp_toRat n2 m2 (min_le_right e1 e2)]
  set a := atExp n1 m1 e1 (min e1 e2)
  set b := atExp n2 m2 e2 (min e1 e2)
  split
  · rename_i h
    refine ⟨_, _, _, rfl, ?_, fun _ => rfl⟩
    have : (a : ℚ) + b = 0 := by exact_mod_cast h
    rw [← add_mul, this, (toRat_eq_zero _ _ _).2 rfl, zero_mul]
  · rename_i h
    refine ⟨_, _, _, rfl, ?_, fun h0 => absurd (Int.natAbs_eq_zero.1 h0) h⟩
    have : signedInt (decide (a + b < 0)) (a + b).natAbs = a + b := by
      unfold signedInt; split <;> rename_i hs <;> simp at hs <;> omega
    simp only [Value.toRat]
    rw [← add_mul, this]
    push_cast
    rfl

theorem neg_toRat (n : Bool) (m : Nat) (e : Int) : (Value.fin (!n) m e).toRat = -(Value.fin n m e).toRat := by
  rw [toRat_fin, toRat_fin]; cases n <;> simp

theorem mul_toRat (n1 n2 : Bool) (m1 m2 : Nat) (e1 e2 : Int) :
    (Value.fin (n1 ^^ n2) (m1 * m2) (e1 + e2)).toRat = (Value.fin n1 m1 e1).toRat * (Value.fin n2 m2 e2).toRat := by
  simp only [toRat_fin]
  rw [zpow_add₀ (by norm_num)]
  cases n1 <;> cases n2 <;> simp <;> ring

/-! ### The rounded square root (R102, log entry 11) -/

/-- A midpoint is an odd multiple of half the step there. -/
theorem midRat_scaled {w : Width} {d q : Nat} (hq : q < 2 ^ (w.fracBits + 1)) (hd : 0 < d → 2 ^ w.fracBits ≤ q) :
    midRat w (d * 2 ^ w.fracBits + q) = ((2 * q + 1 : Nat) : ℚ) * 2 ^ ((d : Int) + w.minExp - 1) := by
  rw [midRat, magRat_scaled hq.le hd, magUlp_scaled hq hd, zpow_sub_one₀ (by norm_num)]
  push_cast
  ring

/-- A binary64 midpoint of at least `2^(j + 60)` is a whole multiple of `2^j`. -/
theorem midRat_multiple {k : Nat} {j : Int} (h : (2 : ℚ) ^ (j + 60) ≤ midRat .w64 k) :
    ∃ c : Nat, midRat .w64 k = c * 2 ^ j := by
  obtain ⟨d, q, rfl, hq, hd⟩ := mag_scaled .w64 k
  rw [midRat_scaled hq hd] at h ⊢
  set E : Int := (d : Int) + Width.minExp .w64 - 1 with hE
  have hj : j ≤ E := by
    by_contra hc
    have hlt : ((2 * q + 1 : Nat) : ℚ) < 2 ^ (54 : Int) := by
      have : 2 * q + 1 < 2 ^ 54 := by simp only [Width.fracBits] at hq; omega
      exact_mod_cast this
    have h1 : ((2 * q + 1 : Nat) : ℚ) * 2 ^ E < 2 ^ (54 : Int) * 2 ^ E := mul_lt_mul_of_pos_right hlt (by positivity)
    rw [← zpow_add₀ (by norm_num)] at h1
    have h2 : (2 : ℚ) ^ (54 + E) ≤ 2 ^ (j + 60) := zpow_le_zpow_right₀ (by norm_num) (by omega)
    linarith
  refine ⟨(2 * q + 1) * 2 ^ (E - j).toNat, ?_⟩
  have e : (2 : ℚ) ^ E = 2 ^ (E - j).toNat * 2 ^ j := by
    rw [← zpow_natCast, ← zpow_add₀ (by norm_num)]; congr 1; omega
  rw [e]
  push_cast
  ring

/-- The integer root of `n`, doubled and made odd when `n` is no square, rounds as the real root of `n` does, when the
root has at least 61 bits. -/
theorem sqrt_between {n : Nat} (hn : 2 ^ 120 ≤ n) (j : Int) :
    let r := isqrt n
    Between .w64 (Real.sqrt n * 2 ^ j)
      (roundMag .w64 (2 * r + (if r * r = n then 0 else 1)) 1 (j - 1)) := by
  intro r
  set S := 2 * r + (if r * r = n then 0 else 1) with hS
  obtain ⟨r1, r2⟩ := isqrt_spec n
  change r * r ≤ n at r1
  change n < (r + 1) * (r + 1) at r2
  have hr : 2 ^ 60 ≤ r := by
    by_contra hc
    have h1 : r + 1 ≤ 2 ^ 60 := by omega
    have h2 := Nat.mul_le_mul h1 h1
    have h3 : (2 : Nat) ^ 60 * 2 ^ 60 = 2 ^ 120 := by decide
    omega
  have hb := roundMag_between .w64 S (den := 1) (by decide) (j - 1)
  set N := roundMag .w64 S 1 (j - 1)
  have hu : (0 : ℝ) < 2 ^ (j - 1) := by positivity
  have hj : (2 : ℝ) ^ j = 2 * 2 ^ (j - 1) := by rw [zpow_sub_one₀ (by norm_num)]; ring
  have hx : ((((S : Nat) : ℚ) / ((1 : Nat) : ℚ) * 2 ^ (j - 1) : ℚ) : ℝ) = S * 2 ^ (j - 1) := by push_cast; ring
  rw [hx] at hb
  set Y := Real.sqrt n
  have y1 : (r : ℝ) ≤ Y := Real.le_sqrt_of_sq_le (by rw [sq]; exact_mod_cast r1)
  have y2 : Y < r + 1 := (Real.sqrt_lt' (by positivity)).2 (by rw [sq]; exact_mod_cast r2)
  have ySq : r * r = n → Y = r := fun h => by
    have : (n : ℝ) = (r : ℝ) * r := by exact_mod_cast h.symm
    simp only [Y, this]
    exact Real.sqrt_mul_self (by positivity)
  have yNe : Y = r → r * r = n := fun h => by
    have h1 : Y * Y = n := Real.mul_self_sqrt (by positivity)
    rw [h] at h1
    exact_mod_cast h1
  have hS1 : (2 * r : ℝ) ≤ S := by rw [hS]; push_cast; split <;> simp
  have hS2 : (S : ℝ) ≤ 2 * r + 1 := by rw [hS]; push_cast; split <;> simp
  have hSe : r * r = n → (S : ℝ) = 2 * r := fun h => by rw [hS, if_pos h]; push_cast; ring
  have hSo : ¬ r * r = n → (S : ℝ) = 2 * r + 1 := fun h => by rw [hS, if_neg h]; push_cast; ring
  -- a midpoint from 2r units on is an even number of units
  have mult : ∀ k, (2 * r : ℝ) * 2 ^ (j - 1) ≤ (midRat .w64 k : ℝ) →
      ∃ c : Nat, (midRat .w64 k : ℝ) = (2 * c) * 2 ^ (j - 1) := by
    intro k hk
    have h2 : (2 : ℝ) ^ (60 : Int) ≤ r := by
      have h3 : (2 : ℝ) ^ 60 ≤ r := by exact_mod_cast hr
      exact_mod_cast h3
    have h4 : (2 : ℚ) ^ (j + 60) ≤ midRat .w64 k := by
      have h5 : (2 : ℝ) ^ (j + 60) ≤ (midRat .w64 k : ℝ) := by
        refine le_trans ?_ hk
        rw [zpow_add₀ (by norm_num), hj]
        have := mul_le_mul_of_nonneg_left h2 (show (0 : ℝ) ≤ 2 * 2 ^ (j - 1) by positivity)
        linarith
      have h6 : (((2 : ℚ) ^ (j + 60) : ℚ) : ℝ) ≤ (midRat .w64 k : ℝ) := by
        rw [Rat.cast_zpow, Rat.cast_ofNat]; exact h5
      exact Rat.cast_le.1 h6
    obtain ⟨c, hc⟩ := midRat_multiple h4
    exact ⟨c, by rw [hc]; push_cast; rw [hj]; ring⟩
  have eqr : ∀ c : Nat, (2 * r : ℝ) * 2 ^ (j - 1) ≤ (2 * c) * 2 ^ (j - 1) → (2 * c : ℝ) * 2 ^ (j - 1) < (2 * r + 2) * 2 ^ (j - 1) →
      c = r := by
    intro c h1 h2
    have h3 := le_of_mul_le_mul_right h1 hu
    have h4 := lt_of_mul_lt_mul_right h2 hu.le
    have h5 : (r : ℝ) ≤ c := by linarith
    have h6 : (c : ℝ) < r + 1 := by linarith
    have h5' : r ≤ c := by exact_mod_cast h5
    have h6' : c < r + 1 := by exact_mod_cast h6
    omega
  have z1 : (2 * r : ℝ) * 2 ^ (j - 1) ≤ Y * 2 ^ j := by
    rw [hj]; have := mul_le_mul_of_nonneg_right y1 hu.le; linarith
  have z2 : Y * 2 ^ j < (2 * r + 2) * 2 ^ (j - 1) := by
    rw [hj]; have := mul_lt_mul_of_pos_right y2 hu; linarith
  have s1 : (2 * r : ℝ) * 2 ^ (j - 1) ≤ S * 2 ^ (j - 1) := mul_le_mul_of_nonneg_right hS1 hu.le
  have s2 : (S : ℝ) * 2 ^ (j - 1) ≤ (2 * r + 1) * 2 ^ (j - 1) := mul_le_mul_of_nonneg_right hS2 hu.le
  -- on a midpoint the root is exact, and then the doubled root is the midpoint too
  have tie : ∀ k, Y * 2 ^ j = (midRat .w64 k : ℝ) → (S : ℝ) * 2 ^ (j - 1) = (midRat .w64 k : ℝ) := by
    intro k hk
    obtain ⟨c, hc⟩ := mult k (hk ▸ z1)
    have hcr := eqr c (by rw [← hc, ← hk]; exact z1) (by rw [← hc, ← hk]; exact z2)
    rw [hc, hcr, hj] at hk
    have hY : Y = r := by
      have : Y * (2 * 2 ^ (j - 1)) = r * (2 * 2 ^ (j - 1)) := by rw [hk]; ring
      exact mul_right_cancel₀ (by positivity) this
    rw [hc, hcr, hSe (yNe hY)]
  refine ⟨by positivity, hb.le_infMag, fun hN => ⟨?_, fun h => (hb.upper hN).2 (tie N h)⟩,
    fun k hk => ⟨?_, fun h => (hb.lower k hk).2 (tie k h)⟩⟩
  · have hup := (hb.upper hN).1
    by_contra hc
    rw [not_le] at hc
    obtain ⟨c, hcm⟩ := mult N (s1.trans hup)
    have hcr := eqr c (by rw [← hcm]; exact s1.trans hup) (by rw [← hcm]; exact hc.trans z2)
    rw [hcm, hcr] at hup hc
    have h1 := le_of_mul_le_mul_right hup hu
    have hsq : r * r = n := by
      by_contra hne
      rw [hSo hne] at h1; linarith
    rw [ySq hsq, hj] at hc
    linarith
  · have hlo := (hb.lower k hk).1
    by_contra hc
    rw [not_le] at hc
    obtain ⟨c, hcm⟩ := mult k (z1.trans hc.le)
    have hcr := eqr c (by rw [← hcm]; exact z1.trans hc.le) (by
      rw [← hcm]; exact lt_of_le_of_lt (hlo.trans s2) (mul_lt_mul_of_pos_right (by linarith) hu))
    rw [hcm, hcr] at hc
    linarith

end Sys2Proof.Machine
end

