-- ==== Sys2Proof/Laws/Step.lean ====
section
/-! SUPPORT. Everything a CPU-side word can do (R228 to R241), everything any instruction can do, and everything a step
can do (R7, R8), each said once. -/

namespace Sys2Proof.Machine

/-- Everything a CPU-side word with destination `d` can make of a state: an answer to the CPU with the block
unchanged, a register write, or a write of FCR31. -/
inductive PortEffect (d : Dest) (s : State) : State → Prop where
  | answered (hd : d = .nothing) (r : Reply) : PortEffect d s (s.quiet.answer r)
  | wroteReg (w : Width) (fd : RegIx) (hd : d = .reg w fd) (v : Pattern w) : PortEffect d s (s.quiet.setView w fd v)
  | wroteControl (hd : d = .control) (f : BitVec 32) : PortEffect d s (s.quiet.setFcr31 f)

theorem ctrlRead_cases (s : State) (n : RegIx) :
    (isControlReg n = true ∧ ∃ v, ctrlRead s n = some v) ∨ (isControlReg n = false ∧ n ≠ 0 ∧ n ≠ 31 ∧ ctrlRead s n = none) := by
  unfold ctrlRead
  by_cases h1 : n = 31
  · exact .inl ⟨by simp [isControlReg, h1], by simp [h1]⟩
  · by_cases h0 : n = 0
    · exact .inl ⟨by simp [isControlReg, h0], by simp [h0]⟩
    · exact .inr ⟨by simp [isControlReg, h0, h1], h0, h1, by simp [h0, h1]⟩

theorem ctrlWrite_cases (q : Config.Params) (n : RegIx) (v : BitVec 32) (s : State) :
    (isControlReg n = true ∧ ∃ f, ctrlWrite q n v s = some (s.setFcr31 f)) ∨
      (isControlReg n = false ∧ n ≠ 0 ∧ n ≠ 31 ∧ ctrlWrite q n v s = none) := by
  unfold ctrlWrite
  by_cases h1 : n = 31
  · exact .inl ⟨by simp [isControlReg, h1], _, by simp [h1]; rfl⟩
  · by_cases h0 : n = 0
    · exact .inl ⟨by simp [isControlReg, h0], s.fcr31, by simp [h0]; rfl⟩
    · exact .inr ⟨by simp [isControlReg, h0, h1], h0, h1, by simp [h0, h1]⟩

/-- Everything a CPU-side word does: it completes when it is well formed, and is refused otherwise. -/
theorem exec_portWord (i : Instr) (h : i.isOperation = false) (s : State) :
    (i.wf = true ∧ ∃ t, exec i s = .next t ∧ PortEffect i.dest s t) ∨
      (i.wf = false ∧ ∃ n, n ≠ 0 ∧ n ≠ 31 ∧ exec i s = .refused (.noControlRegister n)) := by
  cases i with
  | mfc1 rt fs => exact .inl ⟨rfl, _, rfl, .answered rfl _⟩
  | dmfc1 rt fs => exact .inl ⟨rfl, _, rfl, .answered rfl _⟩
  | cfc1 rt fs =>
    show (isControlReg fs = true ∧ ∃ t, execCfc1 rt fs s = .next t ∧ _) ∨ (isControlReg fs = false ∧ _)
    rcases ctrlRead_cases s fs with ⟨hw, v, hv⟩ | ⟨hw, h0, h1, hv⟩
    · exact .inl ⟨hw, _, by simp only [execCfc1, hv]; rfl, .answered rfl _⟩
    · exact .inr ⟨hw, fs, h0, h1, by show execCfc1 rt fs s = _; simp only [execCfc1, hv]⟩
  | mtc1 rt fs => exact .inl ⟨rfl, _, rfl, .wroteReg .w32 fs rfl _⟩
  | dmtc1 rt fs => exact .inl ⟨rfl, _, rfl, .wroteReg .w64 fs rfl _⟩
  | ctc1 rt fs =>
    show (isControlReg fs = true ∧ ∃ t, execCtc1 rt fs s = .next t ∧ _) ∨ (isControlReg fs = false ∧ _)
    rcases ctrlWrite_cases params fs (lowWord s.operand) s.quiet with ⟨hw, f, hv⟩ | ⟨hw, h0, h1, hv⟩
    · exact .inl ⟨hw, _, by simp only [execCtc1, hv], .wroteControl rfl f⟩
    · exact .inr ⟨hw, fs, h0, h1, by show execCtc1 rt fs s = _; simp only [execCtc1, hv]⟩
  | lwc1 ft offset base => exact .inl ⟨rfl, _, rfl, .wroteReg .w32 ft rfl _⟩
  | ldc1 ft offset base => exact .inl ⟨rfl, _, rfl, .wroteReg .w64 ft rfl _⟩
  | swc1 ft offset base => exact .inl ⟨rfl, _, rfl, .answered rfl _⟩
  | sdc1 ft offset base => exact .inl ⟨rfl, _, rfl, .answered rfl _⟩
  | bc1f offset => exact .inl ⟨rfl, _, rfl, .answered rfl _⟩
  | bc1t offset => exact .inl ⟨rfl, _, rfl, .answered rfl _⟩
  | bc1fl offset => exact .inl ⟨rfl, _, rfl, .answered rfl _⟩
  | bc1tl offset => exact .inl ⟨rfl, _, rfl, .answered rfl _⟩
  | _ => simp [Instr.isOperation] at h

/-- Everything any instruction can do when it answers a next state. -/
theorem exec_next {i : Instr} {s t : State} (h : exec i s = .next t) :
    (i.isOperation = true ∧ OpEffect i.dest s t) ∨ (i.isOperation = false ∧ PortEffect i.dest s t) := by
  cases ho : i.isOperation
  · rcases exec_portWord i ho s with ⟨_, t', e, ht⟩ | ⟨_, n, _, _, e⟩
    · rw [e] at h; cases h; exact .inr ⟨rfl, ht⟩
    · rw [e] at h; cases h
  · obtain ⟨t', e, ht⟩ := exec_operation i ho s
    rw [e] at h; cases h; exact .inl ⟨rfl, ht⟩

/-- No instruction touches the mode, FCR0, the requests or the operand (R273). -/
theorem exec_keeps {i : Instr} {s t : State} (h : exec i s = .next t) :
    t.mode = s.mode ∧ t.fcr0 = s.fcr0 ∧ t.requests = s.requests ∧ t.operand = s.operand := by
  rcases exec_next h with ⟨_, h⟩ | ⟨_, h⟩ <;> cases h <;> simp

/-! ### Steps -/

theorem step_nil {s : State} (h : s.requests = []) : step s = .next s.quiet := by
  simp only [step, h]; rfl

theorem step_cons {s : State} {r : Request} {rest : List Request} (h : s.requests = r :: rest) :
    step s = perform r { s with requests := rest } := by
  simp only [step, h]

theorem perform_command {w : Word} {i : Instr} (h : decode w = .ok i) (d : DWord) (s : State) :
    perform (.command w d) s = exec i { s with operand := d } := by
  simp only [perform, performCommand, h]

theorem perform_command_error {w : Word} {e : Reject} (h : decode w = .error e) (d : DWord) (s : State) :
    perform (.command w d) s = .refused (match e with | .notCop1 => .notCop1 | .reserved => .reservedWord) := by
  cases e <;> simp only [perform, performCommand, h]
  rfl

/-- Everything performing a request other than a command word can do when it answers a next state. -/
theorem perform_port {r : Request} {s t : State} (h : perform r s = .next t) (hc : ∀ w d, r ≠ .command w d) :
    (r = .reset ∧ t = performReset s) ∨
    (∃ full, r = .setAddressingMode full ∧ t = s.quiet.setAddressingMode full) ∨
    ∃ d, PortEffect d s t := by
  cases r with
  | command w d => exact absurd rfl (hc w d)
  | reset => simp only [perform, Host.Outcome.next.injEq] at h; exact .inl ⟨rfl, h.symm⟩
  | setAddressingMode full =>
    simp only [perform, Host.Outcome.next.injEq] at h; exact .inr (.inl ⟨full, rfl, h.symm⟩)
  | read32 i => simp only [perform, Host.Outcome.next.injEq] at h; subst h; exact .inr (.inr ⟨_, .answered rfl _⟩)
  | write32 i v => simp only [perform, Host.Outcome.next.injEq] at h; subst h; exact .inr (.inr ⟨_, .wroteReg .w32 i rfl v⟩)
  | read64 i => simp only [perform, Host.Outcome.next.injEq] at h; subst h; exact .inr (.inr ⟨_, .answered rfl _⟩)
  | write64 i v => simp only [perform, Host.Outcome.next.injEq] at h; subst h; exact .inr (.inr ⟨_, .wroteReg .w64 i rfl v⟩)
  | ctrlRead n =>
    rcases ctrlRead_cases s n with ⟨_, v, hv⟩ | ⟨_, _, _, hv⟩
    · simp only [perform, hv, Host.Outcome.next.injEq] at h; subst h; exact .inr (.inr ⟨_, .answered rfl _⟩)
    · simp only [perform, hv] at h; cases h
  | ctrlWrite n v =>
    rcases ctrlWrite_cases params n v s.quiet with ⟨_, f, hv⟩ | ⟨_, _, _, hv⟩
    · simp only [perform, hv, Host.Outcome.next.injEq] at h; subst h; exact .inr (.inr ⟨_, .wroteControl rfl f⟩)
    · simp only [perform, hv] at h; cases h

/-- Everything a step can do when it answers a next state. -/
theorem step_next {s t : State} (h : step s = .next t) :
    (s.requests = [] ∧ t = s.quiet) ∨
    (∃ w d rest i, s.requests = .command w d :: rest ∧ decode w = .ok i ∧
      exec i { s with requests := rest, operand := d } = .next t) ∨
    (∃ rest, s.requests = .reset :: rest ∧ t = performReset { s with requests := rest }) ∨
    (∃ full rest, s.requests = .setAddressingMode full :: rest ∧
      t = ({ s with requests := rest } : State).quiet.setAddressingMode full) ∨
    (∃ r rest d, s.requests = r :: rest ∧ PortEffect d { s with requests := rest } t) := by
  cases hr : s.requests with
  | nil => rw [step_nil hr, Host.Outcome.next.injEq] at h; exact .inl ⟨rfl, h.symm⟩
  | cons r rest =>
    rw [step_cons hr] at h
    by_cases hc : ∀ w d, r ≠ .command w d
    · rcases perform_port h hc with ⟨rfl, ht⟩ | ⟨full, rfl, ht⟩ | ⟨d, ht⟩
      · exact .inr (.inr (.inl ⟨rest, rfl, ht⟩))
      · exact .inr (.inr (.inr (.inl ⟨full, rest, rfl, ht⟩)))
      · exact .inr (.inr (.inr (.inr ⟨r, rest, d, rfl, ht⟩)))
    · simp only [not_forall, not_not] at hc
      obtain ⟨w, d, rfl⟩ := hc
      cases hd : decode w with
      | error e => rw [perform_command_error hd] at h; cases h
      | ok i => rw [perform_command hd] at h; exact .inr (.inl ⟨w, d, rest, i, rfl, hd, h⟩)

end Sys2Proof.Machine
end

