-- ==== Sys2Proof/Tests/Slice0.lean ====
section
/-! SUPPORT. The model's own tests: ill-formed terms, one word per constructor written out from the spec's encodings, one
or two steps per instruction with the results of spec/95_test_vectors.md, and for every statement with hypotheses a
concrete state and operands that meet them. Each is one step at most. -/

namespace Sys2Proof.Tests

open Sys2Proof Sys2Proof.Machine

-- one theorem after another: hundreds of kernel evaluations waiting in parallel threads exhaust the memory limit
set_option Elab.async false

/-! ### WellFormed (R224, D30) -/

theorem test_illFormed_cfc1_1 : Instr.wf (.cfc1 8 1) = false := by decide
theorem test_illFormed_cfc1_30 : Instr.wf (.cfc1 8 30) = false := by decide
theorem test_illFormed_ctc1_25 : Instr.wf (.ctc1 8 25) = false := by decide
theorem test_illFormed_ctc1_2 : Instr.wf (.ctc1 8 2) = false := by decide
theorem test_wellFormed_control_registers :
    Instr.wf (.cfc1 8 0) = true ∧ Instr.wf (.cfc1 8 31) = true ∧ Instr.wf (.ctc1 8 0) = true ∧ Instr.wf (.ctc1 8 31) = true := by
  decide

/-! ### Decoding: words written out field by field from R62 to R66 and R74 (op, fmt or rs, ft or rt, fs, fd, funct) -/

theorem test_decode_addS : decode 0b010001_10000_01010_10101_00011_000000#32 = .ok (.addS 3 21 10) := by decide
theorem test_decode_addD : decode 0b010001_10001_01010_10101_00011_000000#32 = .ok (.addD 3 21 10) := by decide
theorem test_decode_subS : decode 0b010001_10000_01010_10101_00011_000001#32 = .ok (.subS 3 21 10) := by decide
theorem test_decode_subD : decode 0b010001_10001_01010_10101_00011_000001#32 = .ok (.subD 3 21 10) := by decide
theorem test_decode_mulS : decode 0b010001_10000_01010_10101_00011_000010#32 = .ok (.mulS 3 21 10) := by decide
theorem test_decode_mulD : decode 0b010001_10001_01010_10101_00011_000010#32 = .ok (.mulD 3 21 10) := by decide
theorem test_decode_divS : decode 0b010001_10000_01010_10101_00011_000011#32 = .ok (.divS 3 21 10) := by decide
theorem test_decode_divD : decode 0b010001_10001_01010_10101_00011_000011#32 = .ok (.divD 3 21 10) := by decide
theorem test_decode_sqrtS : decode 0b010001_10000_00000_10101_00011_000100#32 = .ok (.sqrtS 3 21) := by decide
theorem test_decode_sqrtD : decode 0b010001_10001_00000_10101_00011_000100#32 = .ok (.sqrtD 3 21) := by decide
theorem test_decode_absS : decode 0b010001_10000_00000_10101_00011_000101#32 = .ok (.absS 3 21) := by decide
theorem test_decode_absD : decode 0b010001_10001_00000_10101_00011_000101#32 = .ok (.absD 3 21) := by decide
theorem test_decode_negS : decode 0b010001_10000_00000_10101_00011_000111#32 = .ok (.negS 3 21) := by decide
theorem test_decode_negD : decode 0b010001_10001_00000_10101_00011_000111#32 = .ok (.negD 3 21) := by decide
theorem test_decode_movS : decode 0b010001_10000_00000_10101_00011_000110#32 = .ok (.movS 3 21) := by decide
theorem test_decode_movD : decode 0b010001_10001_00000_10101_00011_000110#32 = .ok (.movD 3 21) := by decide
theorem test_decode_cvtSD : decode 0b010001_10001_00000_10101_00011_100000#32 = .ok (.cvtSD 3 21) := by decide
theorem test_decode_cvtDS : decode 0b010001_10000_00000_10101_00011_100001#32 = .ok (.cvtDS 3 21) := by decide
theorem test_decode_cvtSW : decode 0b010001_10100_00000_10101_00011_100000#32 = .ok (.cvtSW 3 21) := by decide
theorem test_decode_cvtSL : decode 0b010001_10101_00000_10101_00011_100000#32 = .ok (.cvtSL 3 21) := by decide
theorem test_decode_cvtDW : decode 0b010001_10100_00000_10101_00011_100001#32 = .ok (.cvtDW 3 21) := by decide
theorem test_decode_cvtDL : decode 0b010001_10101_00000_10101_00011_100001#32 = .ok (.cvtDL 3 21) := by decide
theorem test_decode_roundWS : decode 0b010001_10000_00000_10101_00011_001100#32 = .ok (.roundWS 3 21) := by decide
theorem test_decode_truncWS : decode 0b010001_10000_00000_10101_00011_001101#32 = .ok (.truncWS 3 21) := by decide
theorem test_decode_ceilWS : decode 0b010001_10000_00000_10101_00011_001110#32 = .ok (.ceilWS 3 21) := by decide
theorem test_decode_floorWS : decode 0b010001_10000_00000_10101_00011_001111#32 = .ok (.floorWS 3 21) := by decide
theorem test_decode_cvtWS : decode 0b010001_10000_00000_10101_00011_100100#32 = .ok (.cvtWS 3 21) := by decide
theorem test_decode_roundLS : decode 0b010001_10000_00000_10101_00011_001000#32 = .ok (.roundLS 3 21) := by decide
theorem test_decode_truncLS : decode 0b010001_10000_00000_10101_00011_001001#32 = .ok (.truncLS 3 21) := by decide
theorem test_decode_ceilLS : decode 0b010001_10000_00000_10101_00011_001010#32 = .ok (.ceilLS 3 21) := by decide
theorem test_decode_floorLS : decode 0b010001_10000_00000_10101_00011_001011#32 = .ok (.floorLS 3 21) := by decide
theorem test_decode_cvtLS : decode 0b010001_10000_00000_10101_00011_100101#32 = .ok (.cvtLS 3 21) := by decide
theorem test_decode_roundWD : decode 0b010001_10001_00000_10101_00011_001100#32 = .ok (.roundWD 3 21) := by decide
theorem test_decode_truncWD : decode 0b010001_10001_00000_10101_00011_001101#32 = .ok (.truncWD 3 21) := by decide
theorem test_decode_ceilWD : decode 0b010001_10001_00000_10101_00011_001110#32 = .ok (.ceilWD 3 21) := by decide
theorem test_decode_floorWD : decode 0b010001_10001_00000_10101_00011_001111#32 = .ok (.floorWD 3 21) := by decide
theorem test_decode_cvtWD : decode 0b010001_10001_00000_10101_00011_100100#32 = .ok (.cvtWD 3 21) := by decide
theorem test_decode_roundLD : decode 0b010001_10001_00000_10101_00011_001000#32 = .ok (.roundLD 3 21) := by decide
theorem test_decode_truncLD : decode 0b010001_10001_00000_10101_00011_001001#32 = .ok (.truncLD 3 21) := by decide
theorem test_decode_ceilLD : decode 0b010001_10001_00000_10101_00011_001010#32 = .ok (.ceilLD 3 21) := by decide
theorem test_decode_floorLD : decode 0b010001_10001_00000_10101_00011_001011#32 = .ok (.floorLD 3 21) := by decide
theorem test_decode_cvtLD : decode 0b010001_10001_00000_10101_00011_100101#32 = .ok (.cvtLD 3 21) := by decide
theorem test_decode_cFS : decode 0b010001_10000_01010_10101_00000_110000#32 = .ok (.cFS 21 10) := by decide
theorem test_decode_cUnS : decode 0b010001_10000_01010_10101_00000_110001#32 = .ok (.cUnS 21 10) := by decide
theorem test_decode_cEqS : decode 0b010001_10000_01010_10101_00000_110010#32 = .ok (.cEqS 21 10) := by decide
theorem test_decode_cUeqS : decode 0b010001_10000_01010_10101_00000_110011#32 = .ok (.cUeqS 21 10) := by decide
theorem test_decode_cOltS : decode 0b010001_10000_01010_10101_00000_110100#32 = .ok (.cOltS 21 10) := by decide
theorem test_decode_cUltS : decode 0b010001_10000_01010_10101_00000_110101#32 = .ok (.cUltS 21 10) := by decide
theorem test_decode_cOleS : decode 0b010001_10000_01010_10101_00000_110110#32 = .ok (.cOleS 21 10) := by decide
theorem test_decode_cUleS : decode 0b010001_10000_01010_10101_00000_110111#32 = .ok (.cUleS 21 10) := by decide
theorem test_decode_cSfS : decode 0b010001_10000_01010_10101_00000_111000#32 = .ok (.cSfS 21 10) := by decide
theorem test_decode_cNgleS : decode 0b010001_10000_01010_10101_00000_111001#32 = .ok (.cNgleS 21 10) := by decide
theorem test_decode_cSeqS : decode 0b010001_10000_01010_10101_00000_111010#32 = .ok (.cSeqS 21 10) := by decide
theorem test_decode_cNglS : decode 0b010001_10000_01010_10101_00000_111011#32 = .ok (.cNglS 21 10) := by decide
theorem test_decode_cLtS : decode 0b010001_10000_01010_10101_00000_111100#32 = .ok (.cLtS 21 10) := by decide
theorem test_decode_cNgeS : decode 0b010001_10000_01010_10101_00000_111101#32 = .ok (.cNgeS 21 10) := by decide
theorem test_decode_cLeS : decode 0b010001_10000_01010_10101_00000_111110#32 = .ok (.cLeS 21 10) := by decide
theorem test_decode_cNgtS : decode 0b010001_10000_01010_10101_00000_111111#32 = .ok (.cNgtS 21 10) := by decide
theorem test_decode_cFD : decode 0b010001_10001_01010_10101_00000_110000#32 = .ok (.cFD 21 10) := by decide
theorem test_decode_cUnD : decode 0b010001_10001_01010_10101_00000_110001#32 = .ok (.cUnD 21 10) := by decide
theorem test_decode_cEqD : decode 0b010001_10001_01010_10101_00000_110010#32 = .ok (.cEqD 21 10) := by decide
theorem test_decode_cUeqD : decode 0b010001_10001_01010_10101_00000_110011#32 = .ok (.cUeqD 21 10) := by decide
theorem test_decode_cOltD : decode 0b010001_10001_01010_10101_00000_110100#32 = .ok (.cOltD 21 10) := by decide
theorem test_decode_cUltD : decode 0b010001_10001_01010_10101_00000_110101#32 = .ok (.cUltD 21 10) := by decide
theorem test_decode_cOleD : decode 0b010001_10001_01010_10101_00000_110110#32 = .ok (.cOleD 21 10) := by decide
theorem test_decode_cUleD : decode 0b010001_10001_01010_10101_00000_110111#32 = .ok (.cUleD 21 10) := by decide
theorem test_decode_cSfD : decode 0b010001_10001_01010_10101_00000_111000#32 = .ok (.cSfD 21 10) := by decide
theorem test_decode_cNgleD : decode 0b010001_10001_01010_10101_00000_111001#32 = .ok (.cNgleD 21 10) := by decide
theorem test_decode_cSeqD : decode 0b010001_10001_01010_10101_00000_111010#32 = .ok (.cSeqD 21 10) := by decide
theorem test_decode_cNglD : decode 0b010001_10001_01010_10101_00000_111011#32 = .ok (.cNglD 21 10) := by decide
theorem test_decode_cLtD : decode 0b010001_10001_01010_10101_00000_111100#32 = .ok (.cLtD 21 10) := by decide
theorem test_decode_cNgeD : decode 0b010001_10001_01010_10101_00000_111101#32 = .ok (.cNgeD 21 10) := by decide
theorem test_decode_cLeD : decode 0b010001_10001_01010_10101_00000_111110#32 = .ok (.cLeD 21 10) := by decide
theorem test_decode_cNgtD : decode 0b010001_10001_01010_10101_00000_111111#32 = .ok (.cNgtD 21 10) := by decide
theorem test_decode_mfc1 : decode 0b010001_00000_11001_10101_00000000000#32 = .ok (.mfc1 25 21) := by decide
theorem test_decode_dmfc1 : decode 0b010001_00001_11001_10101_00000000000#32 = .ok (.dmfc1 25 21) := by decide
theorem test_decode_cfc1 : decode 0b010001_00010_11001_10101_00000000000#32 = .ok (.cfc1 25 21) := by decide
theorem test_decode_mtc1 : decode 0b010001_00100_11001_10101_00000000000#32 = .ok (.mtc1 25 21) := by decide
theorem test_decode_dmtc1 : decode 0b010001_00101_11001_10101_00000000000#32 = .ok (.dmtc1 25 21) := by decide
theorem test_decode_ctc1 : decode 0b010001_00110_11001_10101_00000000000#32 = .ok (.ctc1 25 21) := by decide
theorem test_decode_lwc1 : decode 0b110001_11101_01010_1000000000000100#32 = .ok (.lwc1 10 32772#16 29) := by decide
theorem test_decode_ldc1 : decode 0b110101_11101_01010_1000000000000100#32 = .ok (.ldc1 10 32772#16 29) := by decide
theorem test_decode_swc1 : decode 0b111001_11101_01010_1000000000000100#32 = .ok (.swc1 10 32772#16 29) := by decide
theorem test_decode_sdc1 : decode 0b111101_11101_01010_1000000000000100#32 = .ok (.sdc1 10 32772#16 29) := by decide
theorem test_decode_bc1f : decode 0b010001_01000_00000_1000000000000100#32 = .ok (.bc1f 32772#16) := by decide
theorem test_decode_bc1t : decode 0b010001_01000_00001_1000000000000100#32 = .ok (.bc1t 32772#16) := by decide
theorem test_decode_bc1fl : decode 0b010001_01000_00010_1000000000000100#32 = .ok (.bc1fl 32772#16) := by decide
theorem test_decode_bc1tl : decode 0b010001_01000_00011_1000000000000100#32 = .ok (.bc1tl 32772#16) := by decide

theorem test_reserved_funct : decode 0b010001_10000_00100_00010_00000_010000#32 = .error .reserved := by decide
theorem test_reserved_fmt : decode 0b010001_10010_00100_00010_00000_000000#32 = .error .reserved := by decide
theorem test_reserved_ft_of_sqrt : decode 0b010001_10000_00001_00010_00000_000100#32 = .error .reserved := by decide
theorem test_reserved_fd_of_compare : decode 0b010001_10000_00100_00010_00001_111100#32 = .error .reserved := by decide
theorem test_reserved_low_bits_of_mfc1 : decode 0b010001_00000_00100_00010_00000_000001#32 = .error .reserved := by decide
theorem test_not_cop1 : decode 0b010010_10000_00100_00010_00000_000000#32 = .error .notCop1 := by decide
theorem test_decodeTableWord : decodeTableWord 32 0x46041000 = some (.addS 0 2 4) := by decide

/-! ### One step on a small state -/

/-- The convention of 95_test_vectors.md: after reset, `$f0` holds the sentinel, `$f2` and `$f4` the operands. -/
def withOperands (fs ft : BitVec 64) (f : BitVec 32) : State :=
  ((({ State.reset with fcr31 := f } : State).setX64 0 0xDEADBEEFDEADBEEF#64).setX64 2 fs).setX64 4 ft

/-- `$f0`, FCR31 and FPE after the step that runs the word. -/
def after (word : Nat) (fs ft : BitVec 64) (f : BitVec 32) : Option (BitVec 64 × BitVec 32 × Bool) :=
  match step ((withOperands fs ft f).withFetchWord 32 word) with
  | .next t => some (t.x64 0, t.fcr31, t.trap)
  | .fault _ => none
  | .refused _ => none

theorem test_addS_1 : after 0x46041000 0x000000003F800000#64 0x0000000033800000#64 0x00000000#32 =
    some (0xDEADBEEF3F800000#64, 0x00001004#32, false) := by decide +kernel
theorem test_addS_2 : after 0x46041000 0x000000007149F2CA#64 0x000000003F800000#64 0x00000080#32 =
    some (0xDEADBEEFDEADBEEF#64, 0x00001080#32, true) := by decide +kernel
theorem test_addD_1 : after 0x46241000 0x7FEFFFFFFFFFFFFF#64 0x7FEFFFFFFFFFFFFF#64 0x00000000#32 =
    some (0x7FF0000000000000#64, 0x00005014#32, false) := by decide +kernel
theorem test_addD_2 : after 0x46241000 0x0000000000000001#64 0x0000000000000000#64 0x00000000#32 =
    some (0xDEADBEEFDEADBEEF#64, 0x00020000#32, true) := by decide +kernel
theorem test_subS_1 : after 0x46041001 0x0000000040000000#64 0x000000003F800000#64 0x00000000#32 =
    some (0xDEADBEEF3F800000#64, 0x00001004#32, false) := by decide +kernel
theorem test_subS_2 : after 0x46041001 0x0000000000A00000#64 0x0000000000800000#64 0x00000000#32 =
    some (0xDEADBEEFDEADBEEF#64, 0x00020000#32, true) := by decide +kernel
theorem test_subD_1 : after 0x46241001 0xFFF0000000000000#64 0xFFF0000000000000#64 0x00000000#32 =
    some (0x7FF7FFFFFFFFFFFF#64, 0x00010040#32, false) := by decide +kernel
theorem test_subD_2 : after 0x46241001 0x4008000000000000#64 0x3FF0000000000000#64 0x00000000#32 =
    some (0x4000000000000000#64, 0x00000000#32, false) := by decide +kernel
theorem test_mulS_1 : after 0x46041002 0x000000003DCCCCCD#64 0x0000000040400000#64 0x00000000#32 =
    some (0xDEADBEEF3E99999A#64, 0x00001004#32, false) := by decide +kernel
theorem test_mulS_2 : after 0x46041002 0x000000007F800000#64 0x0000000000000000#64 0x00000800#32 =
    some (0xDEADBEEFDEADBEEF#64, 0x00010800#32, true) := by decide +kernel
theorem test_mulD_1 : after 0x46241002 0xFFF0000000000000#64 0x8000000000000000#64 0x00000000#32 =
    some (0x7FF7FFFFFFFFFFFF#64, 0x00010040#32, false) := by decide +kernel
theorem test_mulD_2 : after 0x46241002 0x0170000000000000#64 0x3E10000000000000#64 0x00000000#32 =
    some (0xDEADBEEFDEADBEEF#64, 0x00020000#32, true) := by decide +kernel
theorem test_divS_1 : after 0x46041003 0x000000003F800000#64 0x0000000040400000#64 0x00000000#32 =
    some (0xDEADBEEF3EAAAAAB#64, 0x00001004#32, false) := by decide +kernel
theorem test_divS_2 : after 0x46041003 0x000000003F800000#64 0x0000000000000000#64 0x00000400#32 =
    some (0xDEADBEEFDEADBEEF#64, 0x00008400#32, true) := by decide +kernel
theorem test_divD_1 : after 0x46241003 0x3FF0000000000000#64 0x0000000000000000#64 0x00000000#32 =
    some (0x7FF0000000000000#64, 0x00008020#32, false) := by decide +kernel
theorem test_divD_2 : after 0x46241003 0xC000000000000000#64 0x0000000000000000#64 0x00000400#32 =
    some (0xDEADBEEFDEADBEEF#64, 0x00008400#32, true) := by decide +kernel
theorem test_sqrtS_1 : after 0x46001004 0x0000000040000000#64 0x0000000000000000#64 0x00000000#32 =
    some (0xDEADBEEF3FB504F3#64, 0x00001004#32, false) := by decide +kernel
theorem test_sqrtS_2 : after 0x46001004 0x00000000C0800000#64 0x0000000000000000#64 0x00000800#32 =
    some (0xDEADBEEFDEADBEEF#64, 0x00010800#32, true) := by decide +kernel
theorem test_sqrtD_1 : after 0x46201004 0xBFF0000000000000#64 0x0000000000000000#64 0x00000000#32 =
    some (0x7FF7FFFFFFFFFFFF#64, 0x00010040#32, false) := by decide +kernel
theorem test_sqrtD_2 : after 0x46201004 0x7FF0000000000001#64 0x0000000000000000#64 0x00000000#32 =
    some (0xDEADBEEFDEADBEEF#64, 0x00020000#32, true) := by decide +kernel
theorem test_absS_1 : after 0x46001005 0x00000000FFC00000#64 0x0000000000000000#64 0x00000000#32 =
    some (0xDEADBEEF7FBFFFFF#64, 0x00010040#32, false) := by decide +kernel
theorem test_absS_2 : after 0x46001005 0x0000000080000001#64 0x0000000000000000#64 0x00000000#32 =
    some (0xDEADBEEFDEADBEEF#64, 0x00020000#32, true) := by decide +kernel
theorem test_absD_1 : after 0x46201005 0xFFF8000000000000#64 0x0000000000000000#64 0x00000800#32 =
    some (0xDEADBEEFDEADBEEF#64, 0x00010800#32, true) := by decide +kernel
theorem test_absD_2 : after 0x46201005 0xC004000000000000#64 0x0000000000000000#64 0x00000000#32 =
    some (0x4004000000000000#64, 0x00000000#32, false) := by decide +kernel
theorem test_negS_1 : after 0x46001007 0x000000007FC00000#64 0x0000000000000000#64 0x00000000#32 =
    some (0xDEADBEEF7FBFFFFF#64, 0x00010040#32, false) := by decide +kernel
theorem test_negS_2 : after 0x46001007 0x0000000040200000#64 0x0000000000000000#64 0x00000000#32 =
    some (0xDEADBEEFC0200000#64, 0x00000000#32, false) := by decide +kernel
theorem test_negD_1 : after 0x46201007 0x000FFFFFFFFFFFFF#64 0x0000000000000000#64 0x00000000#32 =
    some (0xDEADBEEFDEADBEEF#64, 0x00020000#32, true) := by decide +kernel
theorem test_negD_2 : after 0x46201007 0x4004000000000000#64 0x0000000000000000#64 0x00000000#32 =
    some (0xC004000000000000#64, 0x00000000#32, false) := by decide +kernel
theorem test_movS_1 : after 0x46001006 0x000000007F800001#64 0x0000000000000000#64 0x0001F07C#32 =
    some (0xDEADBEEF7F800001#64, 0x0000007C#32, false) := by decide +kernel
theorem test_movS_2 : after 0x46001006 0x0000000000000001#64 0x0000000000000000#64 0x00000000#32 =
    some (0xDEADBEEF00000001#64, 0x00000000#32, false) := by decide +kernel
theorem test_movD_1 : after 0x46201006 0x7FF0000000000001#64 0x0000000000000000#64 0x00000000#32 =
    some (0x7FF0000000000001#64, 0x00000000#32, false) := by decide +kernel
theorem test_movD_2 : after 0x46201006 0x8000000000000000#64 0x0000000000000000#64 0x00000000#32 =
    some (0x8000000000000000#64, 0x00000000#32, false) := by decide +kernel
theorem test_cvtSD_1 : after 0x46201020 0x3FB999999999999A#64 0x0000000000000000#64 0x00000000#32 =
    some (0xDEADBEEF3DCCCCCD#64, 0x00001004#32, false) := by decide +kernel
theorem test_cvtSD_2 : after 0x46201020 0x3FB999999999999A#64 0x0000000000000000#64 0x00000080#32 =
    some (0xDEADBEEFDEADBEEF#64, 0x00001080#32, true) := by decide +kernel
theorem test_cvtDS_1 : after 0x46001021 0x000000007FC00000#64 0x0000000000000000#64 0x00000000#32 =
    some (0x7FF7FFFFFFFFFFFF#64, 0x00010040#32, false) := by decide +kernel
theorem test_cvtDS_2 : after 0x46001021 0x000000007FC00000#64 0x0000000000000000#64 0x00000800#32 =
    some (0xDEADBEEFDEADBEEF#64, 0x00010800#32, true) := by decide +kernel
theorem test_cvtSW_1 : after 0x46801020 0x00000000FFFFFFFD#64 0x0000000000000000#64 0x00000000#32 =
    some (0xDEADBEEFC0400000#64, 0x00000000#32, false) := by decide +kernel
theorem test_cvtSW_2 : after 0x46801020 0x0000000001000001#64 0x0000000000000000#64 0x00000000#32 =
    some (0xDEADBEEF4B800000#64, 0x00000000#32, false) := by decide +kernel
theorem test_cvtSL_1 : after 0x46A01020 0x4000004000000001#64 0x0000000000000000#64 0x00000000#32 =
    some (0xDEADBEEF5E800000#64, 0x00000000#32, false) := by decide +kernel
theorem test_cvtSL_2 : after 0x46A01020 0xFFFFFFFFFFFFFFFF#64 0x0000000000000000#64 0x00000000#32 =
    some (0xDEADBEEFBF800000#64, 0x00000000#32, false) := by decide +kernel
theorem test_cvtDW_1 : after 0x46801021 0x0000000080000000#64 0x0000000000000000#64 0x00000000#32 =
    some (0xC1E0000000000000#64, 0x00000000#32, false) := by decide +kernel
theorem test_cvtDW_2 : after 0x46801021 0x000000007FFFFFFF#64 0x0000000000000000#64 0x00000000#32 =
    some (0x41DFFFFFFFC00000#64, 0x00000000#32, false) := by decide +kernel
theorem test_cvtDL_1 : after 0x46A01021 0x0020000000000001#64 0x0000000000000000#64 0x00000000#32 =
    some (0x4340000000000000#64, 0x00000000#32, false) := by decide +kernel
theorem test_cvtDL_2 : after 0x46A01021 0x8000000000000000#64 0x0000000000000000#64 0x00000000#32 =
    some (0xC3E0000000000000#64, 0x00000000#32, false) := by decide +kernel
theorem test_roundWS_1 : after 0x4600100C 0x0000000040200000#64 0x0000000000000000#64 0x00000000#32 =
    some (0xDEADBEEF00000002#64, 0x00001004#32, false) := by decide +kernel
theorem test_roundWS_2 : after 0x4600100C 0x0000000040200000#64 0x0000000000000000#64 0x00000080#32 =
    some (0xDEADBEEFDEADBEEF#64, 0x00001080#32, true) := by decide +kernel
theorem test_truncWS_1 : after 0x4600100D 0x0000000040200000#64 0x0000000000000000#64 0x00000000#32 =
    some (0xDEADBEEF00000002#64, 0x00001004#32, false) := by decide +kernel
theorem test_truncWS_2 : after 0x4600100D 0x000000007F800000#64 0x0000000000000000#64 0x00000000#32 =
    some (0xDEADBEEFDEADBEEF#64, 0x00020000#32, true) := by decide +kernel
theorem test_ceilWS_1 : after 0x4600100E 0x0000000040200000#64 0x0000000000000000#64 0x00000000#32 =
    some (0xDEADBEEF00000003#64, 0x00001004#32, false) := by decide +kernel
theorem test_ceilWS_2 : after 0x4600100E 0x00000000C0200000#64 0x0000000000000000#64 0x00000000#32 =
    some (0xDEADBEEFFFFFFFFE#64, 0x00001004#32, false) := by decide +kernel
theorem test_floorWS_1 : after 0x4600100F 0x0000000040200000#64 0x0000000000000000#64 0x00000000#32 =
    some (0xDEADBEEF00000002#64, 0x00001004#32, false) := by decide +kernel
theorem test_floorWS_2 : after 0x4600100F 0x00000000C0200000#64 0x0000000000000000#64 0x00000000#32 =
    some (0xDEADBEEFFFFFFFFD#64, 0x00001004#32, false) := by decide +kernel
theorem test_cvtWS_1 : after 0x46001024 0x0000000040200000#64 0x0000000000000000#64 0x00000000#32 =
    some (0xDEADBEEF00000002#64, 0x00001004#32, false) := by decide +kernel
theorem test_cvtWS_2 : after 0x46001024 0x0000000040200000#64 0x0000000000000000#64 0x00000001#32 =
    some (0xDEADBEEF00000002#64, 0x00001005#32, false) := by decide +kernel
theorem test_roundLS_1 : after 0x46001008 0x00000000C0200000#64 0x0000000000000000#64 0x00000000#32 =
    some (0xFFFFFFFFFFFFFFFE#64, 0x00001004#32, false) := by decide +kernel
theorem test_truncLS_1 : after 0x46001009 0x000000005B800000#64 0x0000000000000000#64 0x00000000#32 =
    some (0xDEADBEEFDEADBEEF#64, 0x00020000#32, true) := by decide +kernel
theorem test_truncLS_2 : after 0x46001009 0x0000000053800000#64 0x0000000000000000#64 0x00000000#32 =
    some (0x0000010000000000#64, 0x00000000#32, false) := by decide +kernel
theorem test_ceilLS_1 : after 0x4600100A 0x00000000449A4800#64 0x0000000000000000#64 0x00000000#32 =
    some (0x00000000000004D3#64, 0x00001004#32, false) := by decide +kernel
theorem test_floorLS_1 : after 0x4600100B 0x00000000BFC00000#64 0x0000000000000000#64 0x00000000#32 =
    some (0xFFFFFFFFFFFFFFFE#64, 0x00001004#32, false) := by decide +kernel
theorem test_cvtLS_1 : after 0x46001025 0x00000000BF000000#64 0x0000000000000000#64 0x00000002#32 =
    some (0x0000000000000000#64, 0x00001006#32, false) := by decide +kernel
theorem test_roundWD_1 : after 0x4620100C 0x4004000000000000#64 0x0000000000000000#64 0x00000000#32 =
    some (0xDEADBEEF00000002#64, 0x00001004#32, false) := by decide +kernel
theorem test_roundWD_2 : after 0x4620100C 0x4004000000000000#64 0x0000000000000000#64 0x00000080#32 =
    some (0xDEADBEEFDEADBEEF#64, 0x00001080#32, true) := by decide +kernel
theorem test_truncWD_1 : after 0x4620100D 0x4004000000000000#64 0x0000000000000000#64 0x00000000#32 =
    some (0xDEADBEEF00000002#64, 0x00001004#32, false) := by decide +kernel
theorem test_truncWD_2 : after 0x4620100D 0x7FF0000000000000#64 0x0000000000000000#64 0x00000000#32 =
    some (0xDEADBEEFDEADBEEF#64, 0x00020000#32, true) := by decide +kernel
theorem test_ceilWD_1 : after 0x4620100E 0x4004000000000000#64 0x0000000000000000#64 0x00000000#32 =
    some (0xDEADBEEF00000003#64, 0x00001004#32, false) := by decide +kernel
theorem test_ceilWD_2 : after 0x4620100E 0xC004000000000000#64 0x0000000000000000#64 0x00000000#32 =
    some (0xDEADBEEFFFFFFFFE#64, 0x00001004#32, false) := by decide +kernel
theorem test_floorWD_1 : after 0x4620100F 0x4004000000000000#64 0x0000000000000000#64 0x00000000#32 =
    some (0xDEADBEEF00000002#64, 0x00001004#32, false) := by decide +kernel
theorem test_floorWD_2 : after 0x4620100F 0xC004000000000000#64 0x0000000000000000#64 0x00000000#32 =
    some (0xDEADBEEFFFFFFFFD#64, 0x00001004#32, false) := by decide +kernel
theorem test_cvtWD_1 : after 0x46201024 0x4004000000000000#64 0x0000000000000000#64 0x00000000#32 =
    some (0xDEADBEEF00000002#64, 0x00001004#32, false) := by decide +kernel
theorem test_cvtWD_2 : after 0x46201024 0x4004000000000000#64 0x0000000000000000#64 0x00000001#32 =
    some (0xDEADBEEF00000002#64, 0x00001005#32, false) := by decide +kernel
theorem test_roundLD_1 : after 0x46201008 0xC004000000000000#64 0x0000000000000000#64 0x00000000#32 =
    some (0xFFFFFFFFFFFFFFFE#64, 0x00001004#32, false) := by decide +kernel
theorem test_truncLD_1 : after 0x46201009 0x4270000000000000#64 0x0000000000000000#64 0x00000000#32 =
    some (0x0000010000000000#64, 0x00000000#32, false) := by decide +kernel
theorem test_truncLD_2 : after 0x46201009 0x43D0000000000000#64 0x0000000000000000#64 0x00000000#32 =
    some (0x4000000000000000#64, 0x00000000#32, false) := by decide +kernel
theorem test_ceilLD_1 : after 0x4620100A 0x4202A05F20040000#64 0x0000000000000000#64 0x00000000#32 =
    some (0x00000002540BE401#64, 0x00001004#32, false) := by decide +kernel
theorem test_floorLD_1 : after 0x4620100B 0xBFF8000000000000#64 0x0000000000000000#64 0x00000000#32 =
    some (0xFFFFFFFFFFFFFFFE#64, 0x00001004#32, false) := by decide +kernel
theorem test_cvtLD_1 : after 0x46201025 0xBFE0000000000000#64 0x0000000000000000#64 0x00000002#32 =
    some (0x0000000000000000#64, 0x00001006#32, false) := by decide +kernel
theorem test_cFS_1 : after 0x46041030 0x000000003F800000#64 0x0000000040000000#64 0x00000000#32 =
    some (0xDEADBEEFDEADBEEF#64, 0x00000000#32, false) := by decide +kernel
theorem test_cFS_2 : after 0x46041030 0x000000007FC00000#64 0x000000003F800000#64 0x00800800#32 =
    some (0xDEADBEEFDEADBEEF#64, 0x00000800#32, false) := by decide +kernel
theorem test_cUnS_1 : after 0x46041031 0x000000003F800000#64 0x0000000040000000#64 0x00000000#32 =
    some (0xDEADBEEFDEADBEEF#64, 0x00000000#32, false) := by decide +kernel
theorem test_cUnS_2 : after 0x46041031 0x000000007FC00000#64 0x000000003F800000#64 0x00800800#32 =
    some (0xDEADBEEFDEADBEEF#64, 0x00800800#32, false) := by decide +kernel
theorem test_cEqS_1 : after 0x46041032 0x000000003F800000#64 0x0000000040000000#64 0x00000000#32 =
    some (0xDEADBEEFDEADBEEF#64, 0x00000000#32, false) := by decide +kernel
theorem test_cEqS_2 : after 0x46041032 0x000000007FC00000#64 0x000000003F800000#64 0x00800800#32 =
    some (0xDEADBEEFDEADBEEF#64, 0x00000800#32, false) := by decide +kernel
theorem test_cUeqS_1 : after 0x46041033 0x000000003F800000#64 0x0000000040000000#64 0x00000000#32 =
    some (0xDEADBEEFDEADBEEF#64, 0x00000000#32, false) := by decide +kernel
theorem test_cUeqS_2 : after 0x46041033 0x000000007FC00000#64 0x000000003F800000#64 0x00800800#32 =
    some (0xDEADBEEFDEADBEEF#64, 0x00800800#32, false) := by decide +kernel
theorem test_cOltS_1 : after 0x46041034 0x000000003F800000#64 0x0000000040000000#64 0x00000000#32 =
    some (0xDEADBEEFDEADBEEF#64, 0x00800000#32, false) := by decide +kernel
theorem test_cOltS_2 : after 0x46041034 0x000000007FC00000#64 0x000000003F800000#64 0x00800800#32 =
    some (0xDEADBEEFDEADBEEF#64, 0x00000800#32, false) := by decide +kernel
theorem test_cUltS_1 : after 0x46041035 0x000000003F800000#64 0x0000000040000000#64 0x00000000#32 =
    some (0xDEADBEEFDEADBEEF#64, 0x00800000#32, false) := by decide +kernel
theorem test_cUltS_2 : after 0x46041035 0x000000007FC00000#64 0x000000003F800000#64 0x00800800#32 =
    some (0xDEADBEEFDEADBEEF#64, 0x00800800#32, false) := by decide +kernel
theorem test_cOleS_1 : after 0x46041036 0x000000003F800000#64 0x0000000040000000#64 0x00000000#32 =
    some (0xDEADBEEFDEADBEEF#64, 0x00800000#32, false) := by decide +kernel
theorem test_cOleS_2 : after 0x46041036 0x000000007FC00000#64 0x000000003F800000#64 0x00800800#32 =
    some (0xDEADBEEFDEADBEEF#64, 0x00000800#32, false) := by decide +kernel
theorem test_cUleS_1 : after 0x46041037 0x000000003F800000#64 0x0000000040000000#64 0x00000000#32 =
    some (0xDEADBEEFDEADBEEF#64, 0x00800000#32, false) := by decide +kernel
theorem test_cUleS_2 : after 0x46041037 0x000000007FC00000#64 0x000000003F800000#64 0x00800800#32 =
    some (0xDEADBEEFDEADBEEF#64, 0x00800800#32, false) := by decide +kernel
theorem test_cSfS_1 : after 0x46041038 0x000000003F800000#64 0x0000000040000000#64 0x00000000#32 =
    some (0xDEADBEEFDEADBEEF#64, 0x00000000#32, false) := by decide +kernel
theorem test_cSfS_2 : after 0x46041038 0x000000007FC00000#64 0x000000003F800000#64 0x00800800#32 =
    some (0xDEADBEEFDEADBEEF#64, 0x00810800#32, true) := by decide +kernel
theorem test_cNgleS_1 : after 0x46041039 0x000000003F800000#64 0x0000000040000000#64 0x00000000#32 =
    some (0xDEADBEEFDEADBEEF#64, 0x00000000#32, false) := by decide +kernel
theorem test_cNgleS_2 : after 0x46041039 0x000000007FC00000#64 0x000000003F800000#64 0x00800800#32 =
    some (0xDEADBEEFDEADBEEF#64, 0x00810800#32, true) := by decide +kernel
theorem test_cSeqS_1 : after 0x4604103A 0x000000003F800000#64 0x0000000040000000#64 0x00000000#32 =
    some (0xDEADBEEFDEADBEEF#64, 0x00000000#32, false) := by decide +kernel
theorem test_cSeqS_2 : after 0x4604103A 0x000000007FC00000#64 0x000000003F800000#64 0x00800800#32 =
    some (0xDEADBEEFDEADBEEF#64, 0x00810800#32, true) := by decide +kernel
theorem test_cNglS_1 : after 0x4604103B 0x000000003F800000#64 0x0000000040000000#64 0x00000000#32 =
    some (0xDEADBEEFDEADBEEF#64, 0x00000000#32, false) := by decide +kernel
theorem test_cNglS_2 : after 0x4604103B 0x000000007FC00000#64 0x000000003F800000#64 0x00800800#32 =
    some (0xDEADBEEFDEADBEEF#64, 0x00810800#32, true) := by decide +kernel
theorem test_cLtS_1 : after 0x4604103C 0x000000003F800000#64 0x0000000040000000#64 0x00000000#32 =
    some (0xDEADBEEFDEADBEEF#64, 0x00800000#32, false) := by decide +kernel
theorem test_cLtS_2 : after 0x4604103C 0x000000007FC00000#64 0x000000003F800000#64 0x00800800#32 =
    some (0xDEADBEEFDEADBEEF#64, 0x00810800#32, true) := by decide +kernel
theorem test_cNgeS_1 : after 0x4604103D 0x000000003F800000#64 0x0000000040000000#64 0x00000000#32 =
    some (0xDEADBEEFDEADBEEF#64, 0x00800000#32, false) := by decide +kernel
theorem test_cNgeS_2 : after 0x4604103D 0x000000007FC00000#64 0x000000003F800000#64 0x00800800#32 =
    some (0xDEADBEEFDEADBEEF#64, 0x00810800#32, true) := by decide +kernel
theorem test_cLeS_1 : after 0x4604103E 0x000000003F800000#64 0x0000000040000000#64 0x00000000#32 =
    some (0xDEADBEEFDEADBEEF#64, 0x00800000#32, false) := by decide +kernel
theorem test_cLeS_2 : after 0x4604103E 0x000000007FC00000#64 0x000000003F800000#64 0x00800800#32 =
    some (0xDEADBEEFDEADBEEF#64, 0x00810800#32, true) := by decide +kernel
theorem test_cNgtS_1 : after 0x4604103F 0x000000003F800000#64 0x0000000040000000#64 0x00000000#32 =
    some (0xDEADBEEFDEADBEEF#64, 0x00800000#32, false) := by decide +kernel
theorem test_cNgtS_2 : after 0x4604103F 0x000000007FC00000#64 0x000000003F800000#64 0x00800800#32 =
    some (0xDEADBEEFDEADBEEF#64, 0x00810800#32, true) := by decide +kernel
theorem test_cFD_1 : after 0x46241030 0x7FF8000000000000#64 0x3FF0000000000000#64 0x00000000#32 =
    some (0xDEADBEEFDEADBEEF#64, 0x00000000#32, false) := by decide +kernel
theorem test_cUnD_1 : after 0x46241031 0x7FF0000000000001#64 0x3FF0000000000000#64 0x00000000#32 =
    some (0xDEADBEEFDEADBEEF#64, 0x00810040#32, false) := by decide +kernel
theorem test_cUnD_2 : after 0x46241031 0x7FF8000000000000#64 0x3FF0000000000000#64 0x00000000#32 =
    some (0xDEADBEEFDEADBEEF#64, 0x00800000#32, false) := by decide +kernel
theorem test_cEqD_1 : after 0x46241032 0x8000000000000000#64 0x0000000000000000#64 0x00000000#32 =
    some (0xDEADBEEFDEADBEEF#64, 0x00800000#32, false) := by decide +kernel
theorem test_cEqD_2 : after 0x46241032 0x7FF0000000000000#64 0x7FF0000000000000#64 0x01800000#32 =
    some (0xDEADBEEFDEADBEEF#64, 0x01800000#32, false) := by decide +kernel
theorem test_cUeqD_1 : after 0x46241033 0x7FF8000000000000#64 0x3FF0000000000000#64 0x00000000#32 =
    some (0xDEADBEEFDEADBEEF#64, 0x00800000#32, false) := by decide +kernel
theorem test_cOltD_1 : after 0x46241034 0x7FF8000000000000#64 0x3FF0000000000000#64 0x00000000#32 =
    some (0xDEADBEEFDEADBEEF#64, 0x00000000#32, false) := by decide +kernel
theorem test_cUltD_1 : after 0x46241035 0x7FF8000000000000#64 0x3FF0000000000000#64 0x00000000#32 =
    some (0xDEADBEEFDEADBEEF#64, 0x00800000#32, false) := by decide +kernel
theorem test_cOleD_1 : after 0x46241036 0x0000000000000001#64 0x0000000000000002#64 0x00000000#32 =
    some (0xDEADBEEFDEADBEEF#64, 0x00800000#32, false) := by decide +kernel
theorem test_cUleD_1 : after 0x46241037 0x7FF8000000000000#64 0x3FF0000000000000#64 0x00000000#32 =
    some (0xDEADBEEFDEADBEEF#64, 0x00800000#32, false) := by decide +kernel
theorem test_cSfD_1 : after 0x46241038 0x7FF8000000000000#64 0x3FF0000000000000#64 0x00000800#32 =
    some (0xDEADBEEFDEADBEEF#64, 0x00010800#32, true) := by decide +kernel
theorem test_cNgleD_1 : after 0x46241039 0x7FF8000000000000#64 0x3FF0000000000000#64 0x00000000#32 =
    some (0xDEADBEEFDEADBEEF#64, 0x00810040#32, false) := by decide +kernel
theorem test_cSeqD_1 : after 0x4624103a 0x7FF8000000000000#64 0x3FF0000000000000#64 0x00000000#32 =
    some (0xDEADBEEFDEADBEEF#64, 0x00010040#32, false) := by decide +kernel
theorem test_cNglD_1 : after 0x4624103b 0x7FF8000000000000#64 0x3FF0000000000000#64 0x00000000#32 =
    some (0xDEADBEEFDEADBEEF#64, 0x00810040#32, false) := by decide +kernel
theorem test_cLtD_1 : after 0x4624103C 0x3FF0000000000000#64 0x4000000000000000#64 0x00000000#32 =
    some (0xDEADBEEFDEADBEEF#64, 0x00800000#32, false) := by decide +kernel
theorem test_cLtD_2 : after 0x4624103C 0x4000000000000000#64 0x4000000000000000#64 0x00000000#32 =
    some (0xDEADBEEFDEADBEEF#64, 0x00000000#32, false) := by decide +kernel
theorem test_cNgeD_1 : after 0x4624103d 0x7FF8000000000000#64 0x3FF0000000000000#64 0x00000000#32 =
    some (0xDEADBEEFDEADBEEF#64, 0x00810040#32, false) := by decide +kernel
theorem test_cLeD_1 : after 0x4624103E 0xFFF0000000000000#64 0xFFE1CCF385EBC8A0#64 0x00000000#32 =
    some (0xDEADBEEFDEADBEEF#64, 0x00800000#32, false) := by decide +kernel
theorem test_cNgtD_1 : after 0x4624103f 0x7FF8000000000000#64 0x3FF0000000000000#64 0x00000000#32 =
    some (0xDEADBEEFDEADBEEF#64, 0x00810040#32, false) := by decide +kernel

/-- The reply of the step that runs the word with the CPU's operand. -/
def replyAfter (word : Nat) (data fs : BitVec 64) (f : BitVec 32) : Option (Reply × Bool) :=
  match step (({ withOperands fs 0x123456789ABCDEF0#64 f with operand := data } : State).withFetchWord 32 word) with
  | .next t => some (t.reply, t.trap)
  | .fault _ => none
  | .refused _ => none

/-- `$f0` and FCR31 after the step that runs the word with the CPU's operand. -/
def stateAfter (word : Nat) (data : BitVec 64) (f : BitVec 32) : Option (BitVec 64 × BitVec 32) :=
  match step (({ withOperands 0#64 0#64 f with operand := data } : State).withFetchWord 32 word) with
  | .next t => some (t.x64 0, t.fcr31)
  | .fault _ => none
  | .refused _ => none

-- 95_test_vectors.md section 9 and R228 to R241
theorem test_mfc1 : replyAfter 0x44081000 0#64 0x00000000BF800000#64 0#32 =
    some (.gprWrite 8 0xFFFFFFFFBF800000#64, false) := by decide
theorem test_dmfc1 : replyAfter 0x44281000 0#64 0x00000000BF800000#64 0#32 =
    some (.gprWrite 8 0x00000000BF800000#64, false) := by decide
theorem test_cfc1_fcr31 : replyAfter 0x444BF800 0#64 0#64 0x0100300C#32 =
    some (.gprWrite 11 0x000000000100300C#64, false) := by decide
theorem test_cfc1_fcr0 : replyAfter 0x444B0000 0#64 0#64 0#32 = some (.gprWrite 11 0x0000000000000511#64, false) := by decide
theorem test_mtc1 : stateAfter 0x44880000 0x1111111140000000#64 0#32 = some (0xDEADBEEF40000000#64, 0#32) := by decide
theorem test_dmtc1 : stateAfter 0x44A80000 0x1111111140000000#64 0#32 = some (0x1111111140000000#64, 0#32) := by decide
theorem test_ctc1_fcr31 : stateAfter 0x44C8F800 0x00000002#64 0x01000000#32 = some (0xDEADBEEFDEADBEEF#64, 0x00000002#32) := by
  decide
theorem test_ctc1_no_trap : (match step (({ State.reset with operand := 0xFFFFFFFF#64 } : State).withFetchWord 32 0x44C8F800) with
    | .next t => some (t.fcr31, t.trap) | .fault _ => none | .refused _ => none) = some (0xFFFFFFFF#32, false) := by decide
theorem test_lwc1 : stateAfter 0xC4800004 0x1111111140000000#64 0#32 = some (0xDEADBEEF40000000#64, 0#32) := by decide
theorem test_ldc1 : stateAfter 0xD4800008 0x1111111140000000#64 0#32 = some (0x1111111140000000#64, 0#32) := by decide
theorem test_swc1 : replyAfter 0xE482FFFC 0#64 0x00000000BF800000#64 0#32 =
    some (.storeWord 4 0xFFFFFFFFFFFFFFFC#64 0xBF800000#32, false) := by decide
theorem test_sdc1 : replyAfter 0xF4820008 0#64 0x00000000BF800000#64 0#32 =
    some (.storeDouble 4 0x0000000000000008#64 0x00000000BF800000#64, false) := by decide
theorem test_bc1f : replyAfter 0x45000002 0#64 0#64 0#32 = some (.branch true false 8#64, false) := by decide
theorem test_bc1t : replyAfter 0x4501FFFF 0#64 0#64 0x00800000#32 =
    some (.branch true false 0xFFFFFFFFFFFFFFFC#64, false) := by decide
theorem test_bc1fl_not_taken : replyAfter 0x45020002 0#64 0#64 0x00800000#32 = some (.branch false true 8#64, false) := by
  decide
theorem test_bc1tl_not_taken : replyAfter 0x45030002 0#64 0#64 0#32 = some (.branch false true 8#64, false) := by decide

-- 95_test_vectors.md section 8, M4 and M7, and section 9, K6
theorem test_half_write64_odd : (match perform (.write64 5 0x0123456789ABCDEF#64)
      ({ State.reset with mode := .half } : State) with
    | .next t => some (t.slot 4, t.slot 5) | .fault _ => none | .refused _ => none) = some (0x0123456789ABCDEF#64, 0#64) := by
  decide
theorem test_half_add_to_upper_half : (match step ((({ State.reset with mode := .half } : State).setX64 0
      0x400000003F800000#64).withFetchWord 32 0x460100C0) with
    | .next t => some (t.slot 2, t.fcr31) | .fault _ => none | .refused _ => none) = some (0x4040000000000000#64, 0#32) := by
  decide +kernel
theorem test_refused_control_register : (match perform (.ctrlRead 1) State.reset with
    | .next _ => none | .fault _ => none | .refused r => some r) = some (.noControlRegister 1) := by decide
theorem test_withFetchWord_is_next_request : (State.reset.withFetchWord 32 0x46041000).requests = [.command 0x46041000#32 0#64] := by
  decide

/-! ### Witnesses: every statement's hypotheses are met by a concrete state and operands -/

theorem witness_EncodeDecode : decode 0x46041000#32 = .ok (.addS 0 2 4) := by decide

/-- The reset state with these requests issued. -/
def issued (r : List Request) : State := { State.reset with requests := r }

theorem witness_StepRunsDecoded : (issued [.command 0x46041000#32 7#64]).requests = .command 0x46041000#32 7#64 :: [] ∧
    decode 0x46041000#32 = .ok (.addS 0 2 4) := by decide
theorem witness_UndecodableWordsRefused_reserved :
    (issued [.command 0x46041010#32 0#64]).requests = .command 0x46041010#32 0#64 :: [] ∧
    decode 0x46041010#32 = .error .reserved := by decide
theorem witness_UndecodableWordsRefused_notCop1 :
    (issued [.command 0#32 0#64]).requests = .command 0#32 0#64 :: [] ∧ decode 0#32 = .error .notCop1 := by decide
theorem witness_ResetSetsTheWholeState : (issued [.reset, .read32 1]).requests = .reset :: [.read32 1] := by decide
theorem witness_ToggleKeepsStoredBits : (issued [.setAddressingMode false]).requests = .setAddressingMode false :: [] := by
  decide
theorem witness_OnlyResetAndToggle_fcr0 : ∃ t, step { State.creation with requests := [.reset] } = .next t ∧
    t.fcr0 ≠ State.creation.fcr0 := ⟨_, rfl, by decide⟩
theorem witness_OnlyResetAndToggle_mode : ∃ t, step (issued [.setAddressingMode false]) = .next t ∧
    t.mode ≠ (issued [.setAddressingMode false]).mode := ⟨_, rfl, by decide⟩
theorem witness_StepKeepsInv : (issued [.ctrlWrite 31 0xFFFFFFFF#32]).Inv ∧
    ∃ t, step (issued [.ctrlWrite 31 0xFFFFFFFF#32]) = .next t := ⟨⟨by decide, by decide⟩, _, rfl⟩
theorem witness_StepTakesTheOldestRequest : ∃ t, step (issued []) = .next t ∧ (issued []).requests = [] := ⟨_, rfl, rfl⟩

theorem witness_ViewWrites_lower : upperHalf .half 2 = false ∧ upperHalf .full 31 = false ∧ (3 : RegIx) ≠ slotOf .half 2 := by
  decide
theorem witness_ViewWrites_upper : upperHalf .half 31 = true ∧ (31 : RegIx) ≠ slotOf .half 31 := by decide
theorem witness_ViewMapping_full : State.reset.mode = .full ∧ (31 : RegIx) ≠ 30 := by decide
theorem witness_ViewMapping_half : ({ State.reset with mode := .half } : State).mode = .half ∧ (30 : RegIx).val % 2 = 0 ∧
    ((31 : RegIx) = 30 ∨ (31 : RegIx).val = (30 : RegIx).val + 1) ∧ ((30 : RegIx) = 30 ∨ (30 : RegIx).val = (30 : RegIx).val + 1) ∧
    (31 : RegIx).val % 2 = 1 := by decide

/-- Two half-mode states that differ in the odd slot 31 only. -/
theorem witness_HalfModeIsolatesOddSlots :
    let s : State := { State.reset with mode := .half }
    let s' : State := s.setSlot 31 5#64
    s.mode = .half ∧ SameButOddSlots s s' ∧ s ≠ s' ∧ ∃ t, exec (.movD 1 3) s = .next t :=
  ⟨rfl, ⟨by decide, rfl, rfl, rfl, rfl, rfl, rfl, rfl⟩, by decide, _, rfl⟩

theorem witness_TablePrecedence : addTable .normal .quietNaN ≠ .unimplemented ∧ divTable .normal .negZero = .divideByZero ∧
    sqrtTable .negInfinity = .invalid := by decide
theorem witness_NativeIsNeverNaN :
    let a := classify (w := .w64) 0x7FEFFFFFFFFFFFFF#64
    let b := classify (w := .w64) 0x0010000000000000#64
    BinaryOp.div.table a b ≠ .unimplemented ∧ BinaryOp.div.table a b ≠ .invalid ∧ BinaryOp.div.table a b ≠ .divideByZero ∧
    unaryCase (w := .w32) .sqrt 0x80000000#32 ≠ .unimplemented ∧ unaryCase (w := .w32) .sqrt 0x80000000#32 ≠ .invalid := by
  decide +kernel
theorem witness_RoundingFunctions : 0 < 2 ∧ (0 : Int) ≤ signedInt false 5 ∧ signedInt true 5 ≤ 0 ∧
    2 * (signedInt false 5 - roundQuot .nearestEven false 5 2 * 2) = 2 ∧
    2 * (signedInt true 5 - roundQuot .nearestEven true 5 2 * 2) = -2 := by decide
theorem witness_RoundOfValIsIdentity : (classify (w := .w32) 0x7F7FFFFF#32).isNaN = false ∧
    (classify (w := .w64) 0x8000000000000001#64).isNaN = false ∧ (classify (w := .w64) 0xFFF0000000000000#64).isNaN = false := by
  decide +kernel
theorem witness_RoundingIsNearestEven : 0 < 3 ∧ (2 ^ 24 : Nat) ≤ 2 ^ 24 + 1 ∧
    overflowBound .w32 ≤ |(Value.fin true (2 ^ 25 - 1) 103).toRat| ∧
    |(Value.fin false (2 ^ 25 - 2) 103).toRat| < overflowBound .w32 := by
  refine ⟨by decide, by decide, ?_, ?_⟩ <;> norm_num [overflowBound, Value.toRat, signedInt]
/-- The bound itself is infinite, half a unit below it is the greatest finite number, a tie goes to the even one. -/
theorem test_round_boundaries : round .w32 (.fin true (2 ^ 25 - 1) 103) = 0xFF800000#32 ∧
    round .w32 (.fin false (2 ^ 26 - 3) 102) = 0x7F7FFFFF#32 ∧
    round .w32 (.fin false (2 ^ 24 + 1) 0) = 0x4B800000#32 ∧ round .w32 (.fin false (2 ^ 24 + 3) 0) = 0x4B800002#32 ∧
    round .w32 (.fin false 1 (-150)) = 0#32 ∧ round .w32 (.fin true 3 (-151)) = 0x80000001#32 := by decide +kernel
/-- 1 and −1 (an exact zero sum), 3 and 2 (an exact root of neither), and −0. -/
theorem witness_NativeIsTheRoundedExactResult :
    (Value.fin false 1 0).toRat + (Value.fin true 1 0).toRat = 0 ∧
    (Value.fin false 1 0).toRat - (Value.fin false 2 (-1)).toRat = 0 ∧ (Value.fin true 3 0).toRat ≠ 0 ∧
    (0 : ℚ) < (Value.fin false 2 0).toRat ∧ (Value.fin true 0 5).toRat = 0 ∧
    isFinitePattern (w := .w64) 0x7FEFFFFFFFFFFFFF#64 = true := by
  refine ⟨?_, ?_, ?_, ?_, ?_, by decide +kernel⟩ <;> norm_num [Value.toRat, signedInt]
theorem witness_ClearCauseClearsOnlyCause : (12 < 32 ∧ 12 ≤ 12 ∧ 12 ≤ 17) ∧ (17 < 32 ∧ 17 ≤ 17) ∧ 11 < 32 ∧ 18 < 32 := by decide

theorem witness_DispatchProtocol_ineligible :
    let x : ExcSet := ⟨true, true, false, false, false⟩
    x.u = true ∧ (!(enables 0#32).u && !(enables 0#32).i && flushSubnormals 0#32) = false := by decide
theorem witness_DispatchProtocol_trap :
    let x : ExcSet := ⟨true, false, true, false, false⟩
    (x.u = true → (!(enables 0x200#32).u && !(enables 0x200#32).i && flushSubnormals 0x200#32) = true) ∧
    (x.i && (enables 0x200#32).i || x.u && (enables 0x200#32).u || x.o && (enables 0x200#32).o ||
      x.z && (enables 0x200#32).z || x.v && (enables 0x200#32).v) = true := by decide
theorem witness_DispatchProtocol_flag :
    let x : ExcSet := ⟨true, true, false, false, false⟩
    let f : BitVec 32 := 0x01000E00#32
    x ≠ ⟨false, false, false, false, false⟩ ∧ (x.u = true → (!(enables f).u && !(enables f).i && flushSubnormals f) = true) ∧
    (x.i && (enables f).i || x.u && (enables f).u || x.o && (enables f).o || x.z && (enables f).z || x.v && (enables f).v) = false := by
  decide
theorem witness_DispatchProtocol_underflow :
    (binaryBits .specDefault .mul (w := .w32) 0x00800000#32 0x3F000000#32 0x00400000#32 0x3800000000000000#64).u = true := by
  decide +kernel

/-- MUL.S of the least Normal by one half: an underflow; `$f2` and `$f4` as given. -/
def tiny (f : BitVec 32) : State := withOperands 0x00800000#64 0x3F000000#64 f
/-- ADD.S of the greatest finite number to itself: an overflow. -/
def huge (f : BitVec 32) : State := withOperands 0x7F7FFFFF#64 0x7F7FFFFF#64 f

theorem witness_TrapsArePrecise : ∃ t, exec (.addS 0 2 4) (huge 0x00000200#32) = .next t ∧ t.trap = true :=
  ⟨_, rfl, by decide +kernel⟩
theorem witness_TrapExactlyWhenCauseEnabled : Instr.isOperation (.mulS 0 2 4) = true ∧
    ∃ t, exec (.mulS 0 2 4) (tiny 0#32) = .next t ∧ t.trap = true := ⟨rfl, _, rfl, by decide +kernel⟩
theorem witness_FlagsAreSticky_kept : ∃ t, exec (.addS 0 2 4) (huge 0x00000044#32) = .next t ∧
    (huge 0x00000044#32).fcr31.getLsbD 2 = true ∧ (huge 0x00000044#32).fcr31.getLsbD 6 = true ∧ t.trap = false :=
  ⟨_, rfl, by decide +kernel⟩
theorem witness_FlagsAreSticky_trap : ∃ t, exec (.addS 0 2 4) (huge 0x00000200#32) = .next t ∧ t.trap = true :=
  ⟨_, rfl, by decide +kernel⟩
theorem witness_OperationsKeepControlFields : Instr.isOperation (.cLtS 2 4) = true ∧
    ∃ t, exec (.cLtS 2 4) (huge 0xFFFFFFFF#32) = .next t := ⟨rfl, _, rfl⟩
theorem witness_CauseIsPerOperation : Instr.isOperation (.floorLD 0 2) = true := by decide
theorem witness_OverflowComesWithInexact : ∃ t, exec (.addS 0 2 4) (huge 0#32) = .next t ∧ (causes t.fcr31).o = true :=
  ⟨_, rfl, by decide +kernel⟩
theorem witness_UnderflowOnlyOnTheFlagPath : ∃ t, exec (.mulS 0 2 4) (tiny 0x01000000#32) = .next t ∧
    (causes t.fcr31).u = true := ⟨_, rfl, by decide +kernel⟩
theorem witness_OperationsDependOnlyOnRegistersModeAndFcr31 :
    let s := huge 0#32
    let s' : State := { s with requests := [.reset], operand := 5#64, trap := true, fcr0 := 9#32 }
    Instr.isOperation (.addS 0 2 4) = true ∧ s.p = s'.p ∧ s.mode = s'.mode ∧ s.fcr31 = s'.fcr31 ∧ s ≠ s' :=
  ⟨rfl, rfl, rfl, rfl, by decide +kernel⟩
theorem witness_WellFormedInstructionsComplete :
    WellFormed (.cfc1 8 31) ∧ ¬ WellFormed (.cfc1 8 30) ∧ ¬ WellFormed (.ctc1 8 1) := by decide
theorem witness_InstructionsWriteOnlyTheirDestination :
    (∃ t, exec (.mtc1 8 3) ({ State.reset with mode := .half } : State) = .next t) ∧ Instr.dest (.mtc1 8 3) = .reg .w32 3 ∧
    upperHalf .half 3 = true ∧ upperHalf .half 2 = false ∧ (3 : RegIx) ≠ slotOf .half 3 := ⟨⟨_, rfl⟩, by decide⟩
theorem witness_Fcr31Frame :
    (∃ t, exec (.addS 0 2 4) State.reset = .next t) ∧ Instr.dest (.addS 0 2 4) ≠ .cond ∧ Instr.dest (.cLtS 2 4) = .cond ∧
    Instr.isOperation (.swc1 0 0#16 4) = false ∧ Instr.dest (.swc1 0 0#16 4) ≠ .control := ⟨⟨_, rfl⟩, by decide⟩

theorem witness_ArithmeticUnimplemented : classify (w := .w32) ((withOperands 0x7F800001#64 0#64 0#32).view .w32 2) = .signalingNaN ∧
    classify (w := .w64) ((withOperands 1#64 0#64 0#32).view .w64 2) = .denormal := by decide +kernel
theorem witness_ArithmeticInvalid_quietNaN : classify (w := .w32) ((withOperands 0x7FC00000#64 0#64 0#32).view .w32 2) = .quietNaN ∧
    classify (w := .w32) ((withOperands 0x7FC00000#64 0#64 0#32).view .w32 4) = .posZero := by decide +kernel
/-- +∞ in `$f2`, −∞ or +0 in `$f4`: the pairs of ADD, SUB, MUL and DIV. -/
theorem witness_ArithmeticInvalid_pairs :
    let s := withOperands 0x7F800000#64 0xFF800000#64 0x800#32
    let z := withOperands 0x7F800000#64 0#64 0#32
    (classify (s.view .w32 2)).isInfinity = true ∧ (classify (s.view .w32 4)).isInfinity = true ∧
    classify (s.view .w32 2) ≠ classify (s.view .w32 4) ∧ classify (s.view .w32 2) = classify (s.view .w32 2) ∧
    (classify (z.view .w32 4)).isZero = true ∧ (enables s.fcr31).v = true := by decide +kernel
theorem witness_ArithmeticInvalid_root :
    classify ((withOperands 0xFF800000#64 0#64 0#32).view .w32 2) = .negInfinity ∧
    classify ((withOperands 0x80800000#64 0#64 0#32).view .w32 2) = .normal ∧
    ((withOperands 0x80800000#64 0#64 0#32).view .w32 2).getLsbD 31 = true := by decide +kernel
theorem witness_DivideByZero :
    let s := withOperands 0x3F800000#64 0x80000000#64 0x400#32
    classify (s.view .w32 2) = .normal ∧ (classify (s.view .w32 4)).isZero = true ∧ (enables s.fcr31).z = true := by
  decide +kernel

/-- 1 + 2 is exact: nothing is raised, so it completes with every bit enabled. -/
theorem witness_BinaryArithmeticCompletes_exact :
    let s := withOperands 0x3FF0000000000000#64 0x4000000000000000#64 0xF80#32
    let a := s.view .w64 2; let b := s.view .w64 4
    let sb := store .w64 (BinaryOp.add.native (val a) (val b))
    BinaryOp.add.table (classify a) (classify b) ∉ [OperationCase.unimplemented, .invalid, .divideByZero] ∧
    (classify sb).isInfinity = false ∧ ¬ (classify sb = .denormal ∨ (classify sb).isZero = true) := by decide +kernel
/-- An overflow, with Enable.O alone set and with no enable set. -/
theorem witness_BinaryArithmeticCompletes_overflow :
    let a := (huge 0x200#32).view .w32 2
    BinaryOp.add.table (classify a) (classify a) ∉ [OperationCase.unimplemented, .invalid, .divideByZero] ∧
    (classify (store .w32 (BinaryOp.add.native (val a) (val a)))).isInfinity = true ∧ (classify a).isInfinity = false ∧
    (enables (huge 0x200#32).fcr31).o = true ∧ (enables (huge 0x200#32).fcr31).i = false ∧
    enables (huge 0#32).fcr31 = .empty := by decide +kernel
/-- 1 / 3 is inexact, with Enable.I set; 1.0 + 2^-25 has the pattern of 1.0. -/
theorem witness_BinaryArithmeticCompletes_inexact :
    let s := withOperands 0x3F800000#64 0x40400000#64 0x80#32
    let nat := BinaryOp.div.native (val (s.view .w32 2)) (val (s.view .w32 4))
    let u := withOperands 0x3F800000#64 0x33000000#64 0x80#32
    (val (store .w32 nat)).numEq (val nat) = false ∧ (enables s.fcr31).i = true ∧
    store .w32 (BinaryOp.add.native (val (u.view .w32 2)) (val (u.view .w32 4))) = u.view .w32 2 ∧
    (classify (u.view .w32 4)).isZero = false := by decide +kernel
theorem witness_BinaryArithmeticCompletes_zero :
    let s := withOperands 0#64 0x80000000#64 0#32
    let nat := BinaryOp.mul.native (val (s.view .w32 2)) (val (s.view .w32 4))
    (classify (store .w32 nat)).isZero = true ∧ (classify nat).isZero = true := by decide +kernel
theorem witness_UnderflowSubstitution :
    let a := (tiny 0#32).view .w32 2; let b := (tiny 0#32).view .w32 4
    let nat := BinaryOp.mul.native (val a) (val b)
    BinaryOp.mul.table (classify a) (classify b) ∉ [OperationCase.unimplemented, .invalid, .divideByZero] ∧
    classify (store .w32 nat) = .denormal ∧ (classify nat).isZero = false ∧
    (flushSubnormals (tiny 0x01000000#32).fcr31 = true ∧ (enables (tiny 0x01000000#32).fcr31).u = false ∧
      (enables (tiny 0x01000000#32).fcr31).i = false) := by decide +kernel
theorem witness_DoubleArithmeticNeverInexactAlone :
    ∃ t, exec (.addD 0 2 2) (withOperands 0x7FEFFFFFFFFFFFFF#64 0#64 0#32) = .next t ∧ (causes t.fcr31).i = true :=
  ⟨_, rfl, by decide +kernel⟩
theorem witness_SubSelfIsPosZero : classify ((withOperands 0x80000000#64 0#64 0#32).view .w32 2) = .negZero ∧
    classify ((withOperands 0x7FEFFFFFFFFFFFFF#64 0#64 0#32).view .w64 2) = .normal := by decide +kernel
theorem witness_AddPosZeroIsIdentity : classify ((withOperands 0x00800000#64 0#64 0#32).view .w32 2) = .normal ∧
    classify ((withOperands 0x00800000#64 0#64 0#32).view .w32 4) = .posZero := by decide +kernel
/-- The root of 2 is inexact: with Enable.I it traps, with every other enable it completes. -/
theorem witness_SqrtCompletes :
    let s := withOperands 0x40000000#64 0#64 0x80#32
    let nat := sqrtNative (val (s.view .w32 2))
    classify (s.view .w32 2) = .normal ∧ (s.view .w32 2).getLsbD 31 = false ∧ (classify (s.view .w32 4)).isZero = true ∧
    (classify (store .w32 nat)).isInfinity = false ∧ (val (store .w32 nat)).numEq (val nat) = false ∧
    (enables s.fcr31).i = true ∧ (enables 0xF00#32).i = false := by decide +kernel
theorem witness_AbsAndNeg : classify ((withOperands 0x807FFFFF#64 0#64 0#32).view .w32 2) = .denormal ∧
    classify ((withOperands 0x80800000#64 0#64 0#32).view .w32 2) = .normal ∧
    (classify ((withOperands 0xFFF0000000000000#64 0#64 0#32).view .w64 2)).isInfinity = true := by decide +kernel
theorem witness_WideningIsExact_traps : classify ((withOperands 1#64 0x7F800001#64 0#32).view .w32 2) = .denormal ∧
    classify ((withOperands 1#64 0x7F800001#64 0#32).view .w32 4) = .signalingNaN := by decide +kernel
theorem witness_WideningIsExact_values : classify ((withOperands 0x7FC00000#64 0xFF800000#64 0#32).view .w32 2) = .quietNaN ∧
    classify ((withOperands 0x7FC00000#64 0xFF800000#64 0#32).view .w32 4) = .negInfinity ∧
    classify ((withOperands 0x7F800000#64 0x00800000#64 0#32).view .w32 2) = .posInfinity ∧
    classify ((withOperands 0x7F800000#64 0x00800000#64 0#32).view .w32 4) = .normal := by decide +kernel
theorem witness_Narrowing_traps : classify ((withOperands 1#64 0x7FF0000000000001#64 0#32).view .w64 2) = .denormal ∧
    classify ((withOperands 1#64 0x7FF0000000000001#64 0#32).view .w64 4) = .signalingNaN := by decide +kernel
theorem witness_Narrowing_values :
    let s := withOperands 0x7FF8000000000000#64 0x7FEFFFFFFFFFFFFF#64 0#32
    let t := withOperands 0x7FF0000000000000#64 0xFFF0000000000000#64 0x200#32
    classify (s.view .w64 2) = .quietNaN ∧ classify (s.view .w64 4) = .normal ∧ classify (t.view .w64 2) = .posInfinity ∧
    classify (t.view .w64 4) = .negInfinity ∧ (enables s.fcr31).i = false ∧ (enables s.fcr31).o = false ∧
    (enables t.fcr31).o = true ∧ (enables t.fcr31).i = false ∧ (classify (w := .w32) (round .w32 (val (s.view .w64 4)))).isInfinity = true := by
  decide +kernel
/-- 1.0 narrows exactly, whatever is enabled; 0.1 does not, with Enable.I set. -/
theorem witness_Narrowing_exact :
    let s := withOperands 0x3FF0000000000000#64 0x3FB999999999999A#64 0x80#32
    classify (s.view .w64 2) = .normal ∧ (val (w := .w32) (round .w32 (val (s.view .w64 2)))).numEq (val (s.view .w64 2)) = true ∧
    classify (s.view .w64 4) = .normal ∧ (val (w := .w32) (round .w32 (val (s.view .w64 4)))).numEq (val (s.view .w64 4)) = false ∧
    (enables s.fcr31).i = true := by decide +kernel
theorem witness_FloatToIntegerUnimplemented :
    (classify ((withOperands 0x7F800000#64 0x7FC00000#64 0#32).view .w32 2)).isInfinity = true ∧
    (classify ((withOperands 0x7F800000#64 0x7FC00000#64 0#32).view .w32 4)).isNaN = true ∧
    classify ((withOperands 1#64 0#64 0#32).view .w32 2) = .denormal ∧
    val ((withOperands 0x5B800000#64 0#64 0#32).view .w32 2) = .fin false (2 ^ 23) 33 ∧
    2 ^ 56 * 2 ^ (-(33 : Int)).toNat ≤ 2 ^ 23 * 2 ^ (33 : Int).toNat := by decide +kernel
/-- 2.5, whose rounding is inexact, and the greatest binary32 number below 2^56, which is an integer. -/
theorem witness_FloatToIntegerCompletes :
    let s := withOperands 0x40200000#64 0x5B7FFFFF#64 0x80#32
    classify (s.view .w32 2) = .normal ∧ val (s.view .w32 2) = .fin false 0xA00000 (-22) ∧
    ¬ (roundQuot .nearestEven false 0xA00000 (2 ^ 22) * 2 ^ 22 = signedInt false 0xA00000) ∧ (enables s.fcr31).i = true ∧ (enables 0#32).i = false ∧
    classify (s.view .w32 4) = .normal ∧ val (s.view .w32 4) = .fin false 0xFFFFFF 32 ∧
    0xFFFFFF * 2 ^ 32 < 2 ^ 56 ∧ roundQuot .floor false (0xFFFFFF * 2 ^ 32) 1 * 1 = signedInt false (0xFFFFFF * 2 ^ 32) := by
  decide +kernel
/-- 2^31 does not fit a word; the number one below −2^31 + 1 as binary64 does. -/
theorem witness_OutOfRangeParameter :
    let s := withOperands 0x41E0000000000000#64 0xC1E0000000000000#64 0#32
    classify (s.view .w64 2) = .normal ∧ ¬ (-(2 ^ 31 : Int) ≤ roundInt .truncate (val (s.view .w64 2)) ∧
      roundInt .truncate (val (s.view .w64 2)) < 2 ^ 31) ∧ classify (s.view .w64 4) = .normal ∧
    (-(2 ^ 31 : Int) ≤ roundInt .truncate (val (s.view .w64 4)) ∧ roundInt .truncate (val (s.view .w64 4)) < 2 ^ 31) ∧
    (enables s.fcr31).i = false := by decide +kernel
/-- Ordered operands; a QuietNaN with a quiet and with a signalling predicate; Enable.V clear and set. -/
theorem witness_Comparisons :
    let s := withOperands 0x3F800000#64 0x7FC00000#64 0x800#32
    ((classify (s.view .w32 2)).isNaN || (classify (s.view .w32 2)).isNaN) = false ∧
    ((classify (s.view .w32 2)).isNaN || (classify (s.view .w32 4)).isNaN) = true ∧
    (Cond.un.signals || classify (s.view .w32 2) == .signalingNaN || classify (s.view .w32 4) == .signalingNaN) = false ∧
    Cond.lt.signals = true ∧ (enables s.fcr31).v = true ∧ (enables 0#32).v = false := by decide +kernel
theorem witness_RegisterPorts : (issued [.read32 31]).requests = .read32 31 :: [] ∧
    (issued [.write32 0 7#32]).requests = .write32 0 7#32 :: [] ∧ (issued [.read64 1]).requests = .read64 1 :: [] ∧
    (issued [.write64 1 9#64]).requests = .write64 1 9#64 :: [] := by decide
theorem witness_ControlPorts : (issued [.ctrlRead 31]).requests = .ctrlRead 31 :: [] ∧
    (issued [.ctrlWrite 0 7#32]).requests = .ctrlWrite 0 7#32 :: [] ∧ (issued [.ctrlWrite 30 7#32]).requests = .ctrlWrite 30 7#32 :: [] := by
  decide

end Sys2Proof.Tests
end

section
/-! Rounding to nearest even as a map (R15): it is monotone, and it gives every representable magnitude back. Both
follow from the midpoints around a rounded magnitude (`roundMag_between`). -/

namespace Sys2Proof.Machine

section Rounding
variable {w : Width}

/-- A larger real lies between the midpoints of no smaller magnitude; a real on a midpoint takes its even neighbour. -/
theorem Between.mono {x y : ℝ} {n k : Nat} (hn : Between w x n) (hk : Between w y k) (hxy : x ≤ y) : n ≤ k := by
  by_contra hc
  obtain ⟨j, rfl⟩ : ∃ j, n = j + 1 := ⟨n - 1, by omega⟩
  have hki : k < infMag w := by have := hn.le_infMag; omega
  obtain ⟨hlow, htie⟩ := hn.lower j rfl
  obtain ⟨hup, htie'⟩ := hk.upper hki
  have hkj : (midRat w k : ℝ) ≤ (midRat w j : ℝ) := by
    exact_mod_cast midRat_strictMono.monotone (show k ≤ j by omega)
  have heq : (midRat w k : ℝ) = (midRat w j : ℝ) := by linarith
  obtain rfl : k = j := midRat_strictMono.injective (by exact_mod_cast heq)
  have hx : x = (midRat w k : ℝ) := by linarith
  have hy : y = (midRat w k : ℝ) := by linarith
  have := htie hx
  have := htie' hy
  omega

theorem Between.unique {x : ℝ} {n k : Nat} (hn : Between w x n) (hk : Between w x k) : n = k :=
  le_antisymm (hn.mono hk le_rfl) (hk.mono hn le_rfl)

/-- A representable magnitude lies strictly between its own midpoints. -/
theorem between_magRat {n : Nat} (h : n < infMag w) : Between w (magRat w n : ℝ) n := by
  have above : magRat w n < midRat w n := by
    have := magUlp_pos (w := w) n
    rw [midRat]; linarith
  have below : ∀ k, n = k + 1 → midRat w k < magRat w n := by
    rintro k rfl
    have := magUlp_pos (w := w) k
    rw [midRat, magRat_succ]; linarith
  refine ⟨by exact_mod_cast magRat_nonneg n, h.le, fun _ => ⟨by exact_mod_cast above.le, fun he => ?_⟩,
    fun k hk => ⟨by exact_mod_cast (below k hk).le, fun he => ?_⟩⟩
  · exact absurd (by exact_mod_cast he) above.ne
  · exact absurd (by exact_mod_cast he) (below k hk).ne'

/-- The value of a pattern below infinity has its sign and the number of its magnitude. -/
theorem val_signed_fin (neg : Bool) {n : Nat} (h : n < infMag w) :
    ∃ m e, val (signed w neg n) = .fin neg m e ∧ (m : ℚ) * 2 ^ e = magRat w n := by
  rw [val_signed neg h, magRat]
  split
  · exact ⟨_, _, rfl, rfl⟩
  · exact ⟨_, _, rfl, rfl⟩

/-- A significand and exponent that denote a representable magnitude round to it. -/
theorem roundMag_of_eq_magRat {m n : Nat} {e : Int} (h : n < infMag w) (hv : (m : ℚ) * 2 ^ e = magRat w n) :
    roundMag w m 1 e = n := by
  have hb := roundMag_between w m (den := 1) one_pos e
  rw [Nat.cast_one, div_one, hv] at hb
  exact hb.unique (between_magRat h)

theorem round_val_signed (neg : Bool) {n : Nat} (h : n < infMag w) :
    round w (val (signed w neg n)) = signed w neg n := by
  obtain ⟨m, e, hval, hv⟩ := val_signed_fin neg h
  rw [hval, round, roundReal, roundMag_of_eq_magRat h hv]

/-- A larger numerator rounds to no smaller magnitude. -/
theorem roundMag_mono (w : Width) {num num' den : Nat} (e : Int) (hd : 0 < den) (h : num ≤ num') :
    roundMag w num den e ≤ roundMag w num' den e := by
  have hle : (num : ℚ) / den * 2 ^ e ≤ (num' : ℚ) / den * 2 ^ e := by gcongr
  exact (roundMag_between w num hd e).mono (roundMag_between w num' hd e) (by exact_mod_cast hle)

theorem signBit_roundReal (w : Width) (neg : Bool) (num den : Nat) (e : Int) :
    signBit (roundReal w neg num den e) = neg :=
  signBit_signed neg (lt_of_le_of_lt (roundMag_le_infMag w num den e) (infMag_lt w))

/-- `roundReal` is roundTiesToEven of the signed real (R15). -/
theorem isRne_roundReal (w : Width) (neg : Bool) (num : Nat) {den : Nat} (e : Int) (hd : 0 < den) :
    IsRne w (((if neg then -1 else 1) * ((num : ℚ) / den * 2 ^ e) : ℚ) : ℝ) (roundReal w neg num den e) := by
  have hr := (roundMag_between w num hd e).isRne neg
  cases neg
  · rw [if_neg Bool.false_ne_true, one_mul]
    exact hr
  · rw [if_pos rfl, neg_one_mul, Rat.cast_neg]
    exact hr

/-- The rounding of a finite value is roundTiesToEven of the number it denotes (R15). -/
theorem isRne_round_fin (w : Width) (neg : Bool) (m : Nat) (e : Int) :
    IsRne w ((Value.fin neg m e).toRat : ℝ) (round w (.fin neg m e)) := by
  have hr := isRne_roundReal w neg m e one_pos
  rw [Nat.cast_one, div_one, ← toRat_fin] at hr
  exact hr

end Rounding

/-- Settles O20: an infinity rounds to itself, and the number of a magnitude below infinity lies between that
magnitude's own midpoints. -/
theorem roundOfValIsIdentity : Obligations.RoundOfValIsIdentity := by
  intro w b hb
  rcases eq_signed_of_not_nan b hb with h | ⟨n, hn, h⟩
  · rw [h, val_signed_infMag, round]
  · rw [h, round_val_signed _ hn]

/-- Settles O21, from the midpoints around a rounded magnitude. -/
theorem roundingIsNearestEven : Obligations.RoundingIsNearestEven := by
  refine ⟨fun w neg num den e hd => ⟨isRne_roundReal w neg num e hd, signBit_roundReal w neg num den e⟩,
    fun w neg m e => ⟨isRne_round_fin w neg m e, signBit_roundReal w neg m 1 e⟩, fun neg => ?_,
    fun w num num' den e hd h => ⟨roundMag_mono w e hd h, roundMag_le_infMag w num' den e⟩⟩
  cases neg
  · exact ⟨by decide, by decide⟩
  · exact ⟨by decide, by decide⟩

end Sys2Proof.Machine
end

section
/-! What the operations read (R10): two states that agree on the registers, the addressing mode, FCR31 and the trap
output are taken to two such states by every operation. -/

namespace Sys2Proof.Machine

/-- The states agree on the three pieces an operation may read (R10). -/
structure SameInputs (s t : State) : Prop where
  p : s.p = t.p
  mode : s.mode = t.mode
  fcr31 : s.fcr31 = t.fcr31

/-- The states agree on what an operation may read and on the trap output. -/
structure Agree (s t : State) : Prop extends SameInputs s t where
  trap : s.trap = t.trap

theorem SameInputs.view {s t : State} (h : SameInputs s t) (w : Width) (i : RegIx) : s.view w i = t.view w i :=
  State.view_congr h.p h.mode w i

/-- Every operation starts with the outputs quiet, so an earlier trap is not read (R9). -/
theorem SameInputs.begin {s t : State} (h : SameInputs s t) : Agree s.begin t.begin :=
  ⟨⟨h.p, h.mode, congrArg clearCauseBits h.fcr31⟩, rfl⟩

namespace Agree
variable {s t : State}

theorem setView (h : Agree s t) (w : Width) (i : RegIx) (v : Pattern w) :
    Agree (s.setView w i v) (t.setView w i v) :=
  ⟨⟨State.setView_p_congr h.p h.mode w i v, by simp [h.mode], by simp [h.fcr31]⟩, by simp [h.trap]⟩

theorem setFcr31 (h : Agree s t) (f : BitVec 32) : Agree (s.setFcr31 f) (t.setFcr31 f) :=
  ⟨⟨h.p, h.mode, rfl⟩, h.trap⟩

theorem signalFpe (h : Agree s t) : Agree s.signalFpe t.signalFpe := ⟨⟨h.p, h.mode, h.fcr31⟩, rfl⟩

theorem setC (h : Agree s t) (b : Bool) : Agree (s.setC b) (t.setC b) := by
  rw [State.setC, State.setC, h.fcr31]
  exact h.setFcr31 _

theorem raiseUnimplemented (h : Agree s t) : Agree (raiseUnimplemented s) (raiseUnimplemented t) := by
  rw [Machine.raiseUnimplemented, Machine.raiseUnimplemented, h.fcr31]
  exact (h.setFcr31 _).signalFpe

theorem trapState (h : Agree s t) (bits : ExcSet) : Agree (trapState bits s) (trapState bits t) := by
  rw [Machine.trapState, Machine.trapState, h.fcr31]
  exact (h.setFcr31 _).signalFpe

theorem flagState (h : Agree s t) (bits : ExcSet) : Agree (flagState bits s) (flagState bits t) := by
  rw [Machine.flagState, Machine.flagState, h.fcr31]
  exact h.setFcr31 _

/-- The dispatcher chooses its path from FCR31 and the bits only (R253). -/
theorem dispatchThen (h : Agree s t) (bits : ExcSet) {commit : State → State}
    (hc : ∀ {u v : State}, Agree u v → Agree (commit u) (commit v)) :
    Agree (dispatchThen bits commit s) (dispatchThen bits commit t) := by
  rw [dispatchThen_eq, dispatchThen_eq, h.fcr31]
  cases dispatchPath t.fcr31 bits with
  | nothing => exact hc h
  | unimplemented => exact h.raiseUnimplemented
  | trap => exact h.trapState bits
  | flag => exact hc (h.flagState bits)

theorem dispatch_setView (h : Agree s t) (bits : ExcSet) (w : Width) (fd : RegIx) (v : Pattern w) :
    Agree (Machine.dispatchThen bits (fun u => u.setView w fd v) s)
      (Machine.dispatchThen bits (fun u => u.setView w fd v) t) :=
  h.dispatchThen bits fun hu => hu.setView w fd v

theorem binaryEvaluate (h : Agree s t) (q : Config.Params) (op : BinaryOp) (w : Width) (fd : RegIx)
    (a b : Pattern w) : Agree (binaryEvaluate q op w fd a b s) (binaryEvaluate q op w fd a b t) := by
  simp only [Machine.binaryEvaluate, h.fcr31]
  exact h.dispatch_setView _ w fd _

end Agree

/-! ### The engines -/

namespace SameInputs
variable {s t : State} (h : SameInputs s t)
include h

theorem binaryArith (q : Config.Params) (op : BinaryOp) (w : Width) (fd fs ft : RegIx) :
    Agree (binaryArith q op w fd fs ft s) (binaryArith q op w fd fs ft t) := by
  simp only [Machine.binaryArith, h.view]
  split
  · exact h.begin.raiseUnimplemented
  · exact h.begin.dispatch_setView _ w fd _
  · exact h.begin.dispatch_setView _ w fd _
  all_goals exact h.begin.binaryEvaluate ..

theorem unaryArith (op : UnaryOp) (w : Width) (fd fs : RegIx) :
    Agree (unaryArith op w fd fs s) (unaryArith op w fd fs t) := by
  simp only [Machine.unaryArith, h.view]
  split
  · exact h.begin.raiseUnimplemented
  all_goals exact h.begin.dispatch_setView _ w fd _

theorem move (w : Width) (fd fs : RegIx) : Agree (move w fd fs s) (move w fd fs t) := by
  rw [Machine.move, Machine.move, h.view]
  exact h.begin.setView w fd _

theorem narrow (fd fs : RegIx) : Agree (narrow fd fs s) (narrow fd fs t) := by
  simp only [Machine.narrow, h.view]
  split
  case h_1 | h_2 => exact h.begin.raiseUnimplemented
  case h_4 | h_5 => exact h.begin.setView .w32 fd _
  all_goals exact h.begin.dispatch_setView _ .w32 fd _

theorem widen (fd fs : RegIx) : Agree (widen fd fs s) (widen fd fs t) := by
  simp only [Machine.widen, h.view]
  split
  case h_1 | h_2 => exact h.begin.raiseUnimplemented
  case h_3 => exact h.begin.dispatch_setView _ .w64 fd _
  all_goals exact h.begin.setView .w64 fd _

theorem intToFloat (src dst : Width) (fd fs : RegIx) :
    Agree (intToFloat src dst fd fs s) (intToFloat src dst fd fs t) := by
  rw [Machine.intToFloat, Machine.intToFloat, h.view]
  exact h.begin.setView dst fd _

theorem floatToInt (q : Config.Params) (w n : Width) (mode : RoundingMode) (fd fs : RegIx) :
    Agree (floatToInt q w n mode fd fs s) (floatToInt q w n mode fd fs t) := by
  simp only [Machine.floatToInt, h.view]
  split
  · exact h.begin.raiseUnimplemented
  · exact h.begin.dispatch_setView _ n fd _

/-- CVT rounds with FCR31.RM, which the states share (R149). -/
theorem floatToInt_rm (q : Config.Params) (w n : Width) (fd fs : RegIx) :
    Agree (Machine.floatToInt q w n (roundingMode s.fcr31) fd fs s)
      (Machine.floatToInt q w n (roundingMode t.fcr31) fd fs t) := by
  rw [← h.fcr31]
  exact h.floatToInt q w n _ fd fs

theorem compare (w : Width) (pred : Predicate) (fs ft : RegIx) :
    Agree (compare w pred fs ft s) (compare w pred fs ft t) := by
  simp only [Machine.compare, h.view]
  split
  · split
    · exact h.begin.dispatchThen _ fun hu => hu.setC _
    · exact h.begin.setC _
  · exact h.begin.setC _

/-- Every operation takes states that agree on what it may read to states that agree on what it leaves (R10). -/
theorem exec_agree {i : Instr} (ho : i.isOperation = true) :
    ∃ s' t', exec i s = .next s' ∧ exec i t = .next t' ∧ Agree s' t' := by
  cases i with
  | addS | addD | subS | subD | mulS | mulD | divS | divD => exact ⟨_, _, rfl, rfl, h.binaryArith ..⟩
  | sqrtS | sqrtD | absS | absD | negS | negD => exact ⟨_, _, rfl, rfl, h.unaryArith ..⟩
  | movS | movD => exact ⟨_, _, rfl, rfl, h.move ..⟩
  | cvtSD => exact ⟨_, _, rfl, rfl, h.narrow ..⟩
  | cvtDS => exact ⟨_, _, rfl, rfl, h.widen ..⟩
  | cvtSW | cvtSL | cvtDW | cvtDL => exact ⟨_, _, rfl, rfl, h.intToFloat ..⟩
  | roundWS | truncWS | ceilWS | floorWS | roundLS | truncLS | ceilLS | floorLS
  | roundWD | truncWD | ceilWD | floorWD | roundLD | truncLD | ceilLD | floorLD =>
    exact ⟨_, _, rfl, rfl, h.floatToInt ..⟩
  | cvtWS | cvtLS | cvtWD | cvtLD => exact ⟨_, _, rfl, rfl, h.floatToInt_rm ..⟩
  | cFS | cUnS | cEqS | cUeqS | cOltS | cUltS | cOleS | cUleS
  | cSfS | cNgleS | cSeqS | cNglS | cLtS | cNgeS | cLeS | cNgtS
  | cFD | cUnD | cEqD | cUeqD | cOltD | cUltD | cOleD | cUleD
  | cSfD | cNgleD | cSeqD | cNglD | cLtD | cNgeD | cLeD | cNgtD => exact ⟨_, _, rfl, rfl, h.compare ..⟩
  | mfc1 | dmfc1 | cfc1 | mtc1 | dmtc1 | ctc1 | lwc1 | ldc1 | swc1 | sdc1 | bc1f | bc1t | bc1fl | bc1tl =>
    exact absurd ho Bool.false_ne_true

end SameInputs

/-- Settles O33: every engine starts from quiet outputs and reads only the register views and FCR31. -/
theorem operationsDependOnlyOnRegistersModeAndFcr31 : Obligations.OperationsDependOnlyOnRegistersModeAndFcr31 := by
  intro i s s' ho hp hm hf
  obtain ⟨t, t', ht, ht', ha⟩ := SameInputs.exec_agree ⟨hp, hm, hf⟩ ho
  exact ⟨t, t', ht, ht', ha.p, ha.fcr31, ha.trap⟩

/-- Settles O4, by what a step does with its oldest request and what performing a command word is. -/
theorem stepRunsDecoded : Obligations.StepRunsDecoded := by
  intro s w d rest i hr hd
  rw [step_cons hr, perform_command hd]

end Sys2Proof.Machine
end

section
/-! What a register-view write leaves of the slots, and which slots of the block an instruction can write (R22 to R24). -/

namespace Sys2Proof.Machine

/-! ### View writes -/

theorem lowWord_eq_extractLsb' (d : BitVec 64) : lowWord d = d.extractLsb' 0 32 := by
  rw [lowWord, BitVec.setWidth_eq_extractLsb' (by decide)]

theorem highWord_eq_extractLsb' (d : BitVec 64) : highWord d = d.extractLsb' 32 32 := by
  apply BitVec.eq_of_getLsbD_eq
  intro k hk
  simp [highWord, hk]

/-- A slot depends on the register file only. -/
theorem State.slot_congr {s t : State} (h : s.p = t.p) (k : RegIx) : s.slot k = t.slot k := by
  rw [State.slot, State.slot]
  simp only [h]

/-- A write through the lower view keeps the upper word of the slot (R24). -/
theorem State.highWord_slot_setX32 (s : State) {i : RegIx} (v : BitVec 32) (h : upperHalf s.mode i = false) :
    highWord ((s.setX32 i v).slot (slotOf s.mode i)) = highWord (s.slot (slotOf s.mode i)) := by
  rw [State.setX32_slot, if_pos rfl, h, if_neg Bool.false_ne_true, highWord_append]

/-- A write through the upper view keeps the lower word of the slot (R24). -/
theorem State.lowWord_slot_setX32 (s : State) {i : RegIx} (v : BitVec 32) (h : upperHalf s.mode i = true) :
    lowWord ((s.setX32 i v).slot (slotOf s.mode i)) = lowWord (s.slot (slotOf s.mode i)) := by
  rw [State.setX32_slot, if_pos rfl, h, if_pos rfl, lowWord_append]

/-- A view write changes the register file only (R24). -/
theorem State.setView_with_p (s : State) (w : Width) (i : RegIx) (v : Pattern w) :
    { s.setView w i v with p := s.p } = s :=
  State.ext_slots (fun _ => rfl) (by simp) (by simp) (by simp) (by simp) (by simp) (by simp) (by simp)

/-- Half mode maps every view to an even slot (R23). -/
theorem slotOf_half_even (i : RegIx) : (slotOf .half i).val % 2 = 0 := evenPartner_even i

/-- In half mode no view write reaches an odd slot (R23). -/
theorem State.setView_slot_odd {s : State} (hm : s.mode = .half) (w : Width) (i : RegIx) (v : Pattern w) {k : RegIx}
    (hk : k.val % 2 = 1) : (s.setView w i v).slot k = s.slot k := by
  apply State.setView_slot_ne
  rintro rfl
  rw [hm, slotOf_half_even] at hk
  exact absurd hk (by decide)

/-- In full mode a write through a view of one register is not seen through a view of another (R22). -/
theorem State.view_setView_of_full {s : State} (hm : s.mode = .full) {i j : RegIx} (hj : j ≠ i) (w w' : Width)
    (v : Pattern w) : (s.setView w j v).view w' i = s.view w' i := by
  have hslot : (s.setView w j v).slot i = s.slot i := by
    apply State.setView_slot_ne
    rw [hm]
    exact hj.symm
  cases w' <;> simp [State.view, State.x32, State.x64, hm, hslot]

/-- Settles O12, from the slots after a view write. -/
theorem viewWritesTouchExactlyTheMappedBits : Obligations.ViewWritesTouchExactlyTheMappedBits := by
  intro s i
  refine ⟨fun v => ⟨State.x32_setX32 s i v, State.highWord_slot_setX32 s v, State.lowWord_slot_setX32 s v,
    fun k hk => s.setView_slot_ne .w32 i v hk, s.setView_with_p .w32 i v⟩,
    fun v => ⟨State.slot_setSlot_same s _ v, fun k hk => s.setView_slot_ne .w64 i v hk, s.setView_with_p .w64 i v⟩⟩

theorem evenPartner_eq {i e : RegIx} (he : e.val % 2 = 0) (hi : i = e ∨ i.val = e.val + 1) : evenPartner i = e := by
  rcases hi with rfl | hi
  · exact evenPartner_of_even he
  · apply Fin.ext
    simp only [evenPartner]
    omega

/-- The 32-bit views of the even register `e` and its odd neighbour in half mode are the halves of slot `e` (R23). -/
theorem State.x32_half {s : State} (hm : s.mode = .half) {i e : RegIx} (he : e.val % 2 = 0)
    (hi : i = e ∨ i.val = e.val + 1) :
    s.x32 i = if i = e then lowWord (s.slot e) else highWord (s.slot e) := by
  rw [State.x32, hm, slotOf_half, evenPartner_eq he hi]
  rcases hi with rfl | hi
  · simp [upperHalf, he]
  · have hne : i ≠ e := by rintro rfl; omega
    have hodd : i.val % 2 = 1 := by omega
    simp [upperHalf, hodd, hne]

theorem State.x64_half {s : State} (hm : s.mode = .half) {i e : RegIx} (he : e.val % 2 = 0)
    (hi : i = e ∨ i.val = e.val + 1) : s.x64 i = s.slot e := by
  rw [State.x64, hm, slotOf_half, evenPartner_eq he hi]

/-- Settles O13: full mode maps a register to its own slot, half mode a pair of registers to the even slot. -/
theorem viewMapping : Obligations.ViewMapping := by
  refine ⟨fun s i hm => ⟨?_, ?_, fun j hj => ⟨fun v => ?_, fun v => ?_⟩⟩, fun s i e hm he hi => ⟨?_, ?_⟩,
    fun s i k hm hk => ⟨fun v => s.setView_slot_odd hm .w32 i v hk, fun v => s.setView_slot_odd hm .w64 i v hk⟩⟩
  · rw [State.x32, hm, upperHalf_full, if_neg Bool.false_ne_true, slotOf_full, lowWord_eq_extractLsb']
  · rw [State.x64, hm, slotOf_full]
  · exact ⟨State.view_setView_of_full hm hj .w32 .w64 v, State.view_setView_of_full hm hj .w32 .w32 v⟩
  · exact ⟨State.view_setView_of_full hm hj .w64 .w64 v, State.view_setView_of_full hm hj .w64 .w32 v⟩
  · rw [State.x32_half hm he hi, lowWord_eq_extractLsb', highWord_eq_extractLsb']
  · exact State.x64_half hm he hi

/-! ### The register file after an instruction -/

/-- Every instruction leaves the register file as it is, or writes the view of its destination (R24, R67). -/
theorem exec_p {i : Instr} {s t : State} (h : exec i s = .next t) :
    t.p = s.p ∨ ∃ w fd v, i.dest = .reg w fd ∧ t.p = (s.setView w fd v).p := by
  rcases exec_next h with ⟨_, he⟩ | ⟨_, he⟩
  · cases he with
    | commitReg w fd hd bits _ v =>
      exact .inr ⟨w, fd, v, hd, State.setView_p_congr (s := flagState bits s.begin) (t := s) rfl rfl w fd v⟩
    | commitCond | unimplemented | trap => exact .inl rfl
  · cases he with
    | wroteReg w fd hd v =>
      exact .inr ⟨w, fd, v, hd, State.setView_p_congr (s := s.quiet) (t := s) rfl rfl w fd v⟩
    | answered | wroteControl => exact .inl rfl

/-- No slot but that of the destination register changes (R24). -/
theorem exec_slot_ne {i : Instr} {s t : State} (h : exec i s = .next t) {k : RegIx}
    (hk : ∀ w fd, i.dest = .reg w fd → k ≠ slotOf s.mode fd) : t.slot k = s.slot k := by
  rcases exec_p h with hp | ⟨w, fd, v, hd, hp⟩
  · exact State.slot_congr hp k
  · rw [State.slot_congr hp k, s.setView_slot_ne w fd v (hk w fd hd)]

/-- A 32-bit destination keeps the other half of its slot (R24). -/
theorem exec_otherHalf {i : Instr} {s t : State} (h : exec i s = .next t) {fd : RegIx} (hd : i.dest = .reg .w32 fd) :
    (upperHalf s.mode fd = false →
      highWord (t.slot (slotOf s.mode fd)) = highWord (s.slot (slotOf s.mode fd))) ∧
    (upperHalf s.mode fd = true →
      lowWord (t.slot (slotOf s.mode fd)) = lowWord (s.slot (slotOf s.mode fd))) := by
  rcases exec_p h with hp | ⟨w, fd', v, hd', hp⟩
  · rw [State.slot_congr hp]
    exact ⟨fun _ => rfl, fun _ => rfl⟩
  · rw [hd] at hd'
    cases hd'
    rw [State.slot_congr hp]
    exact ⟨s.highWord_slot_setX32 v, s.lowWord_slot_setX32 v⟩

/-- Settles O35: an instruction writes at most the view of its destination. -/
theorem instructionsWriteOnlyTheirDestination : Obligations.InstructionsWriteOnlyTheirDestination :=
  fun _ _ _ h => ⟨fun _ hk => exec_slot_ne h hk, fun _ hd => exec_otherHalf h hd, exec_keeps h⟩

end Sys2Proof.Machine
end

section
/-! FCR31 after an instruction, and when a next state signals FPE (R29 to R36, R253 to R257). -/

namespace Sys2Proof.Machine

/-! ### Bits outside the field an update writes -/

theorem clearCauseBits_getLsbD_of_ne (f : BitVec 32) {k : Nat} (h : k < 12 ∨ 17 < k) :
    (clearCauseBits f).getLsbD k = f.getLsbD k := by
  have hk : (decide (12 ≤ k) && decide (k ≤ 17)) = false := by
    rw [Bool.and_eq_false_iff, decide_eq_false_iff_not, decide_eq_false_iff_not]
    omega
  rw [clearCauseBits_getLsbD, hk, Bool.not_false, Bool.and_true]

theorem setFlagBits_getLsbD_of_ne (x : ExcSet) (f : BitVec 32) {k : Nat} (h : k < 2 ∨ 6 < k) :
    (setFlagBits x f).getLsbD k = f.getLsbD k := by
  rw [setFlagBits_getLsbD]
  rcases h with h | h
  · simp [show ¬ 2 ≤ k by omega]
  · simp [x.bit_of_ge (show 5 ≤ k - 2 by omega)]

theorem setCauseBits_getLsbD_of_ne (x : ExcSet) (f : BitVec 32) {k : Nat} (h : k < 12 ∨ 16 < k) :
    (setCauseBits x f).getLsbD k = f.getLsbD k := by
  rw [setCauseBits_getLsbD]
  rcases h with h | h
  · simp [show ¬ 12 ≤ k by omega]
  · simp [x.bit_of_ge (show 5 ≤ k - 12 by omega)]

theorem setCauseE_getLsbD_of_ne (f : BitVec 32) {k : Nat} (h : k ≠ 17) :
    (setCauseE f).getLsbD k = f.getLsbD k := by
  rw [setCauseE_getLsbD, decide_eq_false h, Bool.or_false]

theorem setCondition_getLsbD_of_ne (b : Bool) (f : BitVec 32) {k : Nat} (h : k ≠ 23) :
    (setCondition b f).getLsbD k = f.getLsbD k := by
  rw [setCondition_getLsbD, if_neg h]

/-- Setting flags clears no bit (R31). -/
theorem setFlagBits_getLsbD_of_set (x : ExcSet) {f : BitVec 32} {k : Nat} (h : f.getLsbD k = true) :
    (setFlagBits x f).getLsbD k = true := by
  rw [setFlagBits_getLsbD, h, Bool.true_or]

/-! ### The commit state and the trap states, bit by bit -/

section Bits
variable (bits : ExcSet) (s : State) {k : Nat}

/-- Below Cause a commit has written the flags of its exceptions (R253 step 4). -/
theorem flagState_begin_getLsbD (h : k < 12 ∨ 17 < k) :
    (flagState bits s.begin).fcr31.getLsbD k = (setFlagBits bits s.fcr31).getLsbD k := by
  rw [flagState_fcr31, setCauseBits_getLsbD_of_ne _ _ (by omega), State.begin_fcr31, setFlagBits_getLsbD,
    clearCauseBits_getLsbD_of_ne _ h, setFlagBits_getLsbD]

/-- A trap of enabled exceptions writes Cause only (R257). -/
theorem trapState_begin_getLsbD (h : k < 12 ∨ 17 < k) :
    (trapState bits s.begin).fcr31.getLsbD k = s.fcr31.getLsbD k := by
  rw [trapState_fcr31, setCauseBits_getLsbD_of_ne _ _ (by omega), State.begin_fcr31,
    clearCauseBits_getLsbD_of_ne _ h]

/-- UnimplementedOperation writes Cause only (R254). -/
theorem raiseUnimplemented_begin_getLsbD (h : k < 12 ∨ 17 < k) :
    (raiseUnimplemented s.begin).fcr31.getLsbD k = s.fcr31.getLsbD k := by
  rw [raiseUnimplemented_fcr31, setCauseE_getLsbD_of_ne _ (by omega), State.begin_fcr31,
    clearCauseBits_getLsbD_of_ne _ h]

end Bits

/-- A next state of an operation is an effect of that operation. -/
theorem exec_opEffect {i : Instr} {s t : State} (ho : i.isOperation = true) (h : exec i s = .next t) :
    OpEffect i.dest s t := by
  obtain ⟨t', ht', he⟩ := exec_operation i ho s
  rw [ht'] at h
  cases h
  exact he

/-- Outside Cause and C an operation leaves FCR31 as it was, or with the flags of its exceptions set; a comparison has
no exception but Invalid (R180, R253). -/
theorem OpEffect.fcr31_getLsbD {d : Dest} {s t : State} (h : OpEffect d s t) :
    ∃ bits : ExcSet, (d = .cond → bits = .empty ∨ bits = .invalid) ∧
      ∀ k, k < 12 ∨ 17 < k → k ≠ 23 → t.fcr31.getLsbD k = (setFlagBits bits s.fcr31).getLsbD k := by
  cases h with
  | commitReg w fd hd bits _ v =>
    refine ⟨bits, fun hc => ?_, fun k hk _ => ?_⟩
    · rw [hd] at hc
      cases hc
    · rw [State.setView_fcr31, flagState_begin_getLsbD bits s hk]
  | commitCond _ bits hb _ b =>
    refine ⟨bits, fun _ => hb, fun k hk hC => ?_⟩
    rw [State.setC_fcr31, setCondition_getLsbD_of_ne b _ hC, flagState_begin_getLsbD bits s hk]
  | unimplemented =>
    refine ⟨.empty, fun _ => .inl rfl, fun k hk _ => ?_⟩
    rw [raiseUnimplemented_begin_getLsbD s hk, setFlagBits_empty]
  | trap bits =>
    refine ⟨.empty, fun _ => .inl rfl, fun k hk _ => ?_⟩
    rw [trapState_begin_getLsbD bits s hk, setFlagBits_empty]

/-! ### Traps -/

/-- The next state of an operation that signals FPE is one of the two trap states (R253, R254). -/
theorem OpEffect.of_trap {d : Dest} {s t : State} (h : OpEffect d s t) (ht : t.trap = true) :
    t = raiseUnimplemented s.begin ∨
      ∃ bits : ExcSet, bits.inter (enables s.fcr31) ≠ .empty ∧ t = trapState bits s.begin := by
  cases h with
  | commitReg => simp at ht
  | commitCond => simp at ht
  | unimplemented => exact .inl rfl
  | trap bits _ enabled => exact .inr ⟨bits, enabled, rfl⟩

/-- No CPU-side word and no port access signals FPE (R256). -/
theorem PortEffect.trap_eq_false {d : Dest} {s t : State} (h : PortEffect d s t) : t.trap = false := by
  cases h <;> simp

/-- An instruction that signals FPE leaves one of the two trap states (R253, R254). -/
theorem exec_trap {i : Instr} {s t : State} (h : exec i s = .next t) (ht : t.trap = true) :
    t = raiseUnimplemented s.begin ∨
      ∃ bits : ExcSet, bits.inter (enables s.fcr31) ≠ .empty ∧ t = trapState bits s.begin := by
  rcases exec_next h with ⟨_, he⟩ | ⟨_, he⟩
  · exact he.of_trap ht
  · rw [he.trap_eq_false] at ht
    cases ht

/-- Settles O26: both trap states differ from the state before in Cause and the outputs only. -/
theorem trapsArePrecise : Obligations.TrapsArePrecise := by
  intro i s t h ht
  rcases exec_trap h ht with rfl | ⟨bits, _, rfl⟩
  · exact ⟨fun _ => rfl, rfl, rfl, rfl, rfl, rfl, fun k _ hk => raiseUnimplemented_begin_getLsbD s (by omega)⟩
  · exact ⟨fun _ => rfl, rfl, rfl, rfl, rfl, rfl, fun k _ hk => trapState_begin_getLsbD bits s (by omega)⟩

/-- A signalled trap is explained by the Cause field: Cause.E, or a cause with its enable bit set (R253, R254). -/
theorem exec_trap_explained {i : Instr} {s t : State} (h : exec i s = .next t) (ht : t.trap = true) :
    causeE t.fcr31 = true ∨ (causes t.fcr31).inter (enables t.fcr31) ≠ .empty := by
  rcases exec_trap h ht with rfl | ⟨bits, enabled, rfl⟩
  · exact .inl (by simp)
  · exact .inr (by simpa using enabled)

/-! ### The invariant -/

/-- A state that signals no trap has the invariant when it holds the identification value. -/
theorem State.inv_of_not_trap {t : State} (h0 : t.fcr0 = Config.revision) (ht : t.trap = false) : t.Inv :=
  ⟨h0, fun h => by rw [ht] at h; cases h⟩

theorem PortEffect.fcr0 {d : Dest} {s t : State} (h : PortEffect d s t) : t.fcr0 = s.fcr0 := by
  cases h <;> simp

/-- Settles O9, by the cases of a step: only an instruction signals a trap, and only `reset()` writes FCR0. -/
theorem stepKeepsInv : Obligations.StepKeepsInv := by
  rintro s t ⟨h0, -⟩ h
  rcases step_next h with ⟨_, rfl⟩ | ⟨_, _, _, i, _, _, he⟩ | ⟨_, _, rfl⟩ | ⟨_, _, _, rfl⟩ | ⟨_, _, _, _, he⟩
  · exact State.inv_of_not_trap h0 rfl
  · obtain ⟨_, hf, _, _⟩ := exec_keeps he
    exact ⟨hf.trans h0, exec_trap_explained he⟩
  · exact State.inv_of_not_trap rfl rfl
  · exact State.inv_of_not_trap h0 rfl
  · exact State.inv_of_not_trap (he.fcr0.trans h0) he.trap_eq_false

/-! ### The fields of FCR31 -/

/-- The flags after an operation: unchanged by a trap, joined by the causes otherwise (R31, R253). -/
theorem OpEffect.flags {d : Dest} {s t : State} (h : OpEffect d s t) :
    (t.trap = true → flags t.fcr31 = flags s.fcr31) ∧
      (t.trap = false → flags t.fcr31 = (flags s.fcr31).union (causes t.fcr31)) := by
  cases h <;> simp

/-- Settles O28: outside Cause and C an operation only sets flags, and it sets those of its causes. -/
theorem flagsAreSticky : Obligations.FlagsAreSticky := by
  intro i s t ho h
  have he := exec_opEffect ho h
  obtain ⟨bits, _, hbit⟩ := he.fcr31_getLsbD
  refine ⟨fun k _ hk hs => ?_, he.flags⟩
  rw [hbit k (by omega) (by omega)]
  exact setFlagBits_getLsbD_of_set bits hs

/-- Settles O29: outside Cause and C an operation writes flags only. -/
theorem operationsKeepControlFields : Obligations.OperationsKeepControlFields := by
  intro i s t ho h k _ hk
  obtain ⟨bits, _, hbit⟩ := (exec_opEffect ho h).fcr31_getLsbD
  rw [hbit k (by omega) (by omega), setFlagBits_getLsbD_of_ne bits _ (by omega)]

/-- Only a comparison writes C (R34, R180). -/
theorem OpEffect.condition_of_ne {d : Dest} {s t : State} (h : OpEffect d s t) (hd : d ≠ .cond) :
    condition t.fcr31 = condition s.fcr31 := by
  cases h with
  | commitCond hc => exact absurd hc hd
  | commitReg | unimplemented | trap => simp

/-- The exceptions a comparison can have set no flag but V (R180). -/
theorem setFlagBits_getLsbD_of_invalid {bits : ExcSet} (hb : bits = .empty ∨ bits = .invalid) (f : BitVec 32)
    {k : Nat} (hk : k ≠ 6) : (setFlagBits bits f).getLsbD k = f.getLsbD k := by
  rcases hb with rfl | rfl
  · rw [setFlagBits_empty]
  · rw [setFlagBits_getLsbD]
    have hbit : ∀ j, j ≠ 4 → ExcSet.invalid.bit j = false
      | 0, _ | 1, _ | 2, _ | 3, _ | _ + 5, _ => rfl
    by_cases h2 : 2 ≤ k
    · rw [hbit (k - 2) (by omega), Bool.and_false, Bool.or_false]
    · rw [decide_eq_false h2, Bool.and_false, Bool.false_and, Bool.or_false]

/-- Only a control write changes FCR31 without an operation (R225). -/
theorem PortEffect.fcr31_of_ne {d : Dest} {s t : State} (h : PortEffect d s t) (hd : d ≠ .control) :
    t.fcr31 = s.fcr31 := by
  cases h with
  | wroteControl hc => exact absurd hc hd
  | answered | wroteReg => simp

/-- Settles O36, by the effects of an operation and of a CPU-side word. -/
theorem fcr31Frame : Obligations.Fcr31Frame := by
  intro i s t h
  rcases exec_next h with ⟨ho, he⟩ | ⟨ho, he⟩
  · refine ⟨fun _ hd => he.condition_of_ne hd, fun _ hd k _ hk => ?_, fun hn => ?_⟩
    · obtain ⟨bits, hb, hbit⟩ := he.fcr31_getLsbD
      rw [hbit k (by omega) (by omega), setFlagBits_getLsbD_of_invalid (hb hd) _ (by omega)]
    · exact absurd (hn.symm.trans ho) Bool.false_ne_true
  · exact ⟨fun hn => absurd (ho.symm.trans hn) Bool.false_ne_true,
      fun hn => absurd (ho.symm.trans hn) Bool.false_ne_true, fun _ hd => he.fcr31_of_ne hd⟩

end Sys2Proof.Machine
end

section
/-! Two runs of one operation: a relation of states that fixes the views and FCR31, and that the updates of an operation
keep, is kept by every operation; the proof follows the engines as that of `SameInputs.exec_agree` does, for any such
relation. With it: the Cause field before an operation is not read (R33), and half mode does not reach the odd slots
(R23). -/

namespace Sys2Proof.Machine

/-- `P` relates the states before an operation and `Q` those after `ClearCause()`: `P` fixes what an operation reads
(R95, R140, R180), and every update of an operation keeps `Q`. -/
structure OpSimulation (P Q : State → State → Prop) : Prop where
  view : ∀ {s t}, P s t → ∀ w i, s.view w i = t.view w i
  begin : ∀ {s t}, P s t → Q s.begin t.begin
  fcr31 : ∀ {s t}, Q s t → s.fcr31 = t.fcr31
  setFcr31 : ∀ {s t}, Q s t → ∀ f, Q (s.setFcr31 f) (t.setFcr31 f)
  signalFpe : ∀ {s t}, Q s t → Q s.signalFpe t.signalFpe
  setView : ∀ {s t}, Q s t → ∀ w i v, Q (s.setView w i v) (t.setView w i v)

namespace OpSimulation
variable {P Q : State → State → Prop} (sim : OpSimulation P Q) {s t : State}
include sim

/-! ### After ClearCause -/

theorem setC (h : Q s t) (b : Bool) : Q (s.setC b) (t.setC b) := by
  rw [State.setC, State.setC, sim.fcr31 h]
  exact sim.setFcr31 h _

theorem raiseUnimplemented (h : Q s t) : Q (raiseUnimplemented s) (raiseUnimplemented t) := by
  rw [Machine.raiseUnimplemented, Machine.raiseUnimplemented, sim.fcr31 h]
  exact sim.signalFpe (sim.setFcr31 h _)

/-- The dispatcher chooses its path from FCR31 and the bits only (R253). -/
theorem dispatchThen (h : Q s t) (bits : ExcSet) {commit : State → State}
    (hc : ∀ {u v : State}, Q u v → Q (commit u) (commit v)) :
    Q (dispatchThen bits commit s) (dispatchThen bits commit t) := by
  rw [Machine.dispatchThen, Machine.dispatchThen, sim.fcr31 h]
  cases dispatchPath t.fcr31 bits with
  | nothing => exact hc h
  | unimplemented => exact sim.raiseUnimplemented h
  | trap => exact sim.signalFpe (sim.setFcr31 h _)
  | flag => exact hc (sim.setFcr31 h _)

theorem dispatch_setView (h : Q s t) (bits : ExcSet) (w : Width) (fd : RegIx) (v : Pattern w) :
    Q (Machine.dispatchThen bits (fun u => u.setView w fd v) s)
      (Machine.dispatchThen bits (fun u => u.setView w fd v) t) :=
  sim.dispatchThen h bits fun hu => sim.setView hu w fd v

theorem binaryEvaluate (h : Q s t) (q : Config.Params) (op : BinaryOp) (w : Width) (fd : RegIx) (a b : Pattern w) :
    Q (binaryEvaluate q op w fd a b s) (binaryEvaluate q op w fd a b t) := by
  simp only [Machine.binaryEvaluate, sim.fcr31 h]
  exact sim.dispatch_setView h _ w fd _

/-! ### The engines -/

variable (h : P s t)
include h

theorem binaryArith (q : Config.Params) (op : BinaryOp) (w : Width) (fd fs ft : RegIx) :
    Q (binaryArith q op w fd fs ft s) (binaryArith q op w fd fs ft t) := by
  simp only [Machine.binaryArith, sim.view h]
  split
  case h_1 => exact sim.raiseUnimplemented (sim.begin h)
  case h_2 | h_3 => exact sim.dispatch_setView (sim.begin h) _ w fd _
  all_goals exact sim.binaryEvaluate (sim.begin h) ..

theorem unaryArith (op : UnaryOp) (w : Width) (fd fs : RegIx) :
    Q (unaryArith op w fd fs s) (unaryArith op w fd fs t) := by
  simp only [Machine.unaryArith, sim.view h]
  split
  case h_1 => exact sim.raiseUnimplemented (sim.begin h)
  all_goals exact sim.dispatch_setView (sim.begin h) _ w fd _

theorem move (w : Width) (fd fs : RegIx) : Q (move w fd fs s) (move w fd fs t) := by
  rw [Machine.move, Machine.move, sim.view h]
  exact sim.setView (sim.begin h) w fd _

theorem narrow (fd fs : RegIx) : Q (narrow fd fs s) (narrow fd fs t) := by
  simp only [Machine.narrow, sim.view h]
  split
  case h_1 | h_2 => exact sim.raiseUnimplemented (sim.begin h)
  case h_4 | h_5 => exact sim.setView (sim.begin h) .w32 fd _
  all_goals exact sim.dispatch_setView (sim.begin h) _ .w32 fd _

theorem widen (fd fs : RegIx) : Q (widen fd fs s) (widen fd fs t) := by
  simp only [Machine.widen, sim.view h]
  split
  case h_1 | h_2 => exact sim.raiseUnimplemented (sim.begin h)
  case h_3 => exact sim.dispatch_setView (sim.begin h) _ .w64 fd _
  all_goals exact sim.setView (sim.begin h) .w64 fd _

theorem intToFloat (src dst : Width) (fd fs : RegIx) : Q (intToFloat src dst fd fs s) (intToFloat src dst fd fs t) := by
  rw [Machine.intToFloat, Machine.intToFloat, sim.view h]
  exact sim.setView (sim.begin h) dst fd _

theorem floatToInt (q : Config.Params) (w n : Width) (mode : RoundingMode) (fd fs : RegIx) :
    Q (floatToInt q w n mode fd fs s) (floatToInt q w n mode fd fs t) := by
  simp only [Machine.floatToInt, sim.view h]
  split
  · exact sim.raiseUnimplemented (sim.begin h)
  · exact sim.dispatch_setView (sim.begin h) _ n fd _

/-- CVT rounds with FCR31.RM, which ClearCause keeps (R149, R252). -/
theorem floatToInt_rm (q : Config.Params) (w n : Width) (fd fs : RegIx) :
    Q (Machine.floatToInt q w n (roundingMode s.fcr31) fd fs s)
      (Machine.floatToInt q w n (roundingMode t.fcr31) fd fs t) := by
  have hrm : roundingMode s.fcr31 = roundingMode t.fcr31 := by
    rw [← roundingMode_clearCauseBits s.fcr31, ← roundingMode_clearCauseBits t.fcr31]
    exact congrArg roundingMode (sim.fcr31 (sim.begin h))
  rw [hrm]
  exact sim.floatToInt h q w n _ fd fs

theorem compare (w : Width) (pred : Predicate) (fs ft : RegIx) :
    Q (compare w pred fs ft s) (compare w pred fs ft t) := by
  simp only [Machine.compare, sim.view h]
  split
  · split
    · exact sim.dispatchThen (sim.begin h) _ fun hu => sim.setC hu _
    · exact sim.setC (sim.begin h) _
  · exact sim.setC (sim.begin h) _

/-- Every operation takes related states to related states. -/
theorem exec_operation {i : Instr} (ho : i.isOperation = true) :
    ∃ s' t', exec i s = .next s' ∧ exec i t = .next t' ∧ Q s' t' := by
  cases i with
  | addS | addD | subS | subD | mulS | mulD | divS | divD => exact ⟨_, _, rfl, rfl, sim.binaryArith h ..⟩
  | sqrtS | sqrtD | absS | absD | negS | negD => exact ⟨_, _, rfl, rfl, sim.unaryArith h ..⟩
  | movS | movD => exact ⟨_, _, rfl, rfl, sim.move h ..⟩
  | cvtSD => exact ⟨_, _, rfl, rfl, sim.narrow h ..⟩
  | cvtDS => exact ⟨_, _, rfl, rfl, sim.widen h ..⟩
  | cvtSW | cvtSL | cvtDW | cvtDL => exact ⟨_, _, rfl, rfl, sim.intToFloat h ..⟩
  | roundWS | truncWS | ceilWS | floorWS | roundLS | truncLS | ceilLS | floorLS
  | roundWD | truncWD | ceilWD | floorWD | roundLD | truncLD | ceilLD | floorLD =>
    exact ⟨_, _, rfl, rfl, sim.floatToInt h ..⟩
  | cvtWS | cvtLS | cvtWD | cvtLD => exact ⟨_, _, rfl, rfl, sim.floatToInt_rm h ..⟩
  | cFS | cUnS | cEqS | cUeqS | cOltS | cUltS | cOleS | cUleS
  | cSfS | cNgleS | cSeqS | cNglS | cLtS | cNgeS | cLeS | cNgtS
  | cFD | cUnD | cEqD | cUeqD | cOltD | cUltD | cOleD | cUleD
  | cSfD | cNgleD | cSeqD | cNglD | cLtD | cNgeD | cLeD | cNgtD => exact ⟨_, _, rfl, rfl, sim.compare h ..⟩
  | mfc1 | dmfc1 | cfc1 | mtc1 | dmtc1 | ctc1 | lwc1 | ldc1 | swc1 | sdc1 | bc1f | bc1t | bc1fl | bc1tl =>
    exact absurd ho Bool.false_ne_true

end OpSimulation

/-! ### Cause before an operation -/

/-- States that ClearCause and the quieting of the outputs make equal. -/
def SameBegin (s t : State) : Prop := s.begin = t.begin

/-- An operation makes one state of states that are equal after ClearCause. -/
theorem sameBegin_opSimulation : OpSimulation SameBegin Eq where
  view {s t} h w i := by
    have hv : s.begin.view w i = t.begin.view w i := by rw [h]
    rwa [State.begin_view, State.begin_view] at hv
  begin h := h
  fcr31 h := congrArg State.fcr31 h
  setFcr31 h f := congrArg (State.setFcr31 · f) h
  signalFpe h := congrArg State.signalFpe h
  setView h w i v := congrArg (State.setView · w i v) h

theorem sameBegin_clearCauseBits (s : State) : SameBegin s { s with fcr31 := clearCauseBits s.fcr31 } := by
  simp only [SameBegin, State.begin, clearCauseBits_clearCauseBits]
  rfl

/-- Settles O30: an operation reads the state after ClearCause only. -/
theorem causeIsPerOperation : Obligations.CauseIsPerOperation := by
  intro i s ho
  obtain ⟨u, v, hu, hv, huv⟩ := sameBegin_opSimulation.exec_operation (sameBegin_clearCauseBits s) ho
  rw [hu, hv, huv]

/-! ### The odd slots in half mode -/

/-- Half-mode states that differ in the odd slots only. -/
structure HalfTwins (s t : State) : Prop extends SameButOddSlots s t where
  half : s.mode = .half

namespace HalfTwins
variable {s t : State}

theorem slot_slotOf (h : HalfTwins s t) (i : RegIx) : s.slot (slotOf t.mode i) = t.slot (slotOf t.mode i) := by
  rw [← h.mode, h.half]
  exact h.even _ (slotOf_half_even i)

/-- Every view lies in an even slot (R23). -/
theorem view (h : HalfTwins s t) (w : Width) (i : RegIx) : s.view w i = t.view w i := by
  cases w
  · simp only [State.view, State.x32, h.mode, h.slot_slotOf]
  · simp only [State.view, State.x64, h.mode, h.slot_slotOf]

theorem x32 (h : HalfTwins s t) (i : RegIx) : s.x32 i = t.x32 i := h.view .w32 i

theorem x64 (h : HalfTwins s t) (i : RegIx) : s.x64 i = t.x64 i := h.view .w64 i

theorem setFcr31 (h : HalfTwins s t) (f : BitVec 32) : HalfTwins (s.setFcr31 f) (t.setFcr31 f) :=
  ⟨{ h with fcr31 := rfl }, h.half⟩

theorem signalFpe (h : HalfTwins s t) : HalfTwins s.signalFpe t.signalFpe := ⟨{ h with trap := rfl }, h.half⟩

theorem quiet (h : HalfTwins s t) : HalfTwins s.quiet t.quiet := ⟨{ h with trap := rfl, reply := rfl }, h.half⟩

theorem answer (h : HalfTwins s t) (r : Reply) : HalfTwins (s.answer r) (t.answer r) :=
  ⟨{ h with reply := rfl }, h.half⟩

theorem begin (h : HalfTwins s t) : HalfTwins s.begin t.begin := by
  rw [State.begin, State.begin, h.fcr31]
  exact h.quiet.setFcr31 _

/-- A view write changes the slot it maps to alike in both states. -/
theorem slot_setView (h : HalfTwins s t) (w : Width) (i : RegIx) (v : Pattern w) {k : RegIx} (hk : k.val % 2 = 0) :
    (s.setView w i v).slot k = (t.setView w i v).slot k := by
  cases w
  · simp only [State.setView, State.setX32_slot, h.even k hk, h.mode, h.slot_slotOf]
  · simp only [State.setView, State.setX64_slot, h.even k hk, h.mode]

theorem setView (h : HalfTwins s t) (w : Width) (i : RegIx) (v : Pattern w) :
    HalfTwins (s.setView w i v) (t.setView w i v) where
  even _ hk := h.slot_setView w i v hk
  mode := by simp only [State.setView_mode, h.mode]
  fcr31 := by simp only [State.setView_fcr31, h.fcr31]
  fcr0 := by simp only [State.setView_fcr0, h.fcr0]
  requests := by simp only [State.setView_requests, h.requests]
  operand := by simp only [State.setView_operand, h.operand]
  trap := by simp only [State.setView_trap, h.trap]
  reply := by simp only [State.setView_reply, h.reply]
  half := by rw [State.setView_mode, h.half]

theorem cond (h : HalfTwins s t) : s.cond = t.cond := congrArg condition h.fcr31

theorem ctrlRead (h : HalfTwins s t) (n : RegIx) : ctrlRead s n = ctrlRead t n := by
  rw [Machine.ctrlRead, Machine.ctrlRead, h.fcr31, h.fcr0]

end HalfTwins

theorem halfTwins_opSimulation : OpSimulation HalfTwins HalfTwins where
  view h := h.view
  begin h := h.begin
  fcr31 h := h.fcr31
  setFcr31 h := h.setFcr31
  signalFpe h := h.signalFpe
  setView h := h.setView

namespace HalfTwins
variable {s s' t : State}

theorem exec_cfc1 (h : HalfTwins s s') {rt fs : RegIx} (he : execCfc1 rt fs s = .next t) :
    ∃ t', execCfc1 rt fs s' = .next t' ∧ HalfTwins t t' := by
  rw [execCfc1] at he ⊢
  rw [← h.ctrlRead]
  split at he
  · cases he
    exact ⟨_, rfl, h.quiet.answer _⟩
  · cases he

/-- A control write reads FCR31 only (R225). -/
theorem ctrlWrite (h : HalfTwins s s') {q : Config.Params} {n : RegIx} {v : BitVec 32}
    (he : ctrlWrite q n v s = some t) : ∃ t', Machine.ctrlWrite q n v s' = some t' ∧ HalfTwins t t' := by
  unfold Machine.ctrlWrite at he ⊢
  rw [← h.fcr31]
  split at he
  · next h31 =>
    cases he
    exact ⟨_, if_pos h31, h.setFcr31 _⟩
  · next h31 =>
    rw [if_neg h31]
    split at he
    · next h0 =>
      cases he
      exact ⟨_, if_pos h0, h⟩
    · cases he

theorem exec_ctc1 (h : HalfTwins s s') {rt fs : RegIx} (he : execCtc1 rt fs s = .next t) :
    ∃ t', execCtc1 rt fs s' = .next t' ∧ HalfTwins t t' := by
  rw [execCtc1] at he ⊢
  rw [← h.operand]
  split at he
  · next u hu =>
    cases he
    obtain ⟨t', ht', htwins⟩ := h.quiet.ctrlWrite hu
    rw [ht']
    exact ⟨t', rfl, htwins⟩
  · cases he

/-- Every CPU-side word takes twins to twins: it reads the views, FCR31, FCR0 and the operand (R228 to R241). -/
theorem exec_portWord (h : HalfTwins s s') {i : Instr} (ho : i.isOperation = false) (he : exec i s = .next t) :
    ∃ t', exec i s' = .next t' ∧ HalfTwins t t' := by
  cases i with
  | cfc1 rt fs => exact h.exec_cfc1 (rt := rt) he
  | ctc1 rt fs => exact h.exec_ctc1 (rt := rt) he
  | mfc1 | swc1 =>
    cases he
    refine ⟨_, rfl, ?_⟩
    rw [h.x32]
    exact h.quiet.answer _
  | dmfc1 | sdc1 =>
    cases he
    refine ⟨_, rfl, ?_⟩
    rw [h.x64]
    exact h.quiet.answer _
  | bc1f | bc1t | bc1fl | bc1tl =>
    cases he
    refine ⟨_, rfl, ?_⟩
    rw [h.cond]
    exact h.quiet.answer _
  | mtc1 | lwc1 =>
    cases he
    refine ⟨_, rfl, ?_⟩
    rw [h.operand]
    exact h.quiet.setView .w32 _ _
  | dmtc1 | ldc1 =>
    cases he
    refine ⟨_, rfl, ?_⟩
    rw [h.operand]
    exact h.quiet.setView .w64 _ _
  | _ => cases ho

end HalfTwins

/-- Twins run alike, whatever the instruction. -/
theorem HalfTwins.exec {s s' t : State} (h : HalfTwins s s') {i : Instr} (he : exec i s = .next t) :
    ∃ t', Machine.exec i s' = .next t' ∧ HalfTwins t t' := by
  cases ho : i.isOperation
  · exact h.exec_portWord ho he
  · obtain ⟨u, t', hu, ht', htwins⟩ := halfTwins_opSimulation.exec_operation h ho
    rw [he] at hu
    cases hu
    exact ⟨t', ht', htwins⟩

/-- In half mode an instruction keeps every odd slot (R23, R24). -/
theorem exec_slot_odd {i : Instr} {s t : State} (hm : s.mode = .half) (h : exec i s = .next t) {k : RegIx}
    (hk : k.val % 2 = 1) : t.slot k = s.slot k := by
  rcases exec_p h with hp | ⟨w, fd, v, _, hp⟩
  · exact State.slot_congr hp k
  · rw [State.slot_congr hp k, State.setView_slot_odd hm w fd v hk]

/-- Settles O14: twins run alike, and the destination's slot is even. -/
theorem halfModeIsolatesOddSlots : Obligations.HalfModeIsolatesOddSlots := by
  intro i s s' t hm hs he
  obtain ⟨t', he', htwins⟩ := HalfTwins.exec ⟨hs, hm⟩ he
  exact ⟨t', he', htwins.toSameButOddSlots, fun k hk =>
    ⟨exec_slot_odd hm he hk, exec_slot_odd (hs.mode ▸ hm) he' hk⟩⟩

end Sys2Proof.Machine
end

section
/-! What a step does to the request list (R57; log entry 1). -/

namespace Sys2Proof.Machine

theorem PortEffect.requests {d : Dest} {s t : State} (h : PortEffect d s t) : t.requests = s.requests := by
  cases h <;> simp

/-- Every step takes the oldest request, whatever that request asks for, and adds none. -/
theorem step_requests {s t : State} (h : step s = .next t) : t.requests = s.requests.tail := by
  rcases step_next h with ⟨hr, rfl⟩ | ⟨w, d, rest, i, hr, -, he⟩ | ⟨rest, hr, rfl⟩ | ⟨full, rest, hr, rfl⟩ |
    ⟨r, rest, d, hr, hp⟩
  · simp [hr]
  · obtain ⟨-, -, ht, -⟩ := exec_keeps he
    rw [ht, hr, List.tail_cons]
  · rw [hr, performReset, List.tail_cons]
  · simp [hr]
  · rw [hp.requests, hr, List.tail_cons]

/-- Settles O11, by the cases of a step: no request adds or takes another, and an idle step only quiets the outputs. -/
theorem stepTakesTheOldestRequest : Obligations.StepTakesTheOldestRequest := by
  refine fun s t h => ⟨step_requests h, fun hr => ?_⟩
  rw [step_nil hr, Host.Outcome.next.injEq] at h
  exact h.symm

end Sys2Proof.Machine
end

section
/-! The round trips between words and instructions (R62 to R74). Each column of the decoder is related to the word
format it reads, once; `decode` and `encode` are then compared format by format. -/

namespace Sys2Proof

/-! ### What a column of the decoder accepts -/

/-- An instruction the S column decodes is encoded by the FR fields it was read from: the refused must-be-zero field
of a one-source operation or a comparison is the one its encoding leaves 0 (R68). -/
theorem encode_of_decodeFmtS {ft fs fd : RegIx} {funct : Nat} {i : Instr} (h : decodeFmtS ft fs fd funct = .ok i) :
    encode i = encodeFR 16 ft fs fd funct := by
  unfold decodeFmtS at h
  split at h
  iterate 4 next => cases h; rfl
  iterate 15 next => obtain ⟨rfl, rfl⟩ := oneSource_ok h; rfl
  iterate 16 next => obtain ⟨rfl, rfl⟩ := comparison_ok h; rfl
  · cases h

theorem encode_of_decodeFmtD {ft fs fd : RegIx} {funct : Nat} {i : Instr} (h : decodeFmtD ft fs fd funct = .ok i) :
    encode i = encodeFR 17 ft fs fd funct := by
  unfold decodeFmtD at h
  split at h
  iterate 4 next => cases h; rfl
  iterate 15 next => obtain ⟨rfl, rfl⟩ := oneSource_ok h; rfl
  iterate 16 next => obtain ⟨rfl, rfl⟩ := comparison_ok h; rfl
  · cases h

theorem encode_of_decodeFmtW {ft fs fd : RegIx} {funct : Nat} {i : Instr} (h : decodeFmtW ft fs fd funct = .ok i) :
    encode i = encodeFR 20 ft fs fd funct := by
  unfold decodeFmtW at h
  split at h
  iterate 2 next => obtain ⟨rfl, rfl⟩ := oneSource_ok h; rfl
  · cases h

theorem encode_of_decodeFmtL {ft fs fd : RegIx} {funct : Nat} {i : Instr} (h : decodeFmtL ft fs fd funct = .ok i) :
    encode i = encodeFR 21 ft fs fd funct := by
  unfold decodeFmtL at h
  split at h
  iterate 2 next => obtain ⟨rfl, rfl⟩ := oneSource_ok h; rfl
  · cases h

theorem encode_of_decodeBranch {sel : Nat} {offset : BitVec 16} {i : Instr} (h : decodeBranch sel offset = .ok i) :
    encode i = encodeBC sel offset := by
  unfold decodeBranch at h
  split at h
  iterate 4 next => cases h; rfl
  · cases h

/-- A transfer is accepted only with bits 10:0 zero, where the word is the transfer's encoding (R74). -/
theorem encode_of_transfer {w : Word} {rs : Nat} {i j : Instr} (hop : field w 26 6 = 0x11) (hr : field w 21 5 = rs)
    (hi : encode i = encodeMV rs (regField w 16) (regField w 11)) (h : transfer (field w 0 11) i = .ok j) :
    encode j = w := by
  obtain ⟨hlow, rfl⟩ := transfer_ok h
  rw [hi, encodeMV_of_fields hop hr hlow]

theorem encode_of_decodeCop1 {w : Word} {i : Instr} (hop : field w 26 6 = 0x11) (h : decodeCop1 w = .ok i) :
    encode i = w := by
  unfold decodeCop1 at h
  split at h
  iterate 6 next hr => exact encode_of_transfer hop hr rfl h
  next hr => rw [encode_of_decodeBranch h, encodeBC_of_fields hop hr rfl]
  next hf => rw [encode_of_decodeFmtS h, encodeFR_of_fields hop hf rfl]
  next hf => rw [encode_of_decodeFmtD h, encodeFR_of_fields hop hf rfl]
  next hf => rw [encode_of_decodeFmtW h, encodeFR_of_fields hop hf rfl]
  next hf => rw [encode_of_decodeFmtL h, encodeFR_of_fields hop hf rfl]
  · cases h

/-! ### The round trips -/

/-- Settles O1: the word of each format reaches its column with the operands it was built from, and the column's row
for the funct code or selector is the instruction. -/
theorem decodeEncode : Obligations.DecodeEncode := by
  intro i
  cases i with
  | addS fd fs ft | subS fd fs ft | mulS fd fs ft | divS fd fs ft => exact decode_encodeFR_S ft fs fd (by decide)
  | addD fd fs ft | subD fd fs ft | mulD fd fs ft | divD fd fs ft => exact decode_encodeFR_D ft fs fd (by decide)
  | sqrtS fd fs | absS fd fs | negS fd fs | movS fd fs | cvtDS fd fs
  | roundWS fd fs | truncWS fd fs | ceilWS fd fs | floorWS fd fs | cvtWS fd fs
  | roundLS fd fs | truncLS fd fs | ceilLS fd fs | floorLS fd fs | cvtLS fd fs =>
    exact decode_encodeFR_S 0 fs fd (by decide)
  | sqrtD fd fs | absD fd fs | negD fd fs | movD fd fs | cvtSD fd fs
  | roundWD fd fs | truncWD fd fs | ceilWD fd fs | floorWD fd fs | cvtWD fd fs
  | roundLD fd fs | truncLD fd fs | ceilLD fd fs | floorLD fd fs | cvtLD fd fs =>
    exact decode_encodeFR_D 0 fs fd (by decide)
  | cvtSW fd fs | cvtDW fd fs => exact decode_encodeFR_W 0 fs fd (by decide)
  | cvtSL fd fs | cvtDL fd fs => exact decode_encodeFR_L 0 fs fd (by decide)
  | cFS fs ft | cUnS fs ft | cEqS fs ft | cUeqS fs ft | cOltS fs ft | cUltS fs ft | cOleS fs ft | cUleS fs ft
  | cSfS fs ft | cNgleS fs ft | cSeqS fs ft | cNglS fs ft | cLtS fs ft | cNgeS fs ft | cLeS fs ft | cNgtS fs ft =>
    exact decode_encodeFR_S ft fs 0 (by decide)
  | cFD fs ft | cUnD fs ft | cEqD fs ft | cUeqD fs ft | cOltD fs ft | cUltD fs ft | cOleD fs ft | cUleD fs ft
  | cSfD fs ft | cNgleD fs ft | cSeqD fs ft | cNglD fs ft | cLtD fs ft | cNgeD fs ft | cLeD fs ft | cNgtD fs ft =>
    exact decode_encodeFR_D ft fs 0 (by decide)
  | mfc1 rt fs => exact decode_encodeMV_mfc1 rt fs
  | dmfc1 rt fs => exact decode_encodeMV_dmfc1 rt fs
  | cfc1 rt fs => exact decode_encodeMV_cfc1 rt fs
  | mtc1 rt fs => exact decode_encodeMV_mtc1 rt fs
  | dmtc1 rt fs => exact decode_encodeMV_dmtc1 rt fs
  | ctc1 rt fs => exact decode_encodeMV_ctc1 rt fs
  | lwc1 ft offset base => exact decode_encodeMem_lwc1 base ft offset
  | ldc1 ft offset base => exact decode_encodeMem_ldc1 base ft offset
  | swc1 ft offset base => exact decode_encodeMem_swc1 base ft offset
  | sdc1 ft offset base => exact decode_encodeMem_sdc1 base ft offset
  | bc1f offset | bc1t offset | bc1fl offset | bc1tl offset => exact decode_encodeBC offset (by decide)

/-- Settles O2, by the op field: a COP1 word is read by its column, a load or store keeps every one of its fields. -/
theorem encodeDecode : Obligations.EncodeDecode := by
  intro w i h
  unfold decode at h
  split at h
  next hop => exact encode_of_decodeCop1 hop h
  iterate 4 next hop => cases h; exact encodeMem_of_fields hop
  · cases h

/-- Settles O3: each word is decoded by evaluation. -/
theorem decodeSamples : Obligations.DecodeSamples := by
  unfold Obligations.DecodeSamples
  decide

end Sys2Proof
end

section
/-! A command word that does not decode (R69, R72). -/

namespace Sys2Proof.Machine

/-- Settles O5: the step performs the word, and performing a word that does not decode is the refusal of its error. -/
theorem undecodableWordsRefused : Obligations.UndecodableWordsRefused := by
  intro s w d rest hr
  rw [step_cons hr]
  exact ⟨fun h => perform_command_error h d _, fun h => perform_command_error h d _⟩

end Sys2Proof.Machine
end

section
/-! The classifier by its bit fields (R80, R81), the precedence of the case tables (R85), and the division by a Zero
(R92, R100). -/

namespace Sys2Proof.Machine

/-! ### The classifier -/

section Slices
variable {w : Width} (b : Pattern w)

theorem expField_eq_extractLsb' : expField b = (b.extractLsb' w.fracBits w.expBits).toNat := by
  rw [BitVec.extractLsb'_toNat, Nat.shiftRight_eq_div_pow, expField]

theorem fracField_eq_extractLsb' : fracField b = (b.extractLsb' 0 w.fracBits).toNat := by
  rw [BitVec.extractLsb'_toNat, Nat.shiftRight_zero, fracField]

theorem signBit_eq_getLsbD : signBit b = b.getLsbD (w.bits - 1) := by
  rw [signBit, beq_eq_decide, ← BitVec.testBit_toNat, Nat.testBit_eq_decide_div_mod_eq]
  cases w <;> rfl

theorem expField_eq_ones_iff :
    expField b = 2 ^ w.expBits - 1 ↔ b.extractLsb' w.fracBits w.expBits = BitVec.allOnes w.expBits := by
  rw [expField_eq_extractLsb', ← BitVec.toNat_inj, BitVec.toNat_allOnes]

theorem expField_eq_zero_iff : expField b = 0 ↔ b.extractLsb' w.fracBits w.expBits = 0#w.expBits := by
  rw [expField_eq_extractLsb', ← BitVec.toNat_inj, BitVec.toNat_zero]

theorem fracField_eq_zero_iff : fracField b = 0 ↔ b.extractLsb' 0 w.fracBits = 0#w.fracBits := by
  rw [fracField_eq_extractLsb', ← BitVec.toNat_inj, BitVec.toNat_zero]

theorem signBit_eq_true_iff : signBit b = true ↔ ¬ b.extractLsb' (w.bits - 1) 1 = 0#1 := by
  rw [signBit_eq_getLsbD, BitVec.getLsbD_eq_extractLsb', beq_iff_eq]
  rcases BitVec.eq_zero_or_eq_one (b.extractLsb' (w.bits - 1) 1) with h | h <;> simp [h]

/-- The quiet bit is the top bit of the mantissa. -/
theorem quietBit_iff : fracField b / 2 ^ (w.fracBits - 1) = 1 ↔ b.extractLsb' (w.fracBits - 1) 1 = 1#1 := by
  have hf : w.fracBits ≠ 0 := by cases w <;> decide
  rw [fracField, ← pow_sub_one_mul hf 2, Nat.mod_mul_right_div_self, ← BitVec.toNat_inj, BitVec.extractLsb'_toNat,
    Nat.shiftRight_eq_div_pow]
  rfl

/-- R80 and R81 at once: the classifier of either width by its bit slices. -/
theorem classify_eq_slices :
    classify b =
      if b.extractLsb' w.fracBits w.expBits = BitVec.allOnes w.expBits then
        (if b.extractLsb' 0 w.fracBits = 0#w.fracBits then
          (if b.extractLsb' (w.bits - 1) 1 = 0#1 then .posInfinity else .negInfinity)
         else if b.extractLsb' (w.fracBits - 1) 1 = 1#1 then .quietNaN else .signalingNaN)
      else if b.extractLsb' w.fracBits w.expBits = 0#w.expBits then
        (if b.extractLsb' 0 w.fracBits = 0#w.fracBits then
          (if b.extractLsb' (w.bits - 1) 1 = 0#1 then .posZero else .negZero)
         else .denormal)
      else .normal := by
  simp only [classify, expField_eq_ones_iff, expField_eq_zero_iff, fracField_eq_zero_iff, signBit_eq_true_iff,
    quietBit_iff, ite_not]

end Slices

/-- Settles O15, the slices at binary32. -/
theorem classify32 : Obligations.Classify32 := fun b => classify_eq_slices (w := .w32) b

/-- Settles O16, the slices at binary64. -/
theorem classify64 : Obligations.Classify64 := fun b => classify_eq_slices (w := .w64) b

/-! ### The case tables -/

/-- The eight classes (R17). -/
def FloatClass.all : List FloatClass :=
  [.normal, .posZero, .negZero, .posInfinity, .negInfinity, .quietNaN, .signalingNaN, .denormal]

theorem FloatClass.mem_all (c : FloatClass) : c ∈ all := by cases c <;> decide

/-- A claim about the entries of a binary table is checked row by row (R89 to R92). -/
theorem FloatClass.forall_pair {p : FloatClass → FloatClass → Prop} (h : ∀ ca ∈ all, ∀ cb ∈ all, p ca cb)
    (ca cb : FloatClass) : p ca cb :=
  h ca ca.mem_all cb cb.mem_all

theorem BinaryOp.table_eq_unimplemented_iff (op : BinaryOp) : ∀ ca cb : FloatClass, op.table ca cb = .unimplemented ↔
    (ca = .signalingNaN ∨ ca = .denormal ∨ cb = .signalingNaN ∨ cb = .denormal) :=
  FloatClass.forall_pair (by cases op <;> decide)

theorem BinaryOp.table_eq_invalid_of_quietNaN (op : BinaryOp) : ∀ ca cb : FloatClass,
    op.table ca cb ≠ .unimplemented → (ca = .quietNaN ∨ cb = .quietNaN) → op.table ca cb = .invalid :=
  FloatClass.forall_pair (by cases op <;> decide)

theorem BinaryOp.table_eq_divideByZero_iff (op : BinaryOp) : ∀ ca cb : FloatClass, op.table ca cb = .divideByZero ↔
    (op = .div ∧ cb.isZero = true ∧ (ca = .normal ∨ ca.isInfinity = true)) :=
  FloatClass.forall_pair (by cases op <;> decide)

theorem UnaryOp.table_eq_unimplemented_iff (op : UnaryOp) (c : FloatClass) : op.table c = .unimplemented ↔
    (c = .signalingNaN ∨ c = .denormal) := by
  cases op <;> cases c <;> decide

theorem UnaryOp.table_eq_invalid_iff (op : UnaryOp) (c : FloatClass) : op.table c = .invalid ↔
    (c = .quietNaN ∨ (op = .sqrt ∧ c = .negInfinity)) := by
  cases op <;> cases c <;> decide

/-- Settles O17: each clause holds of every entry of every table. -/
theorem tablePrecedence : Obligations.TablePrecedence :=
  ⟨fun op ca cb => ⟨op.table_eq_unimplemented_iff ca cb, op.table_eq_invalid_of_quietNaN ca cb,
    op.table_eq_divideByZero_iff ca cb⟩, fun op c => ⟨op.table_eq_unimplemented_iff c, op.table_eq_invalid_iff c⟩⟩

/-! ### The division by a Zero -/

/-- ADD, SUB, MUL and DIV of either width are the binary engine (R110 to R117). -/
theorem exec_binaryInstr (op : BinaryOp) (w : Width) (fd fs ft : RegIx) (s : State) :
    exec (binaryInstr op w fd fs ft) s = .next (binaryArith params op w fd fs ft s) := by
  cases op <;> cases w <;> rfl

theorem binaryArith_of_divideByZero (q : Config.Params) {op : BinaryOp} {w : Width} (fd : RegIx) {fs ft : RegIx}
    {s : State} (h : op.table (classify (s.view w fs)) (classify (s.view w ft)) = .divideByZero) :
    binaryArith q op w fd fs ft s = divZeroPath w fd (s.view w fs) (s.view w ft) s.begin := by
  simp only [binaryArith, h]

/-- Without Underflow the dispatcher chooses between steps 3 and 4 of R253. -/
theorem dispatchThen_of_not_underflow {bits : ExcSet} (hb : bits ≠ .empty) (hu : bits.u = false)
    (commit : State → State) (s : State) :
    dispatchThen bits commit s =
      if bits.inter (enables s.fcr31) = .empty then commit (flagState bits s) else trapState bits s := by
  rw [dispatchThen_eq, dispatchPath, if_neg hb, if_neg (by simp [hu]), ite_not]
  split_ifs <;> rfl

theorem ExcSet.divZero_inter_eq_empty_iff (en : ExcSet) : divZero.inter en = .empty ↔ ¬ en.z = true := by
  simp [divZero, inter, empty]

/-- The two ends of a division by zero (R100, R253). -/
theorem divZeroPath_begin (w : Width) (fd : RegIx) (a b : Pattern w) (s : State) :
    divZeroPath w fd a b s.begin =
      if (enables s.fcr31).z then trapState .divZero s.begin
      else (flagState .divZero s.begin).setView w fd (infinity w (signBit a ^^ signBit b)) := by
  have hd := dispatchThen_of_not_underflow (bits := .divZero) (by decide) rfl
  simp only [divZeroPath, hd, State.begin_fcr31, enables_clearCauseBits, ExcSet.divZero_inter_eq_empty_iff, ite_not]

theorem setCauseBits_divZero (f : BitVec 32) : setCauseBits .divZero f = f ||| 0x00008000#32 := rfl

theorem setCauseBits_setFlagBits_divZero (f : BitVec 32) :
    setCauseBits .divZero (setFlagBits .divZero f) = f ||| 0x00008020#32 := BitVec.or_assoc ..

/-- Settles O39: the table sends the operands to the DivideByZero path, which traps or completes by Enable.Z. -/
theorem divideByZero : Obligations.DivideByZero := by
  intro w fd fs ft s a b ha hb
  rw [exec_binaryInstr, binaryArith_of_divideByZero params fd
    ((BinaryOp.table_eq_divideByZero_iff ..).2 ⟨rfl, hb, ha⟩), divZeroPath_begin, trapState, flagState,
    setCauseBits_setFlagBits_divZero, setCauseBits_divZero, signBit_eq_getLsbD, signBit_eq_getLsbD]
  congr 1
  split
  · rfl
  · cases w with
    | w32 | w64 => cases a.getLsbD _ ^^ b.getLsbD _ <;> rfl

end Sys2Proof.Machine
end

section
/-! The native results (R102): what the exact operations of finite values round to, and what becomes of infinities and
zeros. -/

namespace Sys2Proof.Machine

/-! ### Zeros and infinities as patterns -/

theorem signed_zero_w64 (neg : Bool) : signed .w64 neg 0 = if neg then 0x8000000000000000#64 else 0#64 := by
  cases neg <;> rfl

theorem signed_infMag_w64 (neg : Bool) :
    signed .w64 neg (infMag .w64) = if neg then 0xFFF0000000000000#64 else 0x7FF0000000000000#64 := by
  cases neg <;> rfl

theorem round_fin_zero (w : Width) (neg : Bool) (e : Int) : round w (.fin neg 0 e) = signed w neg 0 := by
  rw [round, roundReal, roundMag_zero]

/-- Only a NaN rounds to a NaN. -/
theorem eq_nan_of_round {w : Width} {v : Value} (h : (classify (round w v)).isNaN = true) : v = .nan := by
  cases v with
  | fin neg m e => exact absurd h (by rw [round, isNaN_roundReal]; exact Bool.false_ne_true)
  | inf neg => exact absurd h (by rw [round, isNaN_signed neg le_rfl]; exact Bool.false_ne_true)
  | nan => rfl

/-- A finite pattern has a finite value with its sign. -/
theorem val_of_isFinitePattern {w : Width} {b : Pattern w} (h : isFinitePattern b = true) :
    ∃ m e, val b = .fin (signBit b) m e := by
  obtain ⟨n, hn, hb⟩ := eq_signed_of_isFinitePattern h
  obtain ⟨m, e, hv, -⟩ := val_signed_fin (signBit b) hn
  exact ⟨m, e, by rw [← hv, ← hb]⟩

/-! ### Sums, products, quotients and roots of finite values -/

section Finite
variable (n1 n2 : Bool) (m1 m2 : Nat) (e1 e2 : Int)

/-- The native sum is the rounded exact sum, and an exact zero sum is negative only when both operands are. -/
theorem native_add_fin :
    let q := (Value.fin n1 m1 e1).toRat + (Value.fin n2 m2 e2).toRat
    IsRne .w64 (q : ℝ) (BinaryOp.add.native (.fin n1 m1 e1) (.fin n2 m2 e2)) ∧
      (q = 0 → BinaryOp.add.native (.fin n1 m1 e1) (.fin n2 m2 e2) = signed .w64 (n1 && n2) 0) := by
  obtain ⟨n, m, e, hadd, hq, hsign⟩ := add_fin n1 n2 m1 m2 e1 e2
  rw [BinaryOp.native, hadd, ← hq]
  refine ⟨isRne_round_fin .w64 n m e, fun h0 => ?_⟩
  obtain rfl := (toRat_eq_zero n m e).1 h0
  rw [round_fin_zero, hsign rfl]

/-- The native difference is the native sum with the second sign flipped. -/
theorem native_sub_fin : BinaryOp.sub.native (.fin n1 m1 e1) (.fin n2 m2 e2) =
    BinaryOp.add.native (.fin n1 m1 e1) (.fin (!n2) m2 e2) := rfl

theorem isRne_native_mul : IsRne .w64 (((Value.fin n1 m1 e1).toRat * (Value.fin n2 m2 e2).toRat : ℚ) : ℝ)
    (BinaryOp.mul.native (.fin n1 m1 e1) (.fin n2 m2 e2)) := by
  rw [← mul_toRat]
  exact isRne_round_fin .w64 _ _ _

theorem div_toRat : (Value.fin n1 m1 e1).toRat / (Value.fin n2 m2 e2).toRat =
    (if n1 ^^ n2 then -1 else 1) * ((m1 : ℚ) / m2 * 2 ^ (e1 - e2)) := by
  rw [toRat_fin, toRat_fin, mul_div_mul_comm, mul_div_mul_comm (m1 : ℚ), ← zpow_sub₀ two_ne_zero]
  congr 1
  cases n1 <;> cases n2 <;> norm_num

theorem divNative_fin (h : m2 ≠ 0) :
    divNative (.fin n1 m1 e1) (.fin n2 m2 e2) = roundReal .w64 (n1 ^^ n2) m1 m2 (e1 - e2) := by
  rw [divNative, if_neg h]

theorem isRne_native_div (h : m2 ≠ 0) : IsRne .w64 (((Value.fin n1 m1 e1).toRat / (Value.fin n2 m2 e2).toRat : ℚ) : ℝ)
    (BinaryOp.div.native (.fin n1 m1 e1) (.fin n2 m2 e2)) := by
  rw [div_toRat, BinaryOp.native, divNative_fin n1 n2 m1 m2 e1 e2 h]
  exact isRne_roundReal .w64 _ m1 _ (Nat.pos_of_ne_zero h)

/-- The root of a positive value is the root of the scaled significand times a whole power of two. -/
theorem sqrt_scaled (m : Nat) {e j : Int} {t : Nat} (h : e = t + 2 * j) :
    Real.sqrt ((m : ℝ) * 2 ^ e) = Real.sqrt ((m * 2 ^ t : Nat) : ℝ) * 2 ^ j := by
  have hpow : (2 : ℝ) ^ e = 2 ^ t * (2 ^ j * 2 ^ j) := by
    rw [h, zpow_add₀ two_ne_zero, zpow_natCast, two_mul, zpow_add₀ two_ne_zero]
  rw [hpow, ← mul_assoc, Real.sqrt_mul (by positivity), Real.sqrt_mul_self (by positivity)]
  push_cast
  rfl

theorem toRat_pos_iff : 0 < (Value.fin n1 m1 e1).toRat ↔ n1 = false ∧ m1 ≠ 0 := by
  have hnn : (0 : ℚ) ≤ (m1 : ℚ) * 2 ^ e1 := by positivity
  rw [toRat_fin]
  cases n1
  · have hpow : (0 : ℚ) < 2 ^ e1 := by positivity
    simp [mul_pos_iff_of_pos_right hpow, Nat.pos_iff_ne_zero]
  · simp [hnn.not_gt]

theorem abs_toRat : |(Value.fin n1 m1 e1).toRat| = (Value.fin false m1 e1).toRat := by
  have hnn : (0 : ℚ) ≤ (m1 : ℚ) * 2 ^ e1 := by positivity
  rw [toRat_fin, toRat_fin, abs_mul, abs_of_nonneg hnn]
  cases n1 <;> simp

theorem sqrtNative_of_pos {m : Nat} (h : m ≠ 0) (e : Int) : ∃ num k,
    sqrtNative (.fin false m e) = roundReal .w64 false num 1 k := by
  rw [sqrtNative, if_neg h, if_neg Bool.false_ne_true]
  exact ⟨_, _, rfl⟩

/-- The native root is the rounded real root. -/
theorem isRne_sqrtNative {m : Nat} (h : m ≠ 0) (e : Int) :
    IsRne .w64 (Real.sqrt ((m : ℝ) * 2 ^ e)) (sqrtNative (.fin false m e)) := by
  have hn : 2 ^ 120 ≤ m * 2 ^ (120 + (e % 2).toNat) :=
    calc 2 ^ 120 ≤ 2 ^ (120 + (e % 2).toNat) := Nat.pow_le_pow_right two_pos (Nat.le_add_right ..)
      _ ≤ m * 2 ^ (120 + (e % 2).toNat) := Nat.le_mul_of_pos_left _ (Nat.pos_of_ne_zero h)
  have hexp : e = (120 + (e % 2).toNat : Nat) + 2 * ((e - (120 + (e % 2).toNat : Nat)) / 2) := by omega
  have hr := (sqrt_between hn ((e - (120 + (e % 2).toNat : Nat)) / 2)).isRne false
  rw [sqrtNative, if_neg h, if_neg Bool.false_ne_true, sqrt_scaled m hexp]
  exact hr

/-- The native root of a positive number is the rounded real root of that number. -/
theorem isRne_native_sqrt (h : 0 < (Value.fin n1 m1 e1).toRat) :
    IsRne .w64 (Real.sqrt ((Value.fin n1 m1 e1).toRat : ℝ)) (UnaryOp.sqrt.native (.fin n1 m1 e1)) := by
  obtain ⟨rfl, hm⟩ := (toRat_pos_iff n1 m1 e1).1 h
  have hq : (((Value.fin false m1 e1).toRat : ℚ) : ℝ) = (m1 : ℝ) * 2 ^ e1 := by simp [toRat_fin]
  rw [hq]
  exact isRne_sqrtNative hm e1

end Finite

/-! ### Infinite operands -/

/-- A product with an infinity, on either side, of a number that is not zero. -/
theorem native_mul_inf (i n : Bool) {m : Nat} (e : Int) (h : m ≠ 0) :
    BinaryOp.mul.native (.inf i) (.fin n m e) = signed .w64 (i ^^ n) (infMag .w64) ∧
      BinaryOp.mul.native (.fin n m e) (.inf i) = signed .w64 (i ^^ n) (infMag .w64) := by
  rw [BinaryOp.native, BinaryOp.native, Value.mul, Value.mul, if_neg h, if_neg h, Bool.xor_comm n i]
  exact ⟨rfl, rfl⟩

/-- A sum of two infinities of one sign. -/
theorem native_add_inf (i : Bool) : BinaryOp.add.native (.inf i) (.inf i) = signed .w64 i (infMag .w64) := by
  rw [BinaryOp.native, Value.add, if_pos rfl, round]

/-- Settles O60: every native result of finite values is one rounding of the exact number, and the infinite results are
the cases of the exact operations. -/
theorem nativeIsTheRoundedExactResult : Obligations.NativeIsTheRoundedExactResult := by
  refine ⟨fun n1 n2 m1 m2 e1 e2 => ?_, fun i n m e => ?_, fun i j => ?_, fun nat => ⟨rfl, fun hf => ?_⟩, fun i => ?_⟩
  · intro x y q r
    obtain ⟨hadd, hadd0⟩ := native_add_fin n1 n2 m1 m2 e1 e2
    obtain ⟨hsub, hsub0⟩ := native_add_fin n1 (!n2) m1 m2 e1 e2
    rw [neg_toRat, ← sub_eq_add_neg] at hsub hsub0
    refine ⟨hadd, fun h => (hadd0 h).trans (signed_zero_w64 _), hsub, fun h => (hsub0 h).trans (signed_zero_w64 _),
      isRne_native_mul n1 n2 m1 m2 e1 e2, signBit_roundReal .., fun hr => ?_, fun hq => ?_,
      isRne_native_sqrt n1 m1 e1, ?_, signBit_roundReal .., ?_, signBit_roundReal ..⟩
    · have hm : m2 ≠ 0 := mt (toRat_eq_zero n2 m2 e2).2 hr
      refine ⟨isRne_native_div n1 n2 m1 m2 e1 e2 hm, ?_⟩
      rw [BinaryOp.native, divNative_fin n1 n2 m1 m2 e1 e2 hm, signBit_roundReal]
    · have hm : m1 = 0 := (toRat_eq_zero n1 m1 e1).1 hq
      exact (if_pos hm).trans (signed_zero_w64 n1)
    · rw [abs_toRat]
      exact isRne_round_fin .w64 false m1 e1
    · rw [← neg_toRat]
      exact isRne_round_fin .w64 (!n1) m1 e1
  · intro x v
    refine ⟨signed_infMag_w64 i, signed_infMag_w64 i, signed_infMag_w64 i, signed_infMag_w64 (!i), fun hx => ?_, ?_⟩
    · obtain ⟨hleft, hright⟩ := native_mul_inf i n e (mt (toRat_eq_zero n m e).2 hx)
      exact ⟨hleft.trans (signed_infMag_w64 _), hright.trans (signed_infMag_w64 _), signed_infMag_w64 _⟩
    · exact (signed_zero_w64 (n ^^ i)).trans (by rw [Bool.xor_comm])
  · have hsub : BinaryOp.sub.native (.inf i) (.inf !i) = BinaryOp.add.native (.inf i) (.inf i) := by
      simp only [BinaryOp.native, Value.sub, Value.neg, Bool.not_not]
    exact ⟨(native_add_inf i).trans (signed_infMag_w64 i), (hsub.trans (native_add_inf i)).trans (signed_infMag_w64 i),
      signed_infMag_w64 (i ^^ j), rfl, rfl, signed_infMag_w64 (!i)⟩
  · obtain ⟨m, e, hv⟩ := val_of_isFinitePattern hf
    rw [store, hv]
    exact ⟨isRne_round_fin .w32 _ m e, signBit_roundReal ..⟩
  · cases i <;> decide

/-! ### The case of an operation -/

/-- The entries of a binary table that are Invalid once no operand is Unimplemented (R89 to R92). -/
theorem BinaryOp.table_eq_invalid_iff (op : BinaryOp) : ∀ ca cb : FloatClass, op.table ca cb ≠ .unimplemented →
    (op.table ca cb = .invalid ↔
      (ca = .quietNaN ∨ cb = .quietNaN ∨
        (op = .add ∧ ca.isInfinity = true ∧ cb.isInfinity = true ∧ ca ≠ cb) ∨
        (op = .sub ∧ ca.isInfinity = true ∧ ca = cb) ∨
        (op = .mul ∧ (ca.isZero = true ∧ cb.isInfinity = true ∨ ca.isInfinity = true ∧ cb.isZero = true)) ∨
        (op = .div ∧ (ca.isZero = true ∧ cb.isZero = true ∨ ca.isInfinity = true ∧ cb.isInfinity = true)))) :=
  FloatClass.forall_pair (by cases op <;> decide)

theorem unaryCase_of_ne_normal (op : UnaryOp) {w : Width} {a : Pattern w} (h : classify a ≠ .normal) :
    unaryCase op a = op.table (classify a) := by
  rw [unaryCase, if_neg fun hc => h hc.2.1]

theorem unaryCase_sqrt_of_negative {w : Width} {a : Pattern w} (hc : classify a = .normal) (hs : signBit a = true) :
    unaryCase .sqrt a = .invalid := by
  rw [unaryCase, if_pos ⟨rfl, hc, hs⟩]

/-! ### Which native results are NaN -/

theorem val_eq_nan_iff {w : Width} (b : Pattern w) : val b = .nan ↔ (classify b).isNaN = true := by
  rcases class_val b with ⟨hc, hv⟩ | ⟨hc, hv⟩ | ⟨hc, e, hv⟩ | ⟨hc, m, e, -, hv⟩
  · simp [hc, hv]
  · cases hs : signBit b <;> simp [hc, hv, hs, FloatClass.isNaN]
  · cases hs : signBit b <;> simp [hc, hv, hs, FloatClass.isNaN]
  · rcases hc with hc | hc <;> simp [hc, hv, FloatClass.isNaN]

theorem quietNaN_of_val_nan {w : Width} {b : Pattern w} (h : val b = .nan) (hs : classify b ≠ .signalingNaN) :
    classify b = .quietNaN := by
  have hn := (val_eq_nan_iff b).1 h
  revert hn hs
  cases classify b <;> simp [FloatClass.isNaN]

theorem classify_of_val_inf {w : Width} {b : Pattern w} {neg : Bool} (h : val b = .inf neg) :
    classify b = if neg then .negInfinity else .posInfinity := by
  rcases class_val b with ⟨_, hv⟩ | ⟨hc, hv⟩ | ⟨_, e, hv⟩ | ⟨_, m, e, -, hv⟩ <;> rw [h] at hv <;> cases hv
  exact hc

theorem classify_of_val_zero {w : Width} {b : Pattern w} {neg : Bool} {e : Int} (h : val b = .fin neg 0 e) :
    classify b = if neg then .negZero else .posZero := by
  rcases class_val b with ⟨_, hv⟩ | ⟨_, hv⟩ | ⟨hc, e, hv⟩ | ⟨_, m, e, hm, hv⟩ <;> rw [h] at hv <;> cases hv
  · exact hc
  · exact absurd hm (lt_irrefl 0)

theorem classify_of_val_pos {w : Width} {b : Pattern w} {neg : Bool} {m : Nat} {e : Int} (h : val b = .fin neg m e)
    (hm : 0 < m) : (classify b = .normal ∨ classify b = .denormal) ∧ signBit b = neg := by
  rcases class_val b with ⟨_, hv⟩ | ⟨_, hv⟩ | ⟨_, e, hv⟩ | ⟨hc, m, e, -, hv⟩ <;> rw [h] at hv <;> cases hv
  · exact absurd hm (lt_irrefl 0)
  · exact ⟨hc, rfl⟩

theorem Value.add_eq_nan_iff (x y : Value) :
    x.add y = .nan ↔ x = .nan ∨ y = .nan ∨ ∃ i, x = .inf i ∧ y = .inf !i := by
  cases x with
  | fin n1 m1 e1 =>
    cases y with
    | fin n2 m2 e2 =>
      obtain ⟨n, m, e, h, -⟩ := add_fin n1 n2 m1 m2 e1 e2
      simp [h]
    | inf j => simp [Value.add]
    | nan => simp [Value.add]
  | inf i =>
    cases y with
    | fin n2 m2 e2 => simp [Value.add]
    | inf j => cases i <;> cases j <;> simp [Value.add]
    | nan => simp [Value.add]
  | nan => simp [Value.add]

theorem Value.mul_eq_nan_iff (x y : Value) :
    x.mul y = .nan ↔ x = .nan ∨ y = .nan ∨ (∃ n e i, x = .fin n 0 e ∧ y = .inf i) ∨
      ∃ i n e, x = .inf i ∧ y = .fin n 0 e := by
  cases x with
  | fin n1 m1 e1 => cases y <;> by_cases h : m1 = 0 <;> simp [Value.mul, h]
  | inf i =>
    cases y with
    | fin n2 m2 e2 => by_cases h : m2 = 0 <;> simp [Value.mul, h]
    | inf j => simp [Value.mul]
    | nan => simp [Value.mul]
  | nan => simp [Value.mul]

theorem Value.abs_eq_nan_iff (x : Value) : x.abs = .nan ↔ x = .nan := by
  cases x <;> simp [Value.abs]

theorem Value.neg_eq_nan_iff (x : Value) : x.neg = .nan ↔ x = .nan := by
  cases x <;> simp [Value.neg]

/-- The quotients that have no value: a NaN operand, zero by zero, infinity by infinity. -/
theorem divNative_isNaN {x y : Value} (h : (classify (divNative x y)).isNaN = true) :
    x = .nan ∨ y = .nan ∨ (∃ n1 e1 n2 e2, x = .fin n1 0 e1 ∧ y = .fin n2 0 e2) ∨ ∃ i j, x = .inf i ∧ y = .inf j := by
  have number : ∀ neg {mag : Nat}, mag ≤ infMag .w64 → ¬ (classify (signed .w64 neg mag)).isNaN = true :=
    fun neg _ hm => by rw [isNaN_signed neg hm]; exact Bool.false_ne_true
  cases x with
  | fin n1 m1 e1 =>
    cases y with
    | fin n2 m2 e2 =>
      by_cases h2 : m2 = 0
      · by_cases h1 : m1 = 0
        · exact .inr (.inr (.inl ⟨n1, e1, n2, e2, by rw [h1], by rw [h2]⟩))
        · rw [divNative, if_pos h2, if_neg h1] at h
          exact absurd h (number _ le_rfl)
      · rw [divNative_fin _ _ _ _ _ _ h2] at h
        exact absurd h (number _ (roundMag_le_infMag ..))
    | inf j => exact absurd h (number _ (Nat.zero_le _))
    | nan => exact .inr (.inl rfl)
  | inf i =>
    cases y with
    | fin n2 m2 e2 => exact absurd h (number _ le_rfl)
    | inf j => exact .inr (.inr (.inr ⟨i, j, rfl, rfl⟩))
    | nan => exact .inr (.inl rfl)
  | nan => exact .inl rfl

/-- The operands that make a native result NaN are operands the binary tables send to Invalid (R89 to R92, R102). -/
theorem BinaryOp.native_isNaN (op : BinaryOp) {w : Width} {a b : Pattern w}
    (hu : op.table (classify a) (classify b) ≠ .unimplemented)
    (h : (classify (op.native (val a) (val b))).isNaN = true) : op.table (classify a) (classify b) = .invalid := by
  have hs := mt (op.table_eq_unimplemented_iff (classify a) (classify b)).2 hu
  simp only [not_or] at hs
  obtain ⟨hsa, -, hsb, -⟩ := hs
  rw [op.table_eq_invalid_iff _ _ hu]
  cases op with
  | add =>
    rcases (Value.add_eq_nan_iff ..).1 (eq_nan_of_round h) with hx | hy | ⟨i, hx, hy⟩
    · exact .inl (quietNaN_of_val_nan hx hsa)
    · exact .inr (.inl (quietNaN_of_val_nan hy hsb))
    · rw [classify_of_val_inf hx, classify_of_val_inf hy]
      cases i <;> decide
  | sub =>
    rcases (Value.add_eq_nan_iff ..).1 (eq_nan_of_round h) with hx | hy | ⟨i, hx, hy⟩
    · exact .inl (quietNaN_of_val_nan hx hsa)
    · exact .inr (.inl (quietNaN_of_val_nan ((Value.neg_eq_nan_iff _).1 hy) hsb))
    · have hb : val b = .inf i := by revert hy; cases val b <;> simp [Value.neg]
      rw [classify_of_val_inf hx, classify_of_val_inf hb]
      cases i <;> decide
  | mul =>
    rcases (Value.mul_eq_nan_iff ..).1 (eq_nan_of_round h) with hx | hy | ⟨n, e, i, hx, hy⟩ | ⟨i, n, e, hx, hy⟩
    · exact .inl (quietNaN_of_val_nan hx hsa)
    · exact .inr (.inl (quietNaN_of_val_nan hy hsb))
    · rw [classify_of_val_zero hx, classify_of_val_inf hy]
      cases n <;> cases i <;> decide
    · rw [classify_of_val_inf hx, classify_of_val_zero hy]
      cases n <;> cases i <;> decide
  | div =>
    rcases divNative_isNaN h with hx | hy | ⟨n1, e1, n2, e2, hx, hy⟩ | ⟨i, j, hx, hy⟩
    · exact .inl (quietNaN_of_val_nan hx hsa)
    · exact .inr (.inl (quietNaN_of_val_nan hy hsb))
    · rw [classify_of_val_zero hx, classify_of_val_zero hy]
      cases n1 <;> cases n2 <;> decide
    · rw [classify_of_val_inf hx, classify_of_val_inf hy]
      cases i <;> cases j <;> decide

/-- The roots that have no value: of a NaN, of −∞, and of a negative number. -/
theorem sqrtNative_isNaN {x : Value} (h : (classify (sqrtNative x)).isNaN = true) :
    x = .nan ∨ x = .inf true ∨ ∃ m e, 0 < m ∧ x = .fin true m e := by
  cases x with
  | fin neg m e =>
    by_cases h0 : m = 0
    · rw [sqrtNative, if_pos h0, isNaN_signed neg (Nat.zero_le _)] at h
      cases h
    · cases neg
      · obtain ⟨num, k, hr⟩ := sqrtNative_of_pos h0 e
        rw [hr, isNaN_roundReal] at h
        cases h
      · exact .inr (.inr ⟨m, e, Nat.pos_of_ne_zero h0, rfl⟩)
  | inf neg =>
    cases neg
    · exact absurd h (by decide)
    · exact .inr (.inl rfl)
  | nan => exact .inl rfl

/-- The operands that make a native result NaN are operands whose unary case is no arithmetic one (R86 to R88, R101). -/
theorem UnaryOp.native_isNaN (op : UnaryOp) {w : Width} {a : Pattern w}
    (h : (classify (op.native (val a))).isNaN = true) :
    unaryCase op a = .unimplemented ∨ unaryCase op a = .invalid := by
  have nan : val a = .nan → unaryCase op a = .unimplemented ∨ unaryCase op a = .invalid := fun hv => by
    have hn := (val_eq_nan_iff a).1 hv
    rw [unaryCase_of_ne_normal op fun hc => by rw [hc] at hn; cases hn]
    revert hn
    cases op <;> cases classify a <;> decide
  cases op with
  | sqrt =>
    rcases sqrtNative_isNaN h with hv | hv | ⟨m, e, hm, hv⟩
    · exact nan hv
    · have hc : classify a = .negInfinity := classify_of_val_inf hv
      rw [unaryCase_of_ne_normal .sqrt (by rw [hc]; decide), hc]
      exact .inr rfl
    · obtain ⟨hc, hs⟩ := classify_of_val_pos hv hm
      rcases hc with hc | hc
      · exact .inr (unaryCase_sqrt_of_negative hc hs)
      · rw [unaryCase_of_ne_normal .sqrt (by rw [hc]; decide), hc]
        exact .inl rfl
  | abs => exact nan ((Value.abs_eq_nan_iff _).1 (eq_nan_of_round h))
  | neg => exact nan ((Value.neg_eq_nan_iff _).1 (eq_nan_of_round h))

/-- Settles O18: a NaN native result comes of operands the tables send to Unimplemented or Invalid. -/
theorem nativeIsNeverNaN : Obligations.NativeIsNeverNaN := by
  refine ⟨fun op w a b hu hi _ => ?_, fun op w a hu hi => ?_⟩
  · exact Bool.eq_false_iff.2 (mt (op.native_isNaN hu) hi)
  · exact Bool.eq_false_iff.2 fun h => (op.native_isNaN h).elim hu hi

end Sys2Proof.Machine
end

section
/-! How an arithmetic operation ends (R96 to R101, R108, R253): the engine by the case of its operands, and the two ends
of each set of exceptions it raises. -/

namespace Sys2Proof.Machine

/-! ### The engine by its case -/

/-- SQRT, ABS and NEG of either width are the unary engine (R118 to R123). -/
theorem exec_unaryInstr (op : UnaryOp) (w : Width) (fd fs : RegIx) (s : State) :
    exec (unaryInstr op w fd fs) s = .next (unaryArith op w fd fs s) := by
  cases op <;> cases w <;> rfl

section Engine
variable (q : Config.Params) {w : Width} (fd : RegIx) {fs ft : RegIx} {s : State}

theorem binaryArith_of_unimplemented {op : BinaryOp}
    (h : op.table (classify (s.view w fs)) (classify (s.view w ft)) = .unimplemented) :
    binaryArith q op w fd fs ft s = raiseUnimplemented s.begin := by
  simp only [binaryArith, h]

theorem binaryArith_of_invalid {op : BinaryOp}
    (h : op.table (classify (s.view w fs)) (classify (s.view w ft)) = .invalid) :
    binaryArith q op w fd fs ft s = invalidPath w fd s.begin := by
  simp only [binaryArith, h]

/-- Every other case is the arithmetic path (R96). -/
theorem binaryArith_of_arithmetic {op : BinaryOp}
    (h : op.table (classify (s.view w fs)) (classify (s.view w ft)) ∉ [.unimplemented, .invalid, .divideByZero]) :
    binaryArith q op w fd fs ft s = binaryEvaluate q op w fd (s.view w fs) (s.view w ft) s.begin := by
  revert h
  simp only [binaryArith]
  cases op.table (classify (s.view w fs)) (classify (s.view w ft)) <;> simp

theorem unaryArith_of_unimplemented {op : UnaryOp} (h : unaryCase op (s.view w fs) = .unimplemented) :
    unaryArith op w fd fs s = raiseUnimplemented s.begin := by
  simp only [unaryArith, h]

theorem unaryArith_of_invalid {op : UnaryOp} (h : unaryCase op (s.view w fs) = .invalid) :
    unaryArith op w fd fs s = invalidPath w fd s.begin := by
  simp only [unaryArith, h]

/-- Every other case is the arithmetic path (R97). -/
theorem unaryArith_of_arithmetic {op : UnaryOp} (h : unaryCase op (s.view w fs) ∉ [.unimplemented, .invalid]) :
    unaryArith op w fd fs s = unaryEvaluate op w fd (s.view w fs) s.begin := by
  revert h
  simp only [unaryArith]
  cases unaryCase op (s.view w fs) <;> simp

end Engine

/-- Settles O37: the tables send these operands to Unimplemented. -/
theorem arithmeticUnimplemented : Obligations.ArithmeticUnimplemented := by
  refine ⟨fun op w fd fs ft s h => ?_, fun op w fd fs s h => ?_⟩
  · rw [exec_binaryInstr, binaryArith_of_unimplemented params fd ((op.table_eq_unimplemented_iff ..).2 h)]
    rfl
  · have hn : classify (s.view w fs) ≠ .normal := by rcases h with h | h <;> rw [h] <;> decide
    have hc := (unaryCase_of_ne_normal op hn).trans ((op.table_eq_unimplemented_iff _).2 h)
    rw [exec_unaryInstr, unaryArith_of_unimplemented fd hc]
    rfl

/-- Settles O47: MOV writes a view of the state after ClearCause. -/
theorem moveCopiesThePattern : Obligations.MoveCopiesThePattern := by
  intro w fd fs s
  cases w with
  | w32 | w64 => rfl

/-! ### The Invalid path -/

theorem ExcSet.invalid_inter_eq_empty_iff (en : ExcSet) : invalid.inter en = .empty ↔ ¬ en.v = true := by
  simp [invalid, inter, empty]

/-- The two ends of an invalid operation (R99, R253). -/
theorem invalidPath_begin (w : Width) (fd : RegIx) (s : State) :
    invalidPath w fd s.begin =
      if (enables s.fcr31).v then trapState .invalid s.begin
      else (flagState .invalid s.begin).setView w fd (canonicalNaN w) := by
  have hd := dispatchThen_of_not_underflow (bits := .invalid) (by decide) rfl
  simp only [invalidPath, hd, State.begin_fcr31, enables_clearCauseBits, ExcSet.invalid_inter_eq_empty_iff, ite_not]

theorem setCauseBits_invalid (f : BitVec 32) : setCauseBits .invalid f = f ||| 0x00010000#32 := rfl

theorem setCauseBits_setFlagBits_invalid (f : BitVec 32) :
    setCauseBits .invalid (setFlagBits .invalid f) = f ||| 0x00010040#32 := BitVec.or_assoc ..

/-- Settles O38: the operands go to the Invalid path, by the tables or as a negative root, and it traps or completes by
Enable.V. -/
theorem arithmeticInvalid : Obligations.ArithmeticInvalid := by
  unfold Obligations.ArithmeticInvalid
  intro after
  have ends : ∀ w fd s, invalidPath w fd s.begin = after w fd s := fun w fd s => by
    rw [invalidPath_begin, trapState, flagState, setCauseBits_setFlagBits_invalid, setCauseBits_invalid]
    cases w with
    | w32 | w64 => rfl
  refine ⟨fun op w fd fs ft s => ?_, fun op w fd fs s h => ?_, by decide, by decide⟩
  · intro ca cb ha ha' hb hb' h
    have hu : op.table ca cb ≠ .unimplemented := by
      rw [ne_eq, op.table_eq_unimplemented_iff]
      simp [ha, ha', hb, hb']
    rw [exec_binaryInstr, binaryArith_of_invalid params fd ((op.table_eq_invalid_iff _ _ hu).2 h), ends]
  · have hc : unaryCase op (s.view w fs) = .invalid := by
      rcases h with h | ⟨rfl, h | ⟨h, hs⟩⟩
      · rw [unaryCase_of_ne_normal op (by rw [h]; decide), op.table_eq_invalid_iff]
        exact .inl h
      · rw [unaryCase_of_ne_normal _ (by rw [h]; decide), h]
        rfl
      · exact unaryCase_sqrt_of_negative h (by rw [signBit_eq_getLsbD, hs])
    rw [exec_unaryInstr, unaryArith_of_invalid fd hc, ends]

/-! ### Overflow and Inexact -/

/-- Settles O31: whatever an operation records as causes, Overflow among them comes with Inexact. -/
theorem overflowComesWithInexact : Obligations.OverflowComesWithInexact := by
  intro i s t ho h
  cases exec_opEffect ho h with
  | commitReg w fd _ bits path v => simpa using path.ok.overflow
  | commitCond _ bits _ path b => simpa using path.ok.overflow
  | unimplemented => simp [ExcSet.empty]
  | trap bits ok => simpa using ok.overflow

/-- The exceptions of an arithmetic result that did not underflow: Inexact when `i`, Overflow when `o`. -/
def overflowSet (o i : Bool) : ExcSet := ⟨i, false, o, false, false⟩

theorem overflowSet_inter_eq_empty_iff (o i : Bool) (en : ExcSet) :
    (overflowSet o i).inter en = .empty ↔ (i && en.i || o && en.o) = false := by
  simp [overflowSet, ExcSet.inter, ExcSet.empty]

theorem setCauseBits_overflowSet {o i : Bool} (f : BitVec 32) (hoi : o = true → i = true) (hi : i = true) :
    setCauseBits (overflowSet o i) f = f ||| (if o then 0x00005000#32 else 0x00001000#32) := by
  subst hi
  cases o <;> rfl

theorem setCauseBits_setFlagBits_overflowSet {o i : Bool} (f : BitVec 32) (hoi : o = true → i = true) :
    setCauseBits (overflowSet o i) (setFlagBits (overflowSet o i) f) =
      f ||| (if o then 0x00005014#32 else if i then 0x00001004#32 else 0#32) := by
  cases o
  · cases i <;> exact BitVec.or_assoc ..
  · rw [hoi rfl]
    exact BitVec.or_assoc ..

/-- A result that raises nothing completes, whatever the enables (R253 step 1). -/
theorem dispatchThen_overflowSet_none (commit : State → State) (s : State) :
    dispatchThen (overflowSet false false) commit s = commit s := rfl

/-- The two ends of a result that did not underflow (R108, R253). -/
theorem dispatchThen_overflowSet {o i : Bool} (hoi : o = true → i = true) (commit : State → State) (s : State) :
    let enabled : Bool := i && (enables s.fcr31).i || o && (enables s.fcr31).o
    (enabled = false → dispatchThen (overflowSet o i) commit s.begin = commit
      { s with
        fcr31 := clearCauseBits s.fcr31 ||| (if o then 0x00005014#32 else if i then 0x00001004#32 else 0#32)
        trap := false, reply := .silent }) ∧
    (enabled = true → dispatchThen (overflowSet o i) commit s.begin =
      { s with
        fcr31 := clearCauseBits s.fcr31 ||| (if o then 0x00005000#32 else 0x00001000#32)
        trap := true, reply := .silent }) := by
  cases i with
  | false =>
    obtain rfl : o = false := Bool.eq_false_iff.2 fun ho => Bool.false_ne_true (hoi ho)
    refine ⟨fun _ => ?_, fun he => absurd he Bool.false_ne_true⟩
    simp only [dispatchThen_overflowSet_none, Bool.false_eq_true, if_false, BitVec.or_zero]
    rfl
  | true =>
    have hne : overflowSet o true ≠ .empty := by cases o <;> decide
    rw [dispatchThen_of_not_underflow hne rfl, State.begin_fcr31, enables_clearCauseBits, trapState, flagState,
      setCauseBits_setFlagBits_overflowSet _ fun _ => rfl, setCauseBits_overflowSet _ (fun _ => rfl) rfl]
    simp only [overflowSet_inter_eq_empty_iff]
    exact ⟨fun he => if_pos he, fun he => if_neg fun h => Bool.false_ne_true (h.symm.trans he)⟩

/-! ### The arithmetic path -/

/-- Underflow of the operands' native result, in the words of R105. -/
theorem underflows_eq_true_iff {w : Width} (pre : Pattern w) (nat : Pattern .w64) : underflows pre nat = true ↔
    (classify pre = .denormal ∨ (classify pre).isZero = true) ∧ (classify nat).isZero = false := by
  simp [underflows, nonzero]

/-- The arithmetic path of a binary operation that does not underflow (R103, R104, R107, D7). -/
theorem binaryEvaluate_of_not_underflow (op : BinaryOp) (w : Width) (fd : RegIx) (a b : Pattern w) (s : State) :
    let nat := op.native (val a) (val b)
    let sb := store w nat
    let overflow : Bool := (classify sb).isInfinity && !(classify a).isInfinity && !(classify b).isInfinity
    let changed : Bool := w == .w32 && !(val sb).numEq (val nat)
    let equalPattern : Bool := (op == .add || op == .sub) && w == .w32 &&
      (sb == a && !(classify b).isZero || sb == b && !(classify a).isZero)
    underflows sb nat = false → binaryEvaluate params op w fd a b s =
      dispatchThen (overflowSet overflow (overflow || changed || equalPattern)) (fun t => t.setView w fd sb) s := by
  intro nat sb overflow changed equalPattern hu
  have hchanged : roundTripInexact w sb nat = changed := by cases w <;> rfl
  have hrule : eqOperandRule params op w = ((op == .add || op == .sub) && w == .w32) := by
    simp [eqOperandRule, params, Config.Params.specDefault]
  have hbits : binaryBits params op a b sb nat = overflowSet overflow (overflow || changed || equalPattern) := by
    simp only [binaryBits, hu, hchanged, hrule, overflowSet, Bool.or_false, Bool.or_comm changed]
    rfl
  have hresult : binaryResult (roundingMode s.fcr31) sb nat = sb := if_neg (Bool.eq_false_iff.1 hu)
  rw [binaryEvaluate, hbits, hresult]

/-- Settles O40: the arithmetic path dispatches Overflow and Inexact and writes the stored result. -/
theorem binaryArithmeticCompletes : Obligations.BinaryArithmeticCompletes := by
  intro op w fd fs ft s a b nat sb overflow changed equalPattern inexact enabled hcase hzero
  have hu : underflows sb nat = false := by
    rw [Bool.eq_false_iff, ne_eq, underflows_eq_true_iff]
    exact fun ⟨hs, hn⟩ => Bool.false_ne_true (hn.symm.trans (hzero hs))
  have hoi : overflow = true → inexact = true := fun h => by simp [inexact, h]
  obtain ⟨hflag, htrap⟩ := dispatchThen_overflowSet hoi (fun t => t.setView w fd sb) s
  rw [exec_binaryInstr, binaryArith_of_arithmetic params fd hcase, binaryEvaluate_of_not_underflow _ _ _ _ _ _ hu]
  exact ⟨fun h => congrArg _ (hflag h), fun h => congrArg _ (htrap h)⟩

/-- The arithmetic path of a unary operation (R97, R103, R104). -/
theorem unaryEvaluate_eq (op : UnaryOp) (w : Width) (fd : RegIx) (a : Pattern w) (s : State) :
    let nat := op.native (val a)
    let sb := store w nat
    let overflow : Bool := (classify sb).isInfinity && !(classify a).isInfinity
    unaryEvaluate op w fd a s =
      dispatchThen (overflowSet overflow (overflow || w == .w32 && !(val sb).numEq (val nat)))
        (fun t => t.setView w fd sb) s := by
  intro nat sb overflow
  have hchanged : roundTripInexact w sb nat = (w == .w32 && !(val sb).numEq (val nat)) := by cases w <;> rfl
  rw [Bool.or_comm, ← hchanged]
  rfl

theorem unaryCase_sqrt_of_arithmetic {w : Width} {a : Pattern w}
    (h : (classify a = .normal ∧ signBit a = false) ∨ (classify a).isZero = true ∨ classify a = .posInfinity) :
    unaryCase .sqrt a = .sqrt := by
  have hneg : ¬ (UnaryOp.sqrt = .sqrt ∧ classify a = .normal ∧ signBit a = true) := by
    rintro ⟨-, hc, hs⟩
    rw [hc, hs] at h
    revert h
    decide
  rw [unaryCase, if_neg hneg]
  revert h
  cases classify a <;> simp [FloatClass.isZero, UnaryOp.table, sqrtTable]

/-- Settles O45: the root's path dispatches Overflow and Inexact and writes the stored root. -/
theorem sqrtCompletes : Obligations.SqrtCompletes := by
  intro w fd fs s a nat sb overflow inexact enabled h
  rw [← signBit_eq_getLsbD] at h
  have hcase : unaryCase .sqrt a ∉ [.unimplemented, .invalid] := by
    rw [unaryCase_sqrt_of_arithmetic h]
    decide
  have hoi : overflow = true → inexact = true := fun h => by simp [inexact, h]
  obtain ⟨hflag, htrap⟩ := dispatchThen_overflowSet hoi (fun t => t.setView w fd sb) s
  rw [exec_unaryInstr, unaryArith_of_arithmetic fd hcase, unaryEvaluate_eq]
  exact ⟨fun h => congrArg _ (hflag h), fun h => congrArg _ (htrap h)⟩

/-! ### Underflow -/

/-- The two ends of an underflow (R105, R253). -/
theorem dispatchThen_underflow (commit : State → State) (s : State) :
    dispatchThen ⟨true, true, false, false, false⟩ commit s.begin =
      if flushSubnormals s.fcr31 = true ∧ (enables s.fcr31).u = false ∧ (enables s.fcr31).i = false then
        commit { s with fcr31 := clearCauseBits s.fcr31 ||| 0x0000300C#32, trap := false, reply := .silent }
      else { s with fcr31 := clearCauseBits s.fcr31 ||| 0x00020000#32, trap := true, reply := .silent } := by
  rw [dispatchThen_eq, State.begin_fcr31, dispatchPath_clearCauseBits]
  split_ifs with h
  · obtain ⟨hf, hu, hi⟩ := h
    have hp : dispatchPath s.fcr31 ⟨true, true, false, false, false⟩ = .flag := by
      simp [dispatchPath, ExcSet.empty, ExcSet.inter, hf, hu, hi]
    have hflag : flagState ⟨true, true, false, false, false⟩ s.begin =
        { s with fcr31 := clearCauseBits s.fcr31 ||| 0x0000300C#32, trap := false, reply := .silent } :=
      congrArg s.begin.setFcr31 (BitVec.or_assoc ..)
    rw [hp, hflag]
  · have hp : dispatchPath s.fcr31 ⟨true, true, false, false, false⟩ = .unimplemented := by
      rw [dispatchPath, if_neg (by decide), if_pos]
      revert h
      cases flushSubnormals s.fcr31 <;> cases (enables s.fcr31).u <;> cases (enables s.fcr31).i <;> decide
    rw [hp]
    rfl

/-- Underflow comes with Inexact and nothing else (R105, R253). -/
theorem BitsOk.eq_of_underflow {x : ExcSet} (ok : BitsOk x) (h : x.u = true) :
    x = ⟨true, true, false, false, false⟩ := by
  obtain ⟨hi, ho, hz, hv⟩ := ok.underflow h
  cases x
  simp_all only

/-- Settles O41: an underflow dispatches Inexact and Underflow and writes the table entry. -/
theorem underflowSubstitution : Obligations.UnderflowSubstitution := by
  intro op w fd fs ft s a b nat sb neg entry hcase hs hn
  have hu : underflows sb nat = true := (underflows_eq_true_iff ..).2 ⟨hs, hn⟩
  have hentry : underflowTable w (roundingMode s.fcr31) (signBit nat) = entry := by
    have hneg : signBit nat = neg := signBit_eq_getLsbD nat
    simp only [entry, ← hneg]
    cases w <;> cases roundingMode s.fcr31 <;> cases signBit nat <;> rfl
  have hresult : binaryResult (roundingMode s.begin.fcr31) sb nat = entry := by
    rw [binaryResult, if_pos hu, State.begin_fcr31, roundingMode_clearCauseBits, hentry]
  have hbits : binaryBits params op a b sb nat = ⟨true, true, false, false, false⟩ :=
    (bitsOk_binary params op a b sb nat).eq_of_underflow hu
  rw [exec_binaryInstr, binaryArith_of_arithmetic params fd hcase, binaryEvaluate, hbits, hresult,
    dispatchThen_underflow]

/-! ### Inexact at 64 bits -/

/-- A dispatch that writes a register leaves its exceptions as causes, or none besides Cause.E. -/
theorem causes_dispatchThen (bits : ExcSet) (w : Width) (fd : RegIx) (v : Pattern w) (s : State) :
    causes (dispatchThen bits (fun t => t.setView w fd v) s.begin).fcr31 = .empty ∨
      causes (dispatchThen bits (fun t => t.setView w fd v) s.begin).fcr31 = bits := by
  rcases dispatchThen_cases bits (fun t => t.setView w fd v) s.begin with
    ⟨-, e⟩ | ⟨-, -, e⟩ | ⟨-, -, e⟩ | ⟨-, -, e⟩ <;> simp [e]

/-- The causes a binary operation can leave (R96). -/
theorem causes_binaryArith (q : Config.Params) (op : BinaryOp) (w : Width) (fd fs ft : RegIx) (s : State) :
    let nat := op.native (val (s.view w fs)) (val (s.view w ft))
    causes (binaryArith q op w fd fs ft s).fcr31 ∈
      [.empty, .invalid, .divZero, binaryBits q op (s.view w fs) (s.view w ft) (store w nat) nat] := by
  unfold binaryArith
  dsimp only
  split
  · simp
  · rcases causes_dispatchThen .invalid w fd (canonicalNaN w) s with h | h <;> simp [invalidPath, h]
  · rcases causes_dispatchThen .divZero w fd (infinity w (signBit (s.view w fs) ^^ signBit (s.view w ft))) s with
      h | h <;> simp [divZeroPath, h]
  all_goals
    unfold binaryEvaluate
    dsimp only
    rcases causes_dispatchThen _ w fd _ s with h | h <;> rw [h] <;> simp

/-- The causes a unary operation can leave (R97). -/
theorem causes_unaryArith (op : UnaryOp) (w : Width) (fd fs : RegIx) (s : State) :
    let nat := op.native (val (s.view w fs))
    causes (unaryArith op w fd fs s).fcr31 ∈ [.empty, .invalid, unaryBits (s.view w fs) (store w nat) nat] := by
  unfold unaryArith
  dsimp only
  split
  · simp
  · rcases causes_dispatchThen .invalid w fd (canonicalNaN w) s with h | h <;> simp [invalidPath, h]
  all_goals
    unfold unaryEvaluate
    dsimp only
    rcases causes_dispatchThen _ w fd _ s with h | h <;> rw [h] <;> simp

theorem binaryBits_w64_inexact (op : BinaryOp) (a b pre nat : Pattern .w64) :
    (binaryBits params op a b pre nat).i = true →
      (binaryBits params op a b pre nat).o = true ∨ (binaryBits params op a b pre nat).u = true := by
  simp [binaryBits, roundTripInexact, eqOperandRule, params, Config.Params.specDefault]

end Sys2Proof.Machine
end

section
/-! Exact results: every pattern of either width is a binary64 value, so a native result that is such a value is stored
unchanged and raises nothing (R102, R103). -/

namespace Sys2Proof.Machine

/-! ### Every magnitude is a binary64 magnitude -/

/-- A nonzero significand below `2^24` fills the 53 bits of a binary64 one at a lower exponent. -/
theorem exists_magRat_w64 (w : Width) {n : Nat} (h : n < infMag w) :
    ∃ k, k < infMag .w64 ∧ magRat .w64 k = magRat w n := by
  cases w with
  | w64 => exact ⟨n, h, rfl⟩
  | w32 =>
    obtain ⟨d, q, rfl, hq, hd⟩ := mag_scaled .w32 n
    rw [magRat_scaled hq.le hd]
    rcases Nat.eq_zero_or_pos q with rfl | hpos
    · exact ⟨0, infMag_pos _, by rw [magRat_zero, Nat.cast_zero, zero_mul]⟩
    have hlow : 2 ^ q.log2 ≤ q := Nat.log2_self_le hpos.ne'
    have hhigh : q < 2 ^ (q.log2 + 1) := Nat.lt_log2_self
    have hlog : q.log2 ≤ 23 := by
      by_contra hc
      have := Nat.pow_le_pow_right two_pos (show 24 ≤ q.log2 by omega)
      simp only [Width.fracBits] at hq
      omega
    have hsplit : 2 ^ 52 = 2 ^ q.log2 * 2 ^ (52 - q.log2) := by rw [← Nat.pow_add]; congr 1; omega
    have hQlow : 2 ^ 52 ≤ q * 2 ^ (52 - q.log2) := hsplit ▸ Nat.mul_le_mul_right _ hlow
    have hQhigh : q * 2 ^ (52 - q.log2) < 2 ^ 53 := by
      have := Nat.mul_lt_mul_of_pos_right hhigh (Nat.two_pow_pos (52 - q.log2))
      rw [Nat.pow_succ, Nat.mul_right_comm, ← hsplit] at this
      omega
    have hexp : (52 - q.log2 : Nat) + ((d + q.log2 + 873 : Nat) + Width.minExp .w64) = d + Width.minExp .w32 := by
      simp only [Width.minExp]; omega
    refine ⟨(d + q.log2 + 873) * 2 ^ 52 + q * 2 ^ (52 - q.log2), ?_, ?_⟩
    · have hd254 : d ≤ 254 := by simp only [infMag, Width.expBits, Width.fracBits] at h; omega
      have hbinade := Nat.mul_le_mul_right (2 ^ 52) (show d + q.log2 + 873 ≤ 1150 by omega)
      have hbound : 1150 * 2 ^ 52 + 2 ^ 53 < infMag .w64 := by decide
      exact lt_trans (Nat.add_lt_add_of_le_of_lt hbinade hQhigh) hbound
    · rw [magRat_scaled (w := .w64) hQhigh.le fun _ => hQlow, ← hexp, zpow_add₀ two_ne_zero (52 - q.log2 : Nat),
        zpow_natCast]
      push_cast
      ring

/-! ### Equal numbers -/

theorem numEq_fin_of_toRat {n1 n2 : Bool} {m1 m2 : Nat} {e1 e2 : Int}
    (h : (Value.fin n1 m1 e1).toRat = (Value.fin n2 m2 e2).toRat) :
    (Value.fin n1 m1 e1).numEq (.fin n2 m2 e2) = true := by
  rw [← atExp_toRat n1 m1 (min_le_left e1 e2), ← atExp_toRat n2 m2 (min_le_right e1 e2)] at h
  have := mul_right_cancel₀ (by positivity) h
  simpa [Value.numEq] using (by exact_mod_cast this : atExp n1 m1 e1 (min e1 e2) = atExp n2 m2 e2 (min e1 e2))

/-- Rounding a finite value depends on its number only, and on its sign when it is zero. -/
theorem round_congr (w : Width) {n1 n2 : Bool} {m1 m2 : Nat} {e1 e2 : Int}
    (h : (Value.fin n1 m1 e1).toRat = (Value.fin n2 m2 e2).toRat) (hs : m1 = 0 → n1 = n2) :
    round w (.fin n1 m1 e1) = round w (.fin n2 m2 e2) := by
  have h1 : (0 : ℚ) ≤ (m1 : ℚ) * 2 ^ e1 := by positivity
  have h2 : (0 : ℚ) ≤ (m2 : ℚ) * 2 ^ e2 := by positivity
  have hmag : (m1 : ℚ) * 2 ^ e1 = (m2 : ℚ) * 2 ^ e2 := by
    rw [toRat_fin, toRat_fin] at h
    cases n1 <;> cases n2 <;> simp only [if_true, if_false, Bool.false_eq_true] at h <;> linarith
  have hround : roundMag w m1 1 e1 = roundMag w m2 1 e2 := by
    have hb1 := roundMag_between w m1 (den := 1) one_pos e1
    have hb2 := roundMag_between w m2 (den := 1) one_pos e2
    rw [Nat.cast_one, div_one] at hb1 hb2
    rw [hmag] at hb1
    exact hb1.unique hb2
  have hsign : n1 = n2 := by
    by_cases h0 : m1 = 0
    · exact hs h0
    · have hpos : 0 < (m1 : ℚ) * 2 ^ e1 := by positivity
      rw [toRat_fin, toRat_fin, ← hmag] at h
      have := mul_right_cancel₀ hpos.ne' h
      revert this
      cases n1 <;> cases n2 <;> norm_num
  rw [round, round, roundReal, roundReal, hround, hsign]

/-! ### Exact native results -/

/-- The native result `nat` denotes the number of the pattern `b`, sign of a zero included, so storing it gives `b`
and raises nothing (R103). -/
structure ExactResult (w : Width) (b : Pattern w) (nat : Pattern .w64) : Prop where
  store : store w nat = b
  numEq : (val b).numEq (val nat) = true
  isZero : (classify nat).isZero = (classify b).isZero

theorem isZero_signed {w : Width} (neg : Bool) {n : Nat} (h : n ≤ infMag w) :
    (classify (signed w neg n)).isZero = decide (n = 0) := by
  have hp := infMag_pos w
  rw [classify_signed neg h]
  by_cases hi : n = infMag w
  · rw [if_pos hi, decide_eq_false (by omega)]
    cases neg <;> rfl
  · rw [if_neg hi]
    by_cases h0 : n = 0
    · rw [if_pos h0, decide_eq_true h0]
      cases neg <;> rfl
    · rw [if_neg h0, decide_eq_false h0]
      split <;> rfl

/-- The value of a pattern that is no NaN is its own native result. -/
theorem exact_round_val {w : Width} {b : Pattern w} (h : (classify b).isNaN = false) :
    ExactResult w b (round .w64 (val b)) := by
  rcases eq_signed_of_not_nan b h with hb | ⟨n, hn, hb⟩
  · generalize signBit b = neg at hb
    subst hb
    rw [val_signed_infMag, round]
    cases w <;> cases neg <;> exact ⟨by decide, by decide, by decide⟩
  · generalize signBit b = neg at hb
    subst hb
    obtain ⟨k, hk, hkn⟩ := exists_magRat_w64 w hn
    obtain ⟨m, e, hv, hm⟩ := val_signed_fin (w := w) neg hn
    obtain ⟨m', e', hv', hm'⟩ := val_signed_fin (w := .w64) neg hk
    have hround : round .w64 (val (signed w neg n)) = signed .w64 neg k := by
      rw [hv, round, roundReal, roundMag_of_eq_magRat hk (hm.trans hkn.symm)]
    have hzero : k = 0 ↔ n = 0 := by
      rw [← magRat_strictMono.injective.eq_iff (f := magRat .w64), hkn, magRat_zero, ← magRat_zero (w := w),
        magRat_strictMono.injective.eq_iff]
    rw [hround]
    refine ⟨?_, ?_, ?_⟩
    · cases w with
      | w64 => rw [store, magRat_strictMono.injective hkn]
      | w32 => rw [store, hv', round, roundReal, roundMag_of_eq_magRat hn (hm'.trans hkn)]
    · rw [hv, hv']
      refine numEq_fin_of_toRat ?_
      rw [toRat_fin, toRat_fin, hm, hm', hkn]
    · rw [isZero_signed neg hk.le, isZero_signed neg hn.le, decide_eq_decide]
      exact hzero

/-- An exact result does not underflow (R105). -/
theorem ExactResult.not_underflow {w : Width} {b : Pattern w} {nat : Pattern .w64} (h : ExactResult w b nat)
    (hd : classify b ≠ .denormal) : underflows b nat = false := by
  rw [Bool.eq_false_iff, ne_eq, underflows_eq_true_iff, h.isZero]
  rintro ⟨hc | hz, hn⟩
  · exact hd hc
  · exact Bool.false_ne_true (hn.symm.trans hz)

/-- A binary operation with an exact finite result writes it and raises nothing, unless the result has the pattern of
an operand and the other one is not zero (R107). -/
theorem binaryEvaluate_exact {op : BinaryOp} {w : Width} (fd : RegIx) {a b r : Pattern w} (s : State)
    (hx : ExactResult w r (op.native (val a) (val b))) (hd : classify r ≠ .denormal)
    (hi : (classify r).isInfinity = false) (ha : r = a → (classify b).isZero = true)
    (hb : r = b → (classify a).isZero = true) :
    binaryEvaluate params op w fd a b s.begin = s.begin.setView w fd r := by
  have hu := hx.not_underflow hd
  have hpat : (r == a && !(classify b).isZero || r == b && !(classify a).isZero) = false := by
    simp only [Bool.or_eq_false_iff, Bool.and_eq_false_iff, beq_eq_false_iff_ne, Bool.not_eq_false']
    exact ⟨imp_iff_not_or.1 ha, imp_iff_not_or.1 hb⟩
  have he := binaryEvaluate_of_not_underflow op w fd a b s.begin
  simp only [hx.store] at he
  rw [he hu, hi, hx.numEq, hpat]
  simp only [Bool.false_and, Bool.not_true, Bool.and_false, Bool.or_false]
  exact dispatchThen_overflowSet_none ..

/-- A unary operation with an exact result, infinite only for an infinite operand, writes it and raises nothing. -/
theorem unaryEvaluate_exact {op : UnaryOp} {w : Width} (fd : RegIx) {a r : Pattern w} (s : State)
    (hx : ExactResult w r (op.native (val a))) (hi : (classify r).isInfinity = (classify a).isInfinity) :
    unaryEvaluate op w fd a s.begin = s.begin.setView w fd r := by
  rw [unaryEvaluate_eq, hx.store, hi, hx.numEq, Bool.and_not_self]
  simp only [Bool.not_true, Bool.and_false, Bool.or_false]
  exact dispatchThen_overflowSet_none ..

/-! ### The difference of a number and itself, the sum of a number and +0 -/

theorem isFinitePattern_of_class {w : Width} {b : Pattern w} (h : classify b = .normal ∨ (classify b).isZero = true) :
    isFinitePattern b = true := by
  unfold isFinitePattern
  revert h
  cases classify b <;> decide

theorem val_of_posZero {w : Width} {b : Pattern w} (h : classify b = .posZero) : ∃ e, val b = .fin false 0 e := by
  rcases class_val b with ⟨hc, -⟩ | ⟨hc, -⟩ | ⟨hc, e, hv⟩ | ⟨hc, -⟩ <;> rw [h] at hc
  · cases hc
  · split at hc <;> cases hc
  · cases hs : signBit b
    · exact ⟨e, by rw [hv, hs]⟩
    · rw [hs] at hc
      cases hc
  · rcases hc with hc | hc <;> cases hc

/-- The native result +0 is the exact +0 of every width. -/
theorem exact_zero (w : Width) : ExactResult w 0 (signed .w64 false 0) := by
  have hzero : classify (0 : Pattern w) = .posZero := by cases w <;> decide
  obtain ⟨e, hv⟩ := val_of_posZero hzero
  rw [← round_fin_zero .w64 false e, ← hv]
  exact exact_round_val (by rw [hzero]; rfl)

theorem native_sub_self {w : Width} {a : Pattern w} (h : isFinitePattern a = true) :
    ExactResult w 0 (BinaryOp.sub.native (val a) (val a)) := by
  obtain ⟨m, e, hv⟩ := val_of_isFinitePattern h
  obtain ⟨-, h0⟩ := native_add_fin (signBit a) (!signBit a) m m e e
  rw [neg_toRat, add_neg_cancel, Bool.and_not_self] at h0
  rw [hv, native_sub_fin, h0 rfl]
  exact exact_zero w

/-- Settles O43: the exact difference is a zero, positive as the signs of the operands differ in the sum. -/
theorem subSelfIsPosZero : Obligations.SubSelfIsPosZero := by
  intro w fd fs s h
  have hcase : BinaryOp.sub.table (classify (s.view w fs)) (classify (s.view w fs)) ∉
      [.unimplemented, .invalid, .divideByZero] := by
    revert h
    cases classify (s.view w fs) <;> decide
  have hzero : classify (0 : Pattern w) = .posZero := by cases w <;> decide
  have hself : 0 = s.view w fs → (classify (s.view w fs)).isZero = true := fun h0 => by rw [← h0, hzero]; rfl
  rw [exec_binaryInstr, binaryArith_of_arithmetic params fd hcase,
    binaryEvaluate_exact fd s (native_sub_self (isFinitePattern_of_class h)) (by rw [hzero]; decide)
      (by rw [hzero]; rfl) hself hself]
  rfl

/-- A number and a positive zero have the number as their sum, and as their native sum when it is no negative zero. -/
theorem native_add_posZero {w : Width} {a b : Pattern w} (ha : classify a = .normal ∨ classify a = .posZero)
    (hb : classify b = .posZero) : BinaryOp.add.native (val a) (val b) = round .w64 (val a) := by
  have hfa : isFinitePattern a = true := isFinitePattern_of_class (ha.imp_right fun h => by rw [h]; rfl)
  obtain ⟨m1, e1, hva⟩ := val_of_isFinitePattern hfa
  obtain ⟨e2, hvb⟩ := val_of_posZero hb
  obtain ⟨n, m, e, hadd, hq, hsign⟩ := add_fin (signBit a) false m1 0 e1 e2
  rw [(toRat_eq_zero false 0 e2).2 rfl, add_zero] at hq
  rw [BinaryOp.native, hva, hvb, hadd]
  refine round_congr .w64 hq fun h0 => ?_
  rw [hsign h0, Bool.and_false]
  obtain rfl : m1 = 0 := (toRat_eq_zero _ _ _).1 (hq.symm.trans ((toRat_eq_zero _ _ _).2 h0))
  have hc := classify_of_val_zero hva
  cases hs : signBit a
  · rfl
  · rw [hs] at hc
    rcases ha with h | h <;> rw [hc] at h <;> cases h

/-- Settles O44: the exact sum is the number itself. -/
theorem addPosZeroIsIdentity : Obligations.AddPosZeroIsIdentity := by
  intro w fd fs ft s h hz
  have hcase : BinaryOp.add.table (classify (s.view w fs)) (classify (s.view w ft)) ∉
      [.unimplemented, .invalid, .divideByZero] := by
    rw [hz]
    revert h
    cases classify (s.view w fs) <;> decide
  have hx : ExactResult w (s.view w fs) (BinaryOp.add.native (val (s.view w fs)) (val (s.view w ft))) := by
    rw [native_add_posZero h hz]
    exact exact_round_val (by rcases h with h | h <;> rw [h] <;> rfl)
  rw [exec_binaryInstr, binaryArith_of_arithmetic params fd hcase,
    binaryEvaluate_exact fd s hx (by rcases h with h | h <;> rw [h] <;> decide)
      (by rcases h with h | h <;> rw [h] <;> rfl) (fun _ => by rw [hz]; rfl) (fun he => by rw [he, hz]; rfl)]
  rfl

/-! ### The sign bit -/

section SignBit
variable {w : Width} (neg : Bool) {n : Nat}

theorem signBitIndex_eq (w : Width) : w.bits - 1 = w.expBits + w.fracBits := by cases w <;> rfl

theorem getLsbD_signed (h : n ≤ infMag w) {k : Nat} (hk : k < w.bits) :
    (signed w neg n).getLsbD k = if k = w.bits - 1 then neg else n.testBit k := by
  have hl := lt_of_le_of_lt h (infMag_lt w)
  by_cases hs : k = w.bits - 1
  · rw [if_pos hs, hs, ← signBit_eq_getLsbD, signBit_signed neg hl]
  · have hlow : k < w.expBits + w.fracBits := by rw [← signBitIndex_eq]; omega
    have hsum : (if neg then 2 ^ (w.expBits + w.fracBits) else 0) + n =
        2 ^ (w.expBits + w.fracBits) * neg.toNat + n := by cases neg <;> simp
    rw [if_neg hs, ← BitVec.testBit_toNat, toNat_signed neg hl, hsum, Nat.testBit_two_pow_mul_add _ hl, if_pos hlow]

theorem getLsbD_signMask {k : Nat} (hk : k < w.bits) : (BitVec.ofNat w.bits (2 ^ (w.bits - 1))).getLsbD k =
    decide (k = w.bits - 1) := by
  rw [BitVec.getLsbD_ofNat, Nat.testBit_two_pow, decide_eq_true hk, Bool.true_and, decide_eq_decide]
  exact eq_comm

theorem signed_and_not_mask (h : n ≤ infMag w) :
    signed w neg n &&& ~~~BitVec.ofNat w.bits (2 ^ (w.bits - 1)) = signed w false n := by
  apply BitVec.eq_of_getLsbD_eq
  intro k hk
  rw [BitVec.getLsbD_and, BitVec.getLsbD_not, getLsbD_signMask hk, getLsbD_signed neg h hk, getLsbD_signed false h hk]
  by_cases hs : k = w.bits - 1 <;> simp [hs, hk]

theorem signed_xor_mask (h : n ≤ infMag w) :
    signed w neg n ^^^ BitVec.ofNat w.bits (2 ^ (w.bits - 1)) = signed w (!neg) n := by
  apply BitVec.eq_of_getLsbD_eq
  intro k hk
  rw [BitVec.getLsbD_xor, getLsbD_signMask hk, getLsbD_signed neg h hk, getLsbD_signed (!neg) h hk]
  by_cases hs : k = w.bits - 1 <;> simp [hs]

/-- A value of a sign and a magnitude, its absolute value and its negation. -/
theorem val_signed_sign (h : n ≤ infMag w) : (val (signed w neg n)).abs = val (signed w false n) ∧
    (val (signed w neg n)).neg = val (signed w (!neg) n) := by
  rcases h.eq_or_lt with rfl | hlt
  · simp only [val_signed_infMag]
    exact ⟨rfl, rfl⟩
  · simp only [val_signed _ hlt]
    split_ifs
    · exact ⟨rfl, rfl⟩
    · exact ⟨rfl, rfl⟩

theorem isInfinity_signed (h : n ≤ infMag w) : (classify (signed w neg n)).isInfinity = decide (n = infMag w) := by
  rw [classify_signed neg h]
  by_cases hi : n = infMag w
  · rw [if_pos hi, decide_eq_true hi]
    cases neg <;> rfl
  · rw [if_neg hi, decide_eq_false hi]
    cases neg <;> split_ifs <;> rfl

end SignBit

theorem eq_signed_le_of_not_nan {w : Width} (b : Pattern w) (h : (classify b).isNaN = false) :
    ∃ n, n ≤ infMag w ∧ b = signed w (signBit b) n := by
  rcases eq_signed_of_not_nan b h with hb | ⟨n, hn, hb⟩
  · exact ⟨_, le_rfl, hb⟩
  · exact ⟨n, hn.le, hb⟩

/-- A unary operation whose native result is the value of the operand's magnitude with another sign writes that
pattern (R120 to R123). -/
theorem unaryArith_resigned {op : UnaryOp} {w : Width} (fd : RegIx) {fs : RegIx} {s : State} {neg neg' : Bool} {n : Nat}
    (h : n ≤ infMag w) (ha : s.view w fs = signed w neg n)
    (hcase : unaryCase op (s.view w fs) ∉ [.unimplemented, .invalid])
    (hv : op.native (val (signed w neg n)) = round .w64 (val (signed w neg' n))) :
    unaryArith op w fd fs s = s.begin.setView w fd (signed w neg' n) := by
  have hx : ExactResult w (signed w neg' n) (op.native (val (signed w neg n))) := by
    rw [hv]
    exact exact_round_val (isNaN_signed neg' h)
  rw [unaryArith_of_arithmetic fd hcase, ha]
  exact unaryEvaluate_exact fd s hx (by rw [isInfinity_signed neg' h, isInfinity_signed neg h])

/-- Settles O46: the native result is the operand's magnitude with the new sign, which every width represents. -/
theorem absAndNegChangeTheSignBit : Obligations.AbsAndNegChangeTheSignBit := by
  intro w fd fs s a h
  have hcase : (classify a).isNaN = false ∧ unaryCase .abs a = .abs ∧ unaryCase .neg a = .neg := by
    rw [unaryCase, unaryCase, if_neg (by simp), if_neg (by simp)]
    revert h
    cases classify a <;> decide
  obtain ⟨hnan, habs, hneg⟩ := hcase
  obtain ⟨n, hn, ha⟩ := eq_signed_le_of_not_nan a hnan
  obtain ⟨hvabs, hvneg⟩ := val_signed_sign (signBit a) hn
  rw [exec_unaryInstr, exec_unaryInstr,
    unaryArith_resigned (op := .abs) fd hn ha (by rw [habs]; decide) (congrArg (round .w64) hvabs),
    unaryArith_resigned (op := .neg) fd hn ha (by rw [hneg]; decide) (congrArg (round .w64) hvneg),
    ← signed_and_not_mask (signBit a) hn, ← signed_xor_mask (signBit a) hn, ← ha]
  exact ⟨rfl, rfl⟩

/-! ### Inexact at 64 bits -/

theorem magRat_lt_overflowBound {w : Width} {n : Nat} (h : n < infMag w) : magRat w n < overflowBound w := by
  have hle : magRat w n ≤ magRat w (infMag w - 1) := magRat_strictMono.monotone (by omega)
  have hup := magUlp_pos (w := w) (infMag w - 1)
  rw [← midRat_infMag, midRat]
  linarith

theorem one_le_overflowBound (w : Width) : 1 ≤ overflowBound w := by
  have hp : ∀ k : Nat, (1 : ℚ) ≤ 2 ^ k := fun k => one_le_pow₀ one_le_two
  cases w with
  | w32 | w64 => exact one_le_mul_of_one_le_of_one_le (by norm_num) (hp _)

/-- The root of a finite binary64 number is finite. -/
theorem isInfinity_sqrtNative {n : Nat} (h : n < infMag .w64) (neg : Bool) :
    (classify (sqrtNative (val (signed .w64 neg n)))).isInfinity = false := by
  obtain ⟨m, e, hv, hm⟩ := val_signed_fin (w := .w64) neg h
  rw [hv]
  by_cases h0 : m = 0
  · rw [sqrtNative, if_pos h0, isInfinity_signed neg (Nat.zero_le _)]
    exact decide_eq_false (infMag_pos .w64).ne
  cases neg
  · have hone : (1 : ℝ) ≤ (overflowBound .w64 : ℝ) := by
      exact_mod_cast one_le_overflowBound .w64
    have hlt : ((m : ℝ) * 2 ^ e) < (overflowBound .w64 : ℝ) := by
      have hq : (m : ℚ) * 2 ^ e < overflowBound .w64 := hm ▸ magRat_lt_overflowBound h
      simpa using (Rat.cast_lt (K := ℝ)).2 hq
    have hroot : Real.sqrt ((m : ℝ) * 2 ^ e) < (overflowBound .w64 : ℝ) :=
      (Real.sqrt_lt' (by linarith)).2 (lt_of_lt_of_le hlt (le_self_pow₀ hone two_ne_zero))
    have hfin := (isRne_sqrtNative h0 e).finite (by rwa [abs_of_nonneg (Real.sqrt_nonneg _)])
    simp only [isFinitePattern, Bool.and_eq_true, Bool.not_eq_true'] at hfin
    exact hfin.2
  · rw [sqrtNative, if_neg h0, if_pos rfl]
    decide

/-- No unary operation makes an infinity of a finite binary64 number. -/
theorem isInfinity_native_unary (op : UnaryOp) {a : Pattern .w64}
    (h : (classify (op.native (val a))).isInfinity = true) : (classify a).isInfinity = true := by
  by_cases hnan : (classify a).isNaN = true
  · rw [(val_eq_nan_iff a).2 hnan] at h
    refine absurd h ?_
    cases op <;> decide
  · obtain ⟨n, hn, ha⟩ := eq_signed_le_of_not_nan a (Bool.eq_false_iff.2 hnan)
    obtain ⟨hvabs, hvneg⟩ := val_signed_sign (signBit a) hn
    have resigned : ∀ neg, (classify (round .w64 (val (signed .w64 neg n)))).isInfinity = true →
        (classify (signed .w64 (signBit a) n)).isInfinity = true := fun neg hr => by
      rw [roundOfValIsIdentity _ _ (isNaN_signed neg hn), isInfinity_signed neg hn] at hr
      rw [isInfinity_signed _ hn, hr]
    rw [ha] at h ⊢
    cases op with
    | sqrt =>
      rcases hn.eq_or_lt with rfl | hlt
      · rw [isInfinity_signed _ le_rfl, decide_eq_true rfl]
      · rw [UnaryOp.native, isInfinity_sqrtNative hlt] at h
        cases h
    | abs => exact resigned false (by rw [← hvabs]; exact h)
    | neg => exact resigned _ (by rw [← hvneg]; exact h)

theorem unaryBits_w64_inexact (op : UnaryOp) (a : Pattern .w64) :
    (unaryBits a (store .w64 (op.native (val a))) (op.native (val a))).i = false := by
  simp only [unaryBits, roundTripInexact, store, Bool.false_or, Bool.and_eq_false_iff, Bool.not_eq_false']
  exact (Bool.eq_false_or_eq_true _).symm.imp_right (isInfinity_native_unary op)

/-- Settles O42: at 64 bits only Overflow and Underflow raise Inexact, and no unary operation overflows. -/
theorem doubleArithmeticNeverInexactAlone : Obligations.DoubleArithmeticNeverInexactAlone := by
  refine ⟨fun op fd fs ft s t h => ?_, fun op fd fs s t h => ?_⟩
  · rw [exec_binaryInstr] at h
    cases h
    have hc := causes_binaryArith params op .w64 fd fs ft s
    simp only [List.mem_cons, List.not_mem_nil, or_false] at hc
    rcases hc with hc | hc | hc | hc <;> rw [hc]
    · decide
    · decide
    · decide
    · exact binaryBits_w64_inexact _ _ _ _ _
  · rw [exec_unaryInstr] at h
    cases h
    have hc := causes_unaryArith op .w64 fd fs s
    simp only [List.mem_cons, List.not_mem_nil, or_false] at hc
    rcases hc with hc | hc | hc <;> rw [hc]
    · rfl
    · rfl
    · exact unaryBits_w64_inexact ..

end Sys2Proof.Machine
end

section
/-! The four rounding functions (R145). -/

namespace Sys2Proof.Machine

/-! ### Quotients of naturals, as bounds on multiples of the divisor -/

section Quotients
variable (num : Nat) {den : Nat} (hd : 0 < den)
include hd

theorem div_bounds : ((num / den : Nat) : Int) * den ≤ num ∧ (num : Int) < ((num / den : Nat) + 1) * den :=
  ⟨by exact_mod_cast Nat.div_mul_le_self num den,
    by exact_mod_cast (Nat.div_lt_iff_lt_mul hd).1 (Nat.lt_succ_self (num / den))⟩

/-- The quotient rounded up. -/
theorem ceilDiv_bounds : (num : Int) ≤ ((num + (den - 1)) / den : Nat) * den ∧
    (((num + (den - 1)) / den : Nat) - 1 : Int) * den < num := by
  obtain ⟨hlow, hhigh⟩ := div_bounds (num + (den - 1)) hd
  rw [Nat.cast_add, Nat.cast_sub hd, Nat.cast_one] at hlow hhigh
  constructor
  · linarith
  · linarith

theorem rneQuot_bounds : 2 * (num - (rneQuot num den : Int) * den) ≤ den ∧
    -(den : Int) ≤ 2 * (num - (rneQuot num den : Int) * den) ∧
    (2 * (num - (rneQuot num den : Int) * den) = den ∨ 2 * (num - (rneQuot num den : Int) * den) = -den →
      (rneQuot num den : Int) % 2 = 0) := by
  obtain ⟨hhigh, hlow, htie⟩ := rneQuot_spec num hd
  rw [← Nat.cast_mul]
  omega

end Quotients

/-! ### Each function on both signs -/

section Signs
variable (neg : Bool) (num : Nat) {den : Nat} (hd : 0 < den)
include hd

theorem roundQuot_floor : roundQuot .floor neg num den * den ≤ signedInt neg num ∧
    signedInt neg num < (roundQuot .floor neg num den + 1) * den := by
  cases neg with
  | false => exact div_bounds num hd
  | true =>
    obtain ⟨hhigh, hlow⟩ := ceilDiv_bounds num hd
    simp only [roundQuot, signedInt, if_true]
    constructor
    · linarith
    · linarith

theorem roundQuot_ceiling : signedInt neg num ≤ roundQuot .ceiling neg num den * den ∧
    (roundQuot .ceiling neg num den - 1) * den < signedInt neg num := by
  cases neg with
  | false => exact ceilDiv_bounds num hd
  | true =>
    obtain ⟨hlow, hhigh⟩ := div_bounds num hd
    simp only [roundQuot, signedInt, if_true]
    constructor
    · linarith
    · linarith

/-- Rounding toward zero is the floor of a number from zero on, the ceiling of one up to zero. -/
theorem roundQuot_truncate : (0 ≤ signedInt neg num → roundQuot .truncate neg num den = roundQuot .floor neg num den) ∧
    (signedInt neg num ≤ 0 → roundQuot .truncate neg num den = roundQuot .ceiling neg num den) := by
  have hzero : 0 / den = (0 + (den - 1)) / den := by rw [Nat.zero_div, Nat.div_eq_of_lt (by omega)]
  cases neg with
  | false =>
    refine ⟨fun _ => rfl, fun h => ?_⟩
    obtain rfl : num = 0 := by simpa [signedInt] using h
    exact congrArg Nat.cast hzero
  | true =>
    refine ⟨fun h => ?_, fun _ => rfl⟩
    obtain rfl : num = 0 := by simpa [signedInt] using h
    exact congrArg (fun q : Nat => -(q : Int)) hzero

theorem roundQuot_nearestEven :
    let r := roundQuot .nearestEven neg num den
    let x := signedInt neg num
    2 * (x - r * den) ≤ den ∧ -(den : Int) ≤ 2 * (x - r * den) ∧
      (2 * (x - r * den) = den ∨ 2 * (x - r * den) = -den → r % 2 = 0) := by
  obtain ⟨hlow, hhigh, htie⟩ := rneQuot_bounds num hd
  cases neg with
  | false => exact ⟨hlow, hhigh, htie⟩
  | true =>
    simp only [roundQuot, signedInt, if_true, neg_mul]
    omega

end Signs

/-- Settles O19: each function bounds the exact quotient on both signs. -/
theorem roundingFunctions : Obligations.RoundingFunctions := by
  intro neg num den hd x d
  obtain ⟨hpos, hneg⟩ := roundQuot_truncate neg num hd
  refine ⟨roundQuot_floor neg num hd, roundQuot_ceiling neg num hd, ⟨fun h => ?_, fun h => ?_⟩,
    roundQuot_nearestEven neg num hd⟩
  · rw [hpos h]
    exact roundQuot_floor neg num hd
  · rw [hneg h]
    exact roundQuot_ceiling neg num hd

end Sys2Proof.Machine
end

section
/-! Widening, narrowing and the integer conversions to floating point (R141 to R143). -/

namespace Sys2Proof.Machine

/-! ### The ends the two float conversions share -/

/-- The next state of an invalid operation (R99, R253). -/
theorem invalidPath_begin_eq (w : Width) (fd : RegIx) (s : State) : invalidPath w fd s.begin =
    if (enables s.fcr31).v then
      { s with fcr31 := clearCauseBits s.fcr31 ||| 0x00010000#32, trap := true, reply := .silent }
    else ({ s with fcr31 := clearCauseBits s.fcr31 ||| 0x00010040#32, trap := false, reply := .silent } : State).setView
      w fd (canonicalNaN w) := by
  rw [invalidPath_begin, trapState, flagState, setCauseBits_setFlagBits_invalid, setCauseBits_invalid]
  rfl

/-- The class of an infinity tells its sign. -/
theorem signBit_of_class_infinity {w : Width} {b : Pattern w} {neg : Bool}
    (h : classify b = if neg then .negInfinity else .posInfinity) : signBit b = neg := by
  have hi : (classify b).isInfinity = true := by rw [h]; cases neg <;> rfl
  have hc := classify_of_val_inf (val_of_isInfinity hi)
  rw [h] at hc
  revert hc
  cases neg <;> cases signBit b <;> decide

theorem Value.numEq_comm (x y : Value) : x.numEq y = y.numEq x := by
  cases x with
  | fin n1 m1 e1 =>
    cases y with
    | fin n2 m2 e2 => rw [Value.numEq, Value.numEq, min_comm e2 e1, Bool.beq_comm]
    | inf | nan => rfl
  | inf i =>
    cases y with
    | inf j => rw [Value.numEq, Value.numEq, Bool.beq_comm]
    | fin | nan => rfl
  | nan => cases y <;> rfl

/-- What widening and narrowing share: the class of the source decides, and `convert` takes a Normal or Zero (R141,
R142). -/
def convertFloat {w : Width} (w' : Width) (fd : RegIx) (a : Pattern w) (convert : State → State) (s : State) : State :=
  match classify a with
  | .signalingNaN | .denormal => raiseUnimplemented s.begin
  | .quietNaN => invalidPath w' fd s.begin
  | .posInfinity | .negInfinity => s.begin.setView w' fd (infinity w' (signBit a))
  | .normal | .posZero | .negZero => convert s.begin

theorem widen_eq (fd fs : RegIx) (s : State) : widen fd fs s = convertFloat .w64 fd (s.view .w32 fs)
    (fun t => t.setView .w64 fd (round .w64 (val (s.view .w32 fs)))) s := rfl

theorem narrow_eq (fd fs : RegIx) (s : State) : narrow fd fs s = convertFloat .w32 fd (s.view .w64 fs)
    (dispatchThen (narrowBits (s.view .w64 fs)) fun t => t.setView .w32 fd (round .w32 (val (s.view .w64 fs)))) s := rfl

section Classes
variable {w : Width} (w' : Width) (fd : RegIx) {a : Pattern w} (convert : State → State) (s : State)

theorem convertFloat_of_unimplemented (h : classify a = .signalingNaN ∨ classify a = .denormal) :
    convertFloat w' fd a convert s = raiseUnimplemented s.begin := by
  rcases h with h | h <;> simp only [convertFloat, h]

theorem convertFloat_of_quietNaN (h : classify a = .quietNaN) :
    convertFloat w' fd a convert s = invalidPath w' fd s.begin := by
  simp only [convertFloat, h]

theorem convertFloat_of_infinity {neg : Bool} (h : classify a = if neg then .negInfinity else .posInfinity) :
    convertFloat w' fd a convert s = s.begin.setView w' fd (infinity w' neg) := by
  rw [← signBit_of_class_infinity h]
  cases neg <;> simp [convertFloat, h]

theorem convertFloat_of_number (h : classify a = .normal ∨ (classify a).isZero = true) :
    convertFloat w' fd a convert s = convert s.begin := by
  revert h
  unfold convertFloat
  cases classify a <;> simp [FloatClass.isZero]

end Classes

/-! ### Widening -/

theorem signBit_round_val {w w' : Width} {b : Pattern w} (h : isFinitePattern b = true) :
    signBit (round w' (val b)) = signBit b := by
  obtain ⟨m, e, hv⟩ := val_of_isFinitePattern h
  rw [hv, round, signBit_roundReal]

/-- Settles O48: a binary32 number is a binary64 number, so its rounding is exact and keeps the sign. -/
theorem wideningIsExact : Obligations.WideningIsExact := by
  intro fd fs s a s0
  have hexec : exec (.cvtDS fd fs) s = .next (widen fd fs s) := rfl
  rw [hexec, widen_eq]
  refine ⟨fun h => ?_, fun h => ?_, fun h => ?_, fun h => ?_, fun h => ⟨round .w64 (val a), ?_, ?_, ?_⟩⟩
  · rw [convertFloat_of_unimplemented _ _ _ _ h]
    rfl
  · rw [convertFloat_of_quietNaN _ _ _ _ h, invalidPath_begin_eq]
    rfl
  · rw [convertFloat_of_infinity _ _ _ _ (neg := false) h]
    rfl
  · rw [convertFloat_of_infinity _ _ _ _ (neg := true) h]
    rfl
  · rw [convertFloat_of_number _ _ _ _ h]
    rfl
  · have hnan : (classify a).isNaN = false := by revert h; cases classify a <;> decide
    rw [Value.numEq_comm]
    exact (exact_round_val hnan).numEq
  · calc (round .w64 (val a)).getLsbD 63 = signBit (round .w64 (val a)) := (signBit_eq_getLsbD (w := .w64) _).symm
      _ = signBit a := signBit_round_val (isFinitePattern_of_class h)
      _ = a.getLsbD 31 := signBit_eq_getLsbD a

/-! ### Narrowing -/

/-- The exceptions of a narrowing: an infinite result of a number differs from it (R141). -/
theorem narrowBits_eq_overflowSet {a : Pattern .w64} (h : isFinitePattern a = true) :
    let y : Pattern .w32 := round .w32 (val a)
    let overflow : Bool := (classify y).isInfinity
    narrowBits a = overflowSet overflow (overflow || !(val y).numEq (val a)) := by
  intro y overflow
  simp only [isFinitePattern, Bool.and_eq_true, Bool.not_eq_true'] at h
  have hi : overflow = true → (!(val y).numEq (val a)) = true := (bitsOk_narrow h.1 h.2).overflow
  rw [Bool.or_eq_right_iff_imp.2 hi]
  rfl

/-- The group of a narrowing's exceptions in the Flag and Cause fields (R29, R253). -/
theorem overflowSet_group (o i : Bool) :
    let bits : BitVec 32 := if o then 5#32 else if i then 1#32 else 0#32
    bits <<< 2 ||| bits <<< 12 = (if o then 0x00005014#32 else if i then 0x00001004#32 else 0#32) ∧
      (i = true → bits <<< 12 = if o then 0x00005000#32 else 0x00001000#32) := by
  cases o <;> cases i <;> decide

/-- Settles O49: the number's path dispatches Overflow and Inexact and writes the rounded pattern. -/
theorem narrowing : Obligations.Narrowing := by
  intro fd fs s a y s0 overflow inexact bits enabled
  have hexec : exec (.cvtSD fd fs) s = .next (narrow fd fs s) := rfl
  rw [hexec, narrow_eq]
  refine ⟨fun h => ?_, fun h => ?_, fun h => ?_, fun h => ?_, fun h => ?_⟩
  · rw [convertFloat_of_unimplemented _ _ _ _ h]
    rfl
  · rw [convertFloat_of_quietNaN _ _ _ _ h, invalidPath_begin_eq]
    rfl
  · rw [convertFloat_of_infinity _ _ _ _ (neg := false) h]
    rfl
  · rw [convertFloat_of_infinity _ _ _ _ (neg := true) h]
    rfl
  · have hoi : overflow = true → inexact = true := fun h => by simp [inexact, h]
    obtain ⟨hflag, htrap⟩ := dispatchThen_overflowSet hoi (fun t => t.setView .w32 fd y) s
    obtain ⟨hflagBits, htrapBits⟩ := overflowSet_group overflow inexact
    have hraised : enabled = true → inexact = true := fun he => by
      rcases Bool.or_eq_true_iff.1 he with h | h
      · exact (Bool.and_eq_true_iff.1 h).1
      · exact hoi (Bool.and_eq_true_iff.1 h).1
    rw [convertFloat_of_number _ _ _ _ h, narrowBits_eq_overflowSet (isFinitePattern_of_class h), BitVec.or_assoc,
      hflagBits]
    exact ⟨fun he => congrArg _ (hflag he), fun he => by rw [htrapBits (hraised he)]; exact congrArg _ (htrap he)⟩

/-! ### Integers to floating point -/

/-- CVT.S.W, CVT.S.L, CVT.D.W and CVT.D.L are the one cast (R152 to R155). -/
theorem exec_intToFloatInstr (src dst : Width) (fd fs : RegIx) (s : State) :
    exec (intToFloatInstr src dst fd fs) s = .next (intToFloat src dst fd fs s) := by
  cases src <;> cases dst <;> rfl

/-- A positive number of at most 53 bits, shifted up to exactly 53. -/
theorem exists_shift_to_53_bits {m : Nat} (hpos : 0 < m) (h : m < 2 ^ 53) :
    ∃ j, j ≤ 52 ∧ 2 ^ 52 ≤ m * 2 ^ j ∧ m * 2 ^ j < 2 ^ 53 := by
  have hlog : m.log2 < 53 := (Nat.log2_lt hpos.ne').2 h
  have hsplit : ∀ i, 2 ^ (m.log2 + i) * 2 ^ (52 - m.log2) = 2 ^ (52 + i) := fun i => by
    rw [← Nat.pow_add]
    congr 1
    omega
  refine ⟨52 - m.log2, Nat.sub_le .., ?_, ?_⟩
  · exact (hsplit 0).symm.trans_le (Nat.mul_le_mul_right _ (Nat.log2_self_le hpos.ne'))
  · exact (Nat.mul_lt_mul_of_pos_right Nat.lt_log2_self (Nat.two_pow_pos _)).trans_eq (hsplit 1)

/-- A natural number of at most 53 bits is a binary64 magnitude. -/
theorem exists_magRat_w64_natCast {m : Nat} (h : m < 2 ^ 53) : ∃ k, k < infMag .w64 ∧ magRat .w64 k = m := by
  rcases Nat.eq_zero_or_pos m with rfl | hpos
  · exact ⟨0, infMag_pos _, by rw [magRat_zero, Nat.cast_zero]⟩
  · obtain ⟨j, hj, hlow, hhigh⟩ := exists_shift_to_53_bits hpos h
    have hbound : 1074 * 2 ^ 52 + 2 ^ 53 < infMag .w64 := by decide
    have hbinade := Nat.mul_le_mul_right (2 ^ 52) (Nat.sub_le 1074 j)
    refine ⟨(1074 - j) * 2 ^ 52 + m * 2 ^ j, lt_trans (Nat.add_lt_add_of_le_of_lt hbinade hhigh) hbound, ?_⟩
    have hexp : ((1074 - j : Nat) : Int) + Width.minExp .w64 = -(j : Int) := by
      simp only [Width.minExp]
      omega
    rw [magRat_scaled (w := .w64) hhigh.le fun _ => hlow, hexp, zpow_neg, zpow_natCast, Nat.cast_mul, Nat.cast_pow,
      Nat.cast_ofNat, mul_inv_cancel_right₀ (by positivity)]

/-- An integer of at most 53 bits is cast to binary64 exactly. -/
theorem numEq_round_ofInt {n : Int} (h : n.natAbs < 2 ^ 53) : (val (round .w64 (ofInt n))).numEq (ofInt n) = true := by
  obtain ⟨k, hk, hkn⟩ := exists_magRat_w64_natCast h
  have hround : round .w64 (ofInt n) = signed .w64 (decide (n < 0)) k := by
    rw [ofInt, round, roundReal, roundMag_of_eq_magRat hk (by rw [zpow_zero, mul_one, hkn])]
  obtain ⟨m, e, hv, hm⟩ := val_signed_fin (w := .w64) (decide (n < 0)) hk
  rw [hround, hv, ofInt]
  refine numEq_fin_of_toRat ?_
  rw [toRat_fin, toRat_fin, hm, hkn, zpow_zero, mul_one]

/-- The other three casts round 2^24 + 1 and 2^53 + 1, which are no numbers of the destination. -/
theorem cast_inexact :
    (val (store .w32 (round .w64 (ofInt 16777217)))).numEq (ofInt 16777217) = false ∧
    (val (round .w64 (ofInt 9007199254740993))).numEq (ofInt 9007199254740993) = false := by
  decide

/-- Settles O50: the cast dispatches nothing, a word has at most 32 bits, and 2^24 + 1 and 2^53 + 1 are rounded. -/
theorem integerToFloatNeverRaises : Obligations.IntegerToFloatNeverRaises := by
  unfold Obligations.IntegerToFloatNeverRaises
  intro real cast
  obtain ⟨hsingle, hdouble⟩ := cast_inexact
  refine ⟨fun src dst fd fs s => ?_, fun n => ?_, ⟨16777217#32, hsingle⟩, ⟨16777217#64, hsingle⟩,
    ⟨9007199254740993#64, hdouble⟩⟩
  · have hcast : store dst (round .w64 (ofInt (s.view src fs).toInt)) = cast dst (s.view src fs).toInt := by
      cases dst <;> rfl
    rw [exec_intToFloatInstr, intToFloat, hcast]
    rfl
  · have hlow := BitVec.le_toInt n
    have hhigh := BitVec.toInt_lt (x := n)
    exact numEq_round_ofInt (by omega)

end Sys2Proof.Machine
end

section
/-! Float to integer (R144 to R149): the conversion traps, or rounds, wraps and flags Inexact. -/

namespace Sys2Proof.Machine

/-- The twenty float-to-integer instructions are the one conversion at their mode (R149, R156 to R175). -/
theorem exec_floatToIntInstr (m : FixedMode) (w n : Width) (fd fs : RegIx) (s : State) :
    exec (floatToIntInstr m w n fd fs) s = .next (floatToInt params w n (modeOf m s.fcr31) fd fs s) := by
  cases w <;> cases n <;> (rcases m with _ | _ | _ | _ | _) <;> rfl

/-! ### When the conversion is unimplemented -/

theorem floatToInt_of_unimplemented {q : Config.Params} {w n : Width} {mode : RoundingMode} (fd : RegIx) {fs : RegIx}
    {s : State} (h : f2iUnimplemented q n mode (s.view w fs) = true) :
    floatToInt q w n mode fd fs s =
      { s with fcr31 := clearCauseBits s.fcr31 ||| 0x00020000#32, trap := true, reply := .silent } := if_pos h

/-- The comparison of `|± m · 2^e|` with `2^k` is one of whole numbers (R146). -/
theorem magGe_fin (k : Nat) (neg : Bool) (m : Nat) (e : Int) :
    (Value.fin neg m e).magGe k = true ↔ 2 ^ k * 2 ^ (-e).toNat ≤ m * 2 ^ e.toNat := decide_eq_true_iff

/-- Settles O51: the class or the limit makes the conversion unimplemented, before it rounds. -/
theorem floatToIntegerUnimplemented : Obligations.FloatToIntegerUnimplemented := by
  intro m w n fd fs s a h
  have hu : f2iUnimplemented params n (modeOf m s.fcr31) a = true := by
    rw [f2iUnimplemented]
    rcases h with h | h | h | ⟨rfl, rfl, neg, mant, e, hv, hm⟩
    · simp [h]
    · simp [h]
    · simp [h]
    · simp [hv, (magGe_fin ..).2 hm]
  rw [exec_floatToIntInstr, floatToInt_of_unimplemented fd hu]

/-! ### The conversion of a number -/

/-- A Normal or Zero below the limit is unimplemented only out of range, and only under `trap` (R144, R146, R147). -/
theorem f2iUnimplemented_of_number (q : Config.Params) {w n : Width} (mode : RoundingMode) {a : Pattern w}
    (h : classify a = .normal ∨ (classify a).isZero = true) (hlim : w = .w32 → n = .w64 → (val a).magGe 56 = false) :
    f2iUnimplemented q n mode a = (q.f2iOutOfRange == .trap && !fits n (roundInt mode (val a))) := by
  have hclass : (classify a).isNaN = false ∧ (classify a).isInfinity = false ∧ (classify a == .denormal) = false := by
    revert h
    cases classify a <;> decide
  have hmag : (w == .w32 && n == .w64 && (val a).magGe 56) = false := by
    simpa only [Bool.and_eq_false_imp, Bool.and_eq_true, beq_iff_eq, and_imp] using hlim
  obtain ⟨hnan, hinf, hden⟩ := hclass
  simp only [f2iUnimplemented, hnan, hinf, hden, hmag, Bool.false_or]

/-- The two ends of a conversion that is not unimplemented (R148, R253). -/
theorem floatToInt_of_implemented {q : Config.Params} {w n : Width} {mode : RoundingMode} (fd : RegIx) {fs : RegIx}
    {s : State} (h : f2iUnimplemented q n mode (s.view w fs) = false) :
    let v := val (s.view w fs)
    let r := roundInt mode v
    let same : Bool := (ofInt r).numEq v
    (same = true → floatToInt q w n mode fd fs s = s.begin.setView n fd (BitVec.ofInt n.bits r)) ∧
    (same = false → (enables s.fcr31).i = false → floatToInt q w n mode fd fs s =
      ({ s with fcr31 := clearCauseBits s.fcr31 ||| 0x00001004#32, trap := false, reply := .silent } : State).setView
        n fd (BitVec.ofInt n.bits r)) ∧
    (same = false → (enables s.fcr31).i = true → floatToInt q w n mode fd fs s =
      { s with fcr31 := clearCauseBits s.fcr31 ||| 0x00001000#32, trap := true, reply := .silent }) := by
  intro v r same
  have hdispatch : floatToInt q w n mode fd fs s =
      dispatchThen (overflowSet false !same) (fun t => t.setView n fd (BitVec.ofInt n.bits r)) s.begin :=
    if_neg (Bool.eq_false_iff.1 h)
  obtain ⟨hflag, htrap⟩ := dispatchThen_overflowSet (o := false) (i := true) (fun _ => rfl)
    (fun t => t.setView n fd (BitVec.ofInt n.bits r)) s
  rw [hdispatch]
  refine ⟨fun he => ?_, fun he hi => ?_, fun he hi => ?_⟩
  · rw [he]
    exact dispatchThen_overflowSet_none ..
  · rw [he]
    exact hflag (by rw [hi]; rfl)
  · rw [he]
    exact htrap (by rw [hi]; rfl)

/-- An integer times a scale, from its sign and magnitude. -/
theorem signedInt_natAbs_mul (r : Int) (k : Nat) : signedInt (decide (r < 0)) (r.natAbs * k) = r * k := by
  by_cases h : r < 0
  · simp [signedInt, h, abs_of_neg h]
  · simp [signedInt, h, abs_of_nonneg (not_lt.1 h)]

/-- An integer is the value `± m · 2^e` exactly when they agree over the common denominator (R148). -/
theorem numEq_ofInt_fin (r : Int) (neg : Bool) (m : Nat) (e : Int) :
    (ofInt r).numEq (.fin neg m e) = true ↔ r * 2 ^ (-e).toNat = signedInt neg (m * 2 ^ e.toNat) := by
  have hscaled : atExp (decide (r < 0)) r.natAbs 0 (min 0 e) = r * 2 ^ (-e).toNat := by
    rw [atExp, show (0 - min 0 e).toNat = (-e).toNat by omega, signedInt_natAbs_mul, Nat.cast_pow, Nat.cast_ofNat]
  have hown : atExp neg m e (min 0 e) = signedInt neg (m * 2 ^ e.toNat) := by
    rw [atExp, show (e - min 0 e).toNat = e.toNat by omega]
  rw [ofInt, Value.numEq, hscaled, hown, beq_iff_eq]

/-- Settles O52: the machine wraps, so a number below the limit is rounded, and Inexact is the only exception. -/
theorem floatToIntegerCompletes : Obligations.FloatToIntegerCompletes := by
  intro m w n fd fs s neg mant e a r exact s0 hclass hv hlim
  have hmag : w = .w32 → n = .w64 → (val a).magGe 56 = false := fun hw hn => by
    rw [hv, Bool.eq_false_iff, ne_eq, magGe_fin, not_le]
    exact hlim hw hn
  have hu : f2iUnimplemented params n (modeOf m s.fcr31) a = false :=
    f2iUnimplemented_of_number params _ hclass hmag
  have hr : roundInt (modeOf m s.fcr31) (val a) = r := by rw [hv, roundInt]
  have hexact : exact ↔ (ofInt r).numEq (val a) = true := by rw [hv, numEq_ofInt_fin]
  obtain ⟨hwrite, hflag, htrap⟩ := floatToInt_of_implemented fd hu
  rw [hr] at hwrite hflag htrap
  rw [exec_floatToIntInstr, hexact, Bool.not_eq_true]
  exact ⟨fun h => congrArg _ (hwrite h), fun h hi => congrArg _ (hflag h hi), fun h hi => congrArg _ (htrap h hi)⟩

/-! ### The range -/

theorem fits_eq_true_iff (n : Width) (r : Int) :
    fits n r = true ↔ -(2 ^ (n.bits - 1) : Int) ≤ r ∧ r < 2 ^ (n.bits - 1) := by
  rw [fits, Bool.and_eq_true, decide_eq_true_iff, decide_eq_true_iff]

/-- Settles O53: out of range the conversion is unimplemented under `trap`, and in range the pattern written is the
integer's own. -/
theorem outOfRangeParameter : Obligations.OutOfRangeParameter := by
  intro q w n mode fd fs s a r hclass hlim
  have hu := f2iUnimplemented_of_number q (n := n) mode hclass hlim
  refine ⟨fun hout htrap => ?_, fun hin hi => ?_⟩
  · refine floatToInt_of_unimplemented fd ?_
    rw [hu, htrap, Bool.eq_false_iff.2 (mt (fits_eq_true_iff n r).1 hout)]
    rfl
  · rw [(fits_eq_true_iff n r).2 hin, Bool.not_true, Bool.and_false] at hu
    have hown : (BitVec.ofInt n.bits r).toInt = r :=
      BitVec.toInt_ofInt_eq_self (by cases n <;> decide) hin.1 hin.2
    obtain ⟨hwrite, hflag, -⟩ := floatToInt_of_implemented fd hu
    cases hx : (ofInt r).numEq (val a)
    · rw [hflag hx hi, State.view_setView, State.setView_trap]
      exact ⟨hown, rfl⟩
    · rw [hwrite hx, State.view_setView, State.setView_trap]
      exact ⟨hown, rfl⟩

end Sys2Proof.Machine
end

section
/-! The comparisons (R180, R181): the four relations of two patterns, and the comparison engine by its branches. -/

namespace Sys2Proof.Machine

/-! ### The four relations -/

/-- Trichotomy of the integers, as a count. -/
theorem int_relations_sum_eq_one (i j : Int) :
    (decide (i < j)).toNat + (i == j).toNat + (decide (j < i)).toNat = 1 := by
  rcases lt_trichotomy i j with h | rfl | h
  · simp [h, h.ne, h.not_gt]
  · simp
  · simp [h, h.ne', h.not_gt]

/-- Exactly one of less, equal, greater and unordered holds of two values, finite or not (R180). -/
theorem Value.relations_sum_eq_one (x y : Value) :
    (x.numLt y).toNat + (x.numEq y).toNat + (y.numLt x).toNat + (decide (x = .nan) || decide (y = .nan)).toNat = 1 := by
  cases x with
  | fin n1 m1 e1 =>
    cases y with
    | fin n2 m2 e2 =>
      simp only [Value.numLt, Value.numEq, min_comm e2 e1]
      exact int_relations_sum_eq_one ..
    | inf j => cases j <;> rfl
    | nan => rfl
  | inf i =>
    cases y with
    | fin n2 m2 e2 => cases i <;> rfl
    | inf j => cases i <;> cases j <;> rfl
    | nan => rfl
  | nan => cases y <;> rfl

/-- Settles O22: the relations are those of the values, and the value of a pattern is NaN when its class is. -/
theorem exactlyOneRelation : Obligations.ExactlyOneRelation := by
  intro w a b l e g u
  have hu : u = (decide (val a = .nan) || decide (val b = .nan)) := by
    simp only [u, val_eq_nan_iff, Bool.decide_eq_true]
  rw [hu]
  exact Value.relations_sum_eq_one (val a) (val b)

/-- Less values are not equal (R180). -/
theorem Value.numEq_eq_false_of_numLt {x y : Value} (h : x.numLt y = true) : x.numEq y = false := by
  have hone := Value.relations_sum_eq_one x y
  rw [h, Bool.toNat_true] at hone
  exact Bool.toNat_eq_zero.1 (by omega)

/-! ### The comparison engine by its branches -/

/-- The predicate of a condition by its row of the table (R181). -/
def Cond.predicate (c : Cond) : Predicate := ⟨c.signals, c.onLess, c.onEqual, c.onUnordered⟩

/-- C.cond.S and C.cond.D are the one comparison at their row of the table (R181 to R213). -/
theorem exec_compareInstr (w : Width) (c : Cond) (fs ft : RegIx) (s : State) :
    exec (compareInstr w c fs ft) s = .next (compare w c.predicate fs ft s) := by
  cases w <;> cases c <;> rfl

/-- The two contributions of a predicate never meet, so C is the column of the relation that holds (R180). -/
theorem contributions_eq (less equal : Bool) (x y : Value) :
    (less && x.numLt y || equal && x.numEq y) =
      if x.numLt y then less else if x.numEq y then equal else false := by
  cases hl : x.numLt y with
  | true => simp [Value.numEq_eq_false_of_numLt hl]
  | false => cases x.numEq y <;> simp

/-- The two ends of an Invalid dispatch, whatever it commits (R253). -/
theorem dispatchThen_invalid_begin (commit : State → State) (s : State) :
    dispatchThen .invalid commit s.begin =
      if (enables s.fcr31).v then
        { s with fcr31 := clearCauseBits s.fcr31 ||| 0x00010000#32, trap := true, reply := .silent }
      else commit
        { s with fcr31 := clearCauseBits s.fcr31 ||| 0x00010040#32, trap := false, reply := .silent } := by
  rw [dispatchThen_of_not_underflow (by decide) rfl, trapState, flagState, setCauseBits_setFlagBits_invalid,
    setCauseBits_invalid]
  simp only [State.begin_fcr31, enables_clearCauseBits, ExcSet.invalid_inter_eq_empty_iff, ite_not]
  rfl

section Branches
variable {w : Width} {pred : Predicate} {fs ft : RegIx} {s : State}

/-- Operands that are no NaN are compared by value (R180). -/
theorem compare_of_ordered (hu : ((classify (s.view w fs)).isNaN || (classify (s.view w ft)).isNaN) = false) :
    compare w pred fs ft s = s.begin.setC
      (if (val (s.view w fs)).numLt (val (s.view w ft)) then pred.less
        else if (val (s.view w fs)).numEq (val (s.view w ft)) then pred.equal else false) := by
  rw [← contributions_eq]
  exact if_neg (Bool.eq_false_iff.1 hu)

variable (hu : ((classify (s.view w fs)).isNaN || (classify (s.view w ft)).isNaN) = true)
include hu

/-- A NaN that does not signal gives the default result (R180). -/
theorem compare_of_quiet
    (hs : (pred.signal || classify (s.view w fs) == .signalingNaN || classify (s.view w ft) == .signalingNaN) = false) :
    compare w pred fs ft s = s.begin.setC pred.unordered :=
  (if_pos hu).trans (if_neg (Bool.eq_false_iff.1 hs))

/-- A NaN that signals is an Invalid dispatch before the default result (R180). -/
theorem compare_of_signals
    (hs : (pred.signal || classify (s.view w fs) == .signalingNaN || classify (s.view w ft) == .signalingNaN) = true) :
    compare w pred fs ft s = dispatchThen .invalid (fun t => t.setC pred.unordered) s.begin :=
  (if_pos hu).trans (if_pos hs)

end Branches

/-- Settles O54, by the branches of the engine: ordered operands, a NaN that does not signal, and the two ends of the
Invalid dispatch of one that does. -/
theorem comparisons : Obligations.Comparisons := by
  intro w c fs ft s a b unordered signals withC
  rw [exec_compareInstr]
  refine ⟨fun hu => ?_, fun hu hs => ?_, fun hu hs hv => ?_, fun hu hs hv => ?_⟩
  · rw [compare_of_ordered hu]
    rfl
  · rw [compare_of_quiet hu hs]
    rfl
  · rw [compare_of_signals hu hs, dispatchThen_invalid_begin, if_neg (Bool.eq_false_iff.1 hv)]
    rfl
  · rw [compare_of_signals hu hs, dispatchThen_invalid_begin, if_pos hv]

end Sys2Proof.Machine
end

section
/-! The ports and the CPU-side words (R220 to R241): the control registers by their number, the register and control
ports as requests, the transfer and branch words, and which instructions complete. -/

namespace Sys2Proof.Machine

/-! ### The control registers -/

theorem isControlReg_eq_true_iff (n : RegIx) : isControlReg n = true ↔ n = 0 ∨ n = 31 := by
  simp [isControlReg]

theorem ctrlRead_eq (s : State) (n : RegIx) :
    ctrlRead s n = if n = 0 then some s.fcr0 else if n = 31 then some s.fcr31 else none := by
  rw [ctrlRead]
  split_ifs with h31 h0
  · exact absurd (h31.symm.trans h0) (by decide)
  all_goals rfl

/-- The machine's write mask passes the whole word (R225, log entry 9). -/
theorem maskedWrite_params (v f : BitVec 32) : maskedWrite params.fcr31WriteMask v f = v := by
  have hmask : params.fcr31WriteMask = BitVec.allOnes 32 := rfl
  rw [maskedWrite, hmask, BitVec.and_allOnes, BitVec.not_allOnes, BitVec.and_zero, BitVec.or_zero]

theorem ctrlWrite_params (n : RegIx) (v : BitVec 32) (s : State) :
    ctrlWrite params n v s = if n = 0 then some s else if n = 31 then some (s.setFcr31 v) else none := by
  rw [ctrlWrite, maskedWrite_params]
  split_ifs with h31 h0
  · exact absurd (h31.symm.trans h0) (by decide)
  all_goals rfl

/-! ### Requests -/

/-- Settles O7: the step is the toggle, which writes the mode only. -/
theorem toggleKeepsStoredBits : Obligations.ToggleKeepsStoredBits := by
  intro s full rest hr
  exact ⟨_, step_cons hr, rfl, fun _ => rfl, rfl, rfl, rfl, rfl⟩

/-- Settles O55: a step performs its oldest request, and each register port is one view access. -/
theorem registerPorts : Obligations.RegisterPorts := by
  intro s r rest i v v' hr s0
  rw [step_cons hr]
  refine ⟨?_, ?_, ?_, ?_⟩ <;> (rintro rfl; rfl)

/-- Settles O56: a step performs its oldest request, and a control port answers by its register number. -/
theorem controlPorts : Obligations.ControlPorts := by
  intro s r rest n v hr s0
  rw [step_cons hr]
  constructor <;> rintro rfl
  · rw [perform, ctrlRead_eq]
    split_ifs <;> rfl
  · rw [perform, ctrlWrite_params]
    split_ifs <;> rfl

/-! ### CPU-side words -/

/-- Settles O57: each word is its port access, and the low word of the operand is its low 32 bits. -/
theorem transferWords : Obligations.TransferWords := by
  intro rt fs ft base offset s s0
  rw [← lowWord_eq_extractLsb']
  exact ⟨rfl, rfl, rfl, rfl, rfl, rfl, rfl, rfl⟩

/-- Settles O58: both words do their control port access, which answers by the register number. -/
theorem controlWords : Obligations.ControlWords := by
  intro rt n s s0
  constructor
  · rw [exec, execCfc1, ctrlRead_eq]
    split_ifs <;> rfl
  · rw [exec, execCtc1, ctrlWrite_params, lowWord_eq_extractLsb']
    split_ifs <;> rfl

theorem branchDisplacement_eq (offset : BitVec 16) : branchDisplacement offset = offset.signExtend 64 * 4#64 :=
  BitVec.shiftLeft_eq_mul_twoPow ..

/-- Settles O59: each word answers with the condition output, and shifting by 2 is multiplying by 4. -/
theorem branchWords : Obligations.BranchWords := by
  intro offset s c d answer
  have hanswer (taken annul : Bool) :
      s.quiet.answer (.branch taken annul (branchDisplacement offset)) = answer taken annul := by
    rw [branchDisplacement_eq]
    rfl
  exact ⟨congrArg _ (hanswer (!c) false), congrArg _ (hanswer c false), congrArg _ (hanswer (!c) c),
    congrArg _ (hanswer c (!c))⟩

/-! ### Completion -/

/-- A well-formed instruction answers a next state (R230, R233, R251). -/
theorem exec_of_wf {i : Instr} (hw : i.wf = true) (s : State) : ∃ t, exec i s = .next t := by
  cases ho : i.isOperation with
  | true =>
    obtain ⟨t, ht, -⟩ := exec_operation i ho s
    exact ⟨t, ht⟩
  | false =>
    rcases exec_portWord i ho s with ⟨-, t, ht, -⟩ | ⟨hn, -⟩
    · exact ⟨t, ht⟩
    · exact absurd (hw.symm.trans hn) (by decide)

/-- Only a control transfer can be ill-formed (D30). -/
theorem wf_or_controlWord (i : Instr) :
    i.wf = true ∨ ∃ rt n, (i = .cfc1 rt n ∨ i = .ctc1 rt n) ∧ i.wf = isControlReg n := by
  cases i with
  | cfc1 rt n => exact .inr ⟨rt, n, .inl rfl, rfl⟩
  | ctc1 rt n => exact .inr ⟨rt, n, .inr rfl, rfl⟩
  | _ => exact .inl rfl

/-- Settles O34: an ill-formed instruction is a control transfer, which is refused outside its two numbers. -/
theorem wellFormedInstructionsComplete : Obligations.WellFormedInstructionsComplete := by
  refine fun i s => ⟨fun hw => exec_of_wf hw s, fun hw => ?_⟩
  rcases wf_or_controlWord i with h | ⟨rt, n, hi, hn⟩
  · exact absurd h hw
  · rw [WellFormed, hn, isControlReg_eq_true_iff, not_or] at hw
    obtain ⟨h0, h31⟩ := hw
    obtain ⟨hread, hwrite⟩ := controlWords rt n s
    refine ⟨rt, n, hi, h0, h31, ?_⟩
    rcases hi with rfl | rfl
    · rw [hread, if_neg h0, if_neg h31]
    · rw [hwrite, if_neg h0, if_neg h31]

end Sys2Proof.Machine
end

section
/-! The exception protocol (R252 to R256): the updates of Cause, the paths of the dispatcher by the conditions of R253,
and what the trap output and an underflow say about FCR31 after an operation. -/

namespace Sys2Proof.Machine

/-! ### When FPE is signalled -/

/-- Without a signalled trap no exception that would demand one is recorded: neither Cause.E nor an enabled cause
(R253 step 4, R254). -/
theorem OpEffect.unexplained_of_not_trap {d : Dest} {s t : State} (h : OpEffect d s t) (ht : t.trap = false) :
    causeE t.fcr31 = false ∧ (causes t.fcr31).inter (enables t.fcr31) = .empty := by
  cases h with
  | commitReg w fd _ bits path v => simpa using path.disabled
  | commitCond _ bits _ path b => simpa using path.disabled
  | unimplemented => simp at ht
  | trap bits => simp at ht

/-- Settles O27: a trap state records its own reason, and a commit has neither Cause.E nor an enabled cause. -/
theorem trapExactlyWhenCauseEnabled : Obligations.TrapExactlyWhenCauseEnabled := by
  refine fun i s t ho h => ⟨exec_trap_explained h, fun hcause => ?_⟩
  by_contra ht
  obtain ⟨hE, hen⟩ := (exec_opEffect ho h).unexplained_of_not_trap (Bool.eq_false_iff.2 ht)
  rcases hcause with hc | hc
  · exact Bool.false_ne_true (hE.symm.trans hc)
  · exact hc hen

/-! ### The steps of the dispatcher -/

theorem ExcSet.inter_ne_empty_iff (x en : ExcSet) :
    x.inter en ≠ .empty ↔ (x.i && en.i || x.u && en.u || x.o && en.o || x.z && en.z || x.v && en.v) = true := by
  rw [← not_iff_not, not_not, Bool.not_eq_true]
  simp [inter, empty, and_assoc]

section Steps
variable {bits : ExcSet} {s : State} (commit : State → State)

/-- Step 2 of R253: an underflow that fails the flag-path rule is unimplemented. -/
theorem dispatchThen_of_ineligible (hu : bits.u = true)
    (he : (!(enables s.fcr31).u && !(enables s.fcr31).i && flushSubnormals s.fcr31) = false) :
    dispatchThen bits commit s = raiseUnimplemented s := by
  have hne : bits ≠ .empty := by rintro rfl; exact Bool.false_ne_true hu
  rw [dispatchThen_eq, dispatchPath, if_neg hne, if_pos (by rw [hu, he]; rfl)]

/-- Steps 3 and 4 of R253: a set that step 2 lets pass traps or commits by its enabled exceptions. -/
theorem dispatchThen_of_eligible (hb : bits ≠ .empty)
    (he : bits.u = true → (!(enables s.fcr31).u && !(enables s.fcr31).i && flushSubnormals s.fcr31) = true) :
    dispatchThen bits commit s =
      if bits.inter (enables s.fcr31) ≠ .empty then trapState bits s else commit (flagState bits s) := by
  have hpass : ¬ (bits.u && !(!(enables s.fcr31).u && !(enables s.fcr31).i && flushSubnormals s.fcr31)) = true := by
    rw [Bool.and_eq_true, Bool.not_eq_true']
    exact fun ⟨hu, hn⟩ => Bool.false_ne_true (hn.symm.trans (he hu))
  rw [dispatchThen_eq, dispatchPath, if_neg hb, if_neg hpass]
  split_ifs <;> rfl

end Steps

/-- Settles O25, by the steps of the dispatcher and the shape of every set the arithmetic engine dispatches. -/
theorem dispatchProtocol : Obligations.DispatchProtocol := by
  intro x commit s en eligible anyEnabled
  have hany : x.inter en ≠ .empty ↔ anyEnabled = true := ExcSet.inter_ne_empty_iff x en
  refine ⟨?_, dispatchThen_of_ineligible commit, fun he ha => ?_, fun hx he ha => ?_, fun q op w a b pre nat =>
    (bitsOk_binary q op a b pre nat).eq_of_underflow⟩
  · rintro rfl
    rfl
  · have hen := hany.2 ha
    have hx : x ≠ .empty := by rintro rfl; exact hen (ExcSet.empty_inter en)
    rw [dispatchThen_of_eligible commit hx he, if_pos hen]
    rfl
  · rw [dispatchThen_of_eligible commit hx he, if_neg (mt hany.1 (Bool.eq_false_iff.1 ha))]
    rfl

/-! ### Underflow -/

/-- An operation that reports Underflow committed on the flag path: a trap with the causes of its exceptions has no
Underflow among them, and UnimplementedOperation reports Cause.E alone (R253). -/
theorem OpEffect.flagPath_of_underflow {d : Dest} {s t : State} (h : OpEffect d s t)
    (hu : (causes t.fcr31).u = true) : t.trap = false ∧ FlagPath s.fcr31 (causes t.fcr31) := by
  cases h with
  | commitReg w fd _ bits path v => simpa using path
  | commitCond _ bits _ path b => simpa using path
  | unimplemented => simp [ExcSet.empty] at hu
  | trap bits _ _ noUnderflow => simp [noUnderflow] at hu

/-- Settles O32: a reported underflow is on the flag path, and its causes are its flags. -/
theorem underflowOnlyOnTheFlagPath : Obligations.UnderflowOnlyOnTheFlagPath := by
  intro i s t ho h hu
  have he := exec_opEffect ho h
  obtain ⟨ht, path⟩ := he.flagPath_of_underflow hu
  obtain ⟨hEnU, hEnI, hFS⟩ := path.eligible hu
  have hcauses := path.ok.eq_of_underflow hu
  refine ⟨ht, hFS, hEnU, hEnI, hcauses, ?_⟩
  rw [he.flags.2 ht, hcauses]
  exact ⟨Bool.or_true _, Bool.or_true _⟩

/-! ### The updates of Cause -/

/-- Settles O23, bit by bit. -/
theorem clearCauseClearsOnlyCause : Obligations.ClearCauseClearsOnlyCause := by
  intro f k _
  split_ifs with hk
  · obtain ⟨hlo, hhi⟩ := hk
    rw [clearCauseBits_getLsbD, decide_eq_true hlo, decide_eq_true hhi, Bool.true_and, Bool.not_true, Bool.and_false]
  · exact clearCauseBits_getLsbD_of_ne f (by omega)

/-- Settles O24: both updates are record updates. -/
theorem raiseUnimplementedSetsCauseE : Obligations.RaiseUnimplementedSetsCauseE := fun _ => rfl

end Sys2Proof.Machine
end

section
/-! Reset, and what writes FCR0 and Mode (R270, R273). -/

namespace Sys2Proof.Machine

theorem PortEffect.mode {d : Dest} {s t : State} (h : PortEffect d s t) : t.mode = s.mode := by
  cases h <;> simp

/-- Every step but `reset()` and the addressing toggle keeps FCR0 and Mode, and the toggle keeps FCR0 (R273). -/
theorem step_fcr0_mode_cases {s t : State} (h : step s = .next t) :
    s.requests.head? = some .reset ∨
    ((∃ full, s.requests.head? = some (.setAddressingMode full)) ∧ t.fcr0 = s.fcr0) ∨
    (t.fcr0 = s.fcr0 ∧ t.mode = s.mode) := by
  rcases step_next h with ⟨-, rfl⟩ | ⟨w, d, rest, i, -, -, he⟩ | ⟨rest, hr, -⟩ | ⟨full, rest, hr, rfl⟩ |
    ⟨r, rest, d, -, hp⟩
  · exact .inr (.inr ⟨rfl, rfl⟩)
  · obtain ⟨hmode, hfcr0, -, -⟩ := exec_keeps he
    exact .inr (.inr ⟨hfcr0, hmode⟩)
  · exact .inl (by rw [hr, List.head?_cons])
  · exact .inr (.inl ⟨⟨full, by rw [hr, List.head?_cons]⟩, rfl⟩)
  · exact .inr (.inr ⟨hp.fcr0, hp.mode⟩)

/-- Settles O8, by the three kinds of step. -/
theorem onlyResetAndToggleWriteModeAndFcr0 : Obligations.OnlyResetAndToggleWriteModeAndFcr0 := by
  intro s t h
  rcases step_fcr0_mode_cases h with hreset | ⟨htoggle, hfcr0⟩ | ⟨hfcr0, hmode⟩
  · exact ⟨fun _ => hreset, fun _ => .inl hreset⟩
  · exact ⟨fun hne => absurd hfcr0 hne, fun _ => .inr htoggle⟩
  · exact ⟨fun hne => absurd hfcr0 hne, fun hne => absurd hmode hne⟩

/-- Settles O6: the step is the reset, whose registers are those of the reset state. -/
theorem resetSetsTheWholeState : Obligations.ResetSetsTheWholeState := by
  intro s rest hr
  exact ⟨_, step_cons hr, State.reset_slot, rfl, rfl, rfl, rfl, rfl⟩

/-- Settles O10: after reset no trap is signalled, and FCR0 is the identification value. -/
theorem resetInv : Obligations.ResetInv := State.inv_of_not_trap rfl rfl

end Sys2Proof.Machine
end
